-- ==== Sys2Proof/Word.lean ====
section
/-! DEFINITION. The word types of the block: a byte of a buffer or of a frame, a 16-bit offset, length or
sample, and a 32-bit register or bus word (00_scope.md R8, R9). Every value is unsigned. -/

namespace Sys2Proof

/-- One byte of a buffer, a frame or the checksum (R8, R9). -/
abbrev Byte := BitVec 8

/-- A 16-bit offset, length, count or analog sample (R8, R87). -/
abbrev Half := BitVec 16

/-- A 32-bit register, a 32-bit descriptor, or the data lanes of one bus access (R8, R67). -/
abbrev Word := BitVec 32

end Sys2Proof
end

