-- ==== Sys2Proof/Machine/Bytes.lean ====
section
/-! DEFINITION. Byte sequences as the rules write them (00_scope.md R10, R12): indexing, inclusive
slices, the two searches, little-endian assembly, the checksum fold (40_checksum.md R110) and the byte
layouts of the three wire formats (30_encoding.md R81, R82, R86). -/

namespace Sys2Proof

/-- `s[j]` (R10). The rules read `s[j]` only with `j < |s|`; the 0 past the end is never used. -/
def byteAt (s : List Byte) (j : Nat) : Byte := s.getD j 0

/-- `s[a..b]`, the inclusive subsequence, empty when `b < a` (R10). -/
def slice (s : List Byte) (a b : Nat) : List Byte := (s.drop a).take (b + 1 - a)

/-- The checksum of R110: an 8-bit XOR fold from the left with seed 0. -/
def checksum (s : List Byte) : Byte := s.foldl (fun acc b => acc ^^^ b) 0

/-- The position of the first byte `b` in `s`, if any. -/
def seek1 (b : Byte) : List Byte → Option Nat
  | [] => none
  | x :: xs => if x = b then some 0 else (seek1 b xs).map (· + 1)

/-- The position of the first pair of neighbours `b0 b1` in `s`, if any. Every position is tried, also
the one right after a byte that began a failed match (R12). -/
def seek2 (b0 b1 : Byte) : List Byte → Option Nat
  | [] => none
  | [_] => none
  | x :: y :: xs => if x = b0 ∧ y = b1 then some 0 else (seek2 b0 b1 (y :: xs)).map (· + 1)

/-- `find1(s, from, b)` of R12: the least index `j >= from` with `j < |s|` and `s[j] = b`. -/
def find1 (s : List Byte) (start : Nat) (b : Byte) : Option Nat :=
  (seek1 b (s.drop start)).map (· + start)

/-- `find2(s, from, b0, b1)` of R12: the least `j >= from` with `j + 1 < |s|`, `s[j] = b0`, `s[j+1] = b1`. -/
def find2 (s : List Byte) (start : Nat) (b0 b1 : Byte) : Option Nat :=
  (seek2 b0 b1 (s.drop start)).map (· + start)

/-- The little-endian 16-bit value `low | (high << 8)` (R87). -/
def le16 (low high : Byte) : Half := low.setWidth 16 ||| (high.setWidth 16 <<< 8)

/-- The low byte of a 16-bit sample, the first of its two bytes on the wire (R86). -/
def lowByte (v : Half) : Byte := v.setWidth 8

/-- The high byte of a 16-bit sample, the second of its two bytes on the wire (R86). -/
def highByte (v : Half) : Byte := (v >>> 8).setWidth 8

/-- The first `n` byte lanes of a bus word, lane 7:0 first (R67). -/
def lanes : Nat → Word → List Byte
  | 0, _ => []
  | n + 1, w => w.setWidth 8 :: lanes n (w >>> 8)

/-- The bus word whose lanes, from 7:0 up, are the given bytes; higher lanes are 0 (R67, R69). -/
def ofLanes : List Byte → Word
  | [] => 0
  | b :: bs => b.setWidth 32 ||| (ofLanes bs <<< 8)

/-- The eight analog channels AN0..AN7, in acquisition order (R43, R86). -/
structure Channels where
  an0 : Half
  an1 : Half
  an2 : Half
  an3 : Half
  an4 : Half
  an5 : Half
  an6 : Half
  an7 : Half
  deriving DecidableEq, Repr

/-- Channel `i` (R43). -/
def channelOf (c : Channels) (i : Fin 8) : Half :=
  match i with
  | 0 => c.an0
  | 1 => c.an1
  | 2 => c.an2
  | 3 => c.an3
  | 4 => c.an4
  | 5 => c.an5
  | 6 => c.an6
  | 7 => c.an7

/-- All channels 0: their value after reset and after `clear_outputs()` (R52, R97). -/
def zeroChannels : Channels := ⟨0, 0, 0, 0, 0, 0, 0, 0⟩

/-- Channel `i` of a 20-byte frame `f`: `zext_16(f[3+2i]) | (zext_16(f[4+2i]) << 8)` (R87). -/
def sampleAt (f : List Byte) (i : Nat) : Half := le16 (byteAt f (3 + 2 * i)) (byteAt f (4 + 2 * i))

/-- The eight channels of a 20-byte frame (R160, R162). -/
def samplesOf (f : List Byte) : Channels :=
  ⟨sampleAt f 0, sampleAt f 1, sampleAt f 2, sampleAt f 3,
   sampleAt f 4, sampleAt f 5, sampleAt f 6, sampleAt f 7⟩

/-- The sixteen analog bytes of a frame, low byte first in each channel (R86). -/
def sampleBytes (c : Channels) : List Byte :=
  [lowByte c.an0, highByte c.an0, lowByte c.an1, highByte c.an1,
   lowByte c.an2, highByte c.an2, lowByte c.an3, highByte c.an3,
   lowByte c.an4, highByte c.an4, lowByte c.an5, highByte c.an5,
   lowByte c.an6, highByte c.an6, lowByte c.an7, highByte c.an7]

/-- The length byte of a payload, `L[7:0]` (R81, R82, R120). -/
def lengthByte (payload : List Byte) : Byte := BitVec.ofNat 8 payload.length

/-- The checksum byte of a command frame: the marker is not covered (R81, R113). -/
def commandChecksum (cmd : Byte) (payload : List Byte) : Byte :=
  checksum ([cmd, lengthByte payload] ++ payload)

/-- The checksum a response frame should carry: the marker is not covered (R82, R113). -/
def responseChecksum (status cmd : Byte) (payload : List Byte) : Byte :=
  checksum ([status, cmd, lengthByte payload] ++ payload)

/-- A command frame `55 AA cmd len payload chk` (R81). -/
def commandFrame (cmd : Byte) (payload : List Byte) : List Byte :=
  [0x55, 0xAA] ++ ([cmd, lengthByte payload] ++ payload) ++ [commandChecksum cmd payload]

/-- A response frame `55 AB status cmd len payload chk`, with whatever checksum byte it carries (R82). -/
def responseFrame (status cmd : Byte) (payload : List Byte) (chk : Byte) : List Byte :=
  [0x55, 0xAB, status, cmd, lengthByte payload] ++ payload ++ [chk]

/-- A streaming frame: 20 bytes `7A 7B digital an0_lo an0_hi … an7_lo an7_hi 7C` (R86). -/
def streamFrame (digital : Byte) (an : Channels) : List Byte :=
  [0x7A, 0x7B, digital] ++ sampleBytes an ++ [0x7C]

end Sys2Proof
end

