-- ==== Sys2Proof/Syntax.lean ====
section
/-! DEFINITION. The syntax of the machine: its registers by name (10_state.md R22), the bus accesses of
the host (20_memory.md R60, 30_encoding.md R100), the agenda's events, and `Instr`, one constructor per
row of spec/opcode_table.json. -/

namespace Sys2Proof

/-- The interface registers (R22); `an i` is ANi. -/
inductive Reg where
  | ctrl
  | status
  | inOff
  | inLen
  | arg
  | outLen
  | chkResult
  | rspHdr
  | rspChk
  | rspOffset
  | frameCount
  | extCursor
  | telemDigital
  | an (i : Fin 8)
  deriving DecidableEq, Repr

/-- One host bus access, at a byte offset from `BLOCK_BASE`, of `size` bytes (R100). The data of a
write stands in the low `8 * size` lanes (R67). -/
inductive Access where
  | read (offset size : Nat)
  | write (offset size : Nat) (data : Word)
  deriving DecidableEq, Repr

/-- What can happen next to the block (10_state.md section 1, R72, R99, R210). -/
inductive Event where
  /-- the host performs one bus access (R100) -/
  | access (a : Access)
  /-- a whole byte sequence that the host stores from IBUF[i] on, the form a wire row has in the agenda: the n
  one-byte writes of R99's `bytes` line as one event (log entries 8 and 18) -/
  | bytes (i : Nat) (bs : List Byte)
  /-- the host's `wait`: it reads STATUS until DONE is 1 (R99) -/
  | wait
  /-- the block takes its turn: the completion step, where one is enabled (R96) -/
  | blockTurn
  /-- the reset input is asserted (R210) -/
  | reset
  deriving DecidableEq, Repr

/-- The opcode table, one constructor per row. The first eight are CTRL writes with START = 1 (R93, R94),
`ackDone` a STATUS write with bit 1 = 1 (R29), the last three the wire formats (R81, R82, R86), each
with the index `i` of IBUF at which the host stores its bytes (R7, R99). `irqEn` is bit 1 of the write. -/
inductive Instr where
  /-- CHECKSUM, OP 0 (R112) -/
  | checksum (irqEn : Bool)
  /-- ENCODE_CMD, OP 1 (R120) -/
  | encodeCmd (irqEn : Bool)
  /-- DECODE_RSP, OP 2 (R123) -/
  | decodeRsp (irqEn : Bool)
  /-- EXTRACT, OP 3 (R150) -/
  | extract (irqEn : Bool)
  /-- DECODE_FRAME, OP 4 (R160) -/
  | decodeFrame (irqEn : Bool)
  /-- RESERVED_OP5 (R94) -/
  | reservedOp5 (irqEn : Bool)
  /-- RESERVED_OP6_7: OP 011x, `lowOp` its free bit (R94) -/
  | reservedOp6_7 (lowOp : BitVec 1) (irqEn : Bool)
  /-- RESERVED_OP8_15: OP 1xxx, `lowOp` its three free bits (R94) -/
  | reservedOp8_15 (lowOp : BitVec 3) (irqEn : Bool)
  /-- ACK_DONE (R29) -/
  | ackDone
  /-- CMD_FRAME: `55 AA cc LL p kk`; `kk` is fixed by the other fields (R81) -/
  | cmdFrame (i : Nat) (cmd : Byte) (payload : List Byte)
  /-- RSP_FRAME: `55 AB ss cc LL p kk`, with any checksum byte `kk` (R82) -/
  | rspFrame (i : Nat) (status cmd : Byte) (payload : List Byte) (chk : Byte)
  /-- STREAM_FRAME: `7A 7B dd a0l a0h … a7l a7h 7C` (R86) -/
  | streamFrame (i : Nat) (digital : Byte) (an : Channels)
  deriving DecidableEq, Repr

end Sys2Proof
end

