-- ==== Sys2Proof/WellFormed.lean ====
section
/-! DEFINITION. Which terms of `Instr` stand for an instruction of the table: a payload's length must fit
in the one length byte of its frame (30_encoding.md R83). Every other field's type admits its legal
values only. -/

namespace Sys2Proof

/-- The payload-length field is one unsigned byte, so a payload has at most 255 bytes (R83). -/
def payloadFits (payload : List Byte) : Bool := decide (payload.length ≤ 255)

/-- The well-formed instructions. -/
def wellFormed : Instr → Bool
  | .checksum _ => true
  | .encodeCmd _ => true
  | .decodeRsp _ => true
  | .extract _ => true
  | .decodeFrame _ => true
  | .reservedOp5 _ => true
  | .reservedOp6_7 _ _ => true
  | .reservedOp8_15 _ _ => true
  | .ackDone => true
  | .cmdFrame _ _ payload => payloadFits payload
  | .rspFrame _ _ _ payload _ => payloadFits payload
  | .streamFrame _ _ _ => true

end Sys2Proof
end

