-- ==== Sys2Proof/Decode.lean ====
section
/-! DEFINITION. The decoder, total on every event of the agenda, rejecting by name, and the encoder. A
CTRL write is matched on the masks of 30_encoding.md R93 and R94, a STATUS write on bit 1 (10_state.md
R29), a byte sequence on the wire formats R81, R82 and R86. -/

namespace Sys2Proof

/-- The offset of each register (R22). -/
def regOffset : Reg → Nat
  | .ctrl => 0x00
  | .status => 0x04
  | .inOff => 0x08
  | .inLen => 0x0C
  | .arg => 0x10
  | .outLen => 0x14
  | .chkResult => 0x18
  | .rspHdr => 0x1C
  | .rspChk => 0x20
  | .rspOffset => 0x24
  | .frameCount => 0x28
  | .extCursor => 0x2C
  | .telemDigital => 0x30
  | .an i => 0x40 + 4 * i.val

/-- The register at an offset of the register window; every other offset of it is unmapped (R22, R66). -/
def regAt : Nat → Option Reg
  | 0x00 => some .ctrl
  | 0x04 => some .status
  | 0x08 => some .inOff
  | 0x0C => some .inLen
  | 0x10 => some .arg
  | 0x14 => some .outLen
  | 0x18 => some .chkResult
  | 0x1C => some .rspHdr
  | 0x20 => some .rspChk
  | 0x24 => some .rspOffset
  | 0x28 => some .frameCount
  | 0x2C => some .extCursor
  | 0x30 => some .telemDigital
  | 0x40 => some (.an 0)
  | 0x44 => some (.an 1)
  | 0x48 => some (.an 2)
  | 0x4C => some (.an 3)
  | 0x50 => some (.an 4)
  | 0x54 => some (.an 5)
  | 0x58 => some (.an 6)
  | 0x5C => some (.an 7)
  | _ => none

/-- Why an event is no instruction of the table. None of these stops the machine: the event is then an
ordinary bus access, byte write, wait, block turn or reset. -/
inductive Reject where
  /-- a read, a write of another width, or a write to an offset no row of the table names -/
  | noOpcodeRow
  /-- a CTRL write with bit 0 = 0: it starts nothing (R24) -/
  | startBitClear
  /-- a STATUS write with bit 1 = 0: it leaves DONE unchanged (R29) -/
  | ackBitClear
  /-- the bytes open with none of `55 AA`, `55 AB`, `7A 7B` (R92) -/
  | noMarker
  /-- the bytes are not as many as the frame's length asks for (R84, R85, R86) -/
  | badLength
  /-- a command frame whose last byte is not its checksum (R81) -/
  | badChecksum
  /-- a 20-byte streaming range that does not end in 7C (R86) -/
  | badEndSentinel
  /-- a wait, a turn of the block or a reset -/
  | noInstruction
  deriving DecidableEq, Repr

/-- One CTRL-write row of the table: it matches `w` when `w &&& mask = pattern` (R93, R94). -/
structure CtrlRow where
  mnemonic : String
  mask : Word
  pattern : Word
  deriving DecidableEq, Repr

/-- The CTRL-write rows of R93 and R94, in the table's order. -/
def ctrlRows : List CtrlRow :=
  [⟨"CHECKSUM", 0x000000F1, 0x00000001⟩, ⟨"ENCODE_CMD", 0x000000F1, 0x00000011⟩,
   ⟨"DECODE_RSP", 0x000000F1, 0x00000021⟩, ⟨"EXTRACT", 0x000000F1, 0x00000031⟩,
   ⟨"DECODE_FRAME", 0x000000F1, 0x00000041⟩, ⟨"RESERVED_OP5", 0x000000F1, 0x00000051⟩,
   ⟨"RESERVED_OP6_7", 0x000000E1, 0x00000061⟩, ⟨"RESERVED_OP8_15", 0x00000081, 0x00000081⟩]

/-- Whether a row matches a CTRL write of `w`. -/
def rowMatches (w : Word) (r : CtrlRow) : Bool := w &&& r.mask == r.pattern

/-- The mnemonic of an instruction's row in spec/opcode_table.json. -/
def rowName : Instr → String
  | .checksum _ => "CHECKSUM"
  | .encodeCmd _ => "ENCODE_CMD"
  | .decodeRsp _ => "DECODE_RSP"
  | .extract _ => "EXTRACT"
  | .decodeFrame _ => "DECODE_FRAME"
  | .reservedOp5 _ => "RESERVED_OP5"
  | .reservedOp6_7 _ _ => "RESERVED_OP6_7"
  | .reservedOp8_15 _ _ => "RESERVED_OP8_15"
  | .ackDone => "ACK_DONE"
  | .cmdFrame _ _ _ => "CMD_FRAME"
  | .rspFrame _ _ _ _ _ => "RSP_FRAME"
  | .streamFrame _ _ _ => "STREAM_FRAME"

/-- A CTRL write: START is bit 0, IRQ_EN bit 1, OP bits 7:4; bits 3:2 and 31:8 are ignored (R23, R93). -/
def decodeCtrl (w : Word) : Except Reject Instr :=
  let irqEn := w.getLsbD 1
  if w.getLsbD 0 = false then .error .startBitClear
  else match (w.extractLsb' 4 4).toNat with
    | 0 => .ok (.checksum irqEn)
    | 1 => .ok (.encodeCmd irqEn)
    | 2 => .ok (.decodeRsp irqEn)
    | 3 => .ok (.extract irqEn)
    | 4 => .ok (.decodeFrame irqEn)
    | 5 => .ok (.reservedOp5 irqEn)
    | 6 => .ok (.reservedOp6_7 (w.extractLsb' 4 1) irqEn)
    | 7 => .ok (.reservedOp6_7 (w.extractLsb' 4 1) irqEn)
    | _ => .ok (.reservedOp8_15 (w.extractLsb' 4 3) irqEn)

/-- A STATUS write: bit 1 = 1 acknowledges DONE, every other bit is ignored (R27, R29). -/
def decodeStatus (w : Word) : Except Reject Instr :=
  if w.getLsbD 1 = true then .ok .ackDone else .error .ackBitClear

/-- A bus access: only 4-byte writes to CTRL and STATUS are rows of the table. -/
def decodeAccess : Access → Except Reject Instr
  | .read _ _ => .error .noOpcodeRow
  | .write offset size data =>
    if size = 4 ∧ offset = regOffset .ctrl then decodeCtrl data
    else if size = 4 ∧ offset = regOffset .status then decodeStatus data
    else .error .noOpcodeRow

/-- A whole command frame stored from IBUF[i] on: `5 + L` bytes, the last the checksum of cmd, len and
payload (R81, R84). -/
def decodeCmdFrame (i : Nat) (f : List Byte) : Except Reject Instr :=
  let len := (byteAt f 3).toNat
  if f.length ≠ 5 + len then .error .badLength
  else if byteAt f (4 + len) ≠ checksum (slice f 2 (3 + len)) then .error .badChecksum
  else .ok (.cmdFrame i (byteAt f 2) (slice f 4 (3 + len)))

/-- A whole response frame stored from IBUF[i] on: `6 + L` bytes, with any checksum byte (R82, R85). -/
def decodeRspFrame (i : Nat) (f : List Byte) : Except Reject Instr :=
  let len := (byteAt f 4).toNat
  if f.length ≠ 6 + len then .error .badLength
  else .ok (.rspFrame i (byteAt f 2) (byteAt f 3) (slice f 5 (4 + len)) (byteAt f (5 + len)))

/-- A whole streaming frame stored from IBUF[i] on: exactly 20 bytes ending in 7C (R86). -/
def decodeStreamFrame (i : Nat) (f : List Byte) : Except Reject Instr :=
  if f.length ≠ 20 then .error .badLength
  else if byteAt f 19 ≠ 0x7C then .error .badEndSentinel
  else .ok (.streamFrame i (byteAt f 2) (samplesOf f))

/-- A byte sequence: the protocols are told apart by their two opening bytes (R92). -/
def decodeBytes (i : Nat) (f : List Byte) : Except Reject Instr :=
  if f.take 2 = [0x55, 0xAA] then decodeCmdFrame i f
  else if f.take 2 = [0x55, 0xAB] then decodeRspFrame i f
  else if f.take 2 = [0x7A, 0x7B] then decodeStreamFrame i f
  else .error .noMarker

/-- The decoder: the instruction an event of the agenda is, or why it is none. -/
def decode : Event → Except Reject Instr
  | .access a => decodeAccess a
  | .bytes i f => decodeBytes i f
  | .wait => .error .noInstruction
  | .blockTurn => .error .noInstruction
  | .reset => .error .noInstruction

/-- The CTRL word with START = 1, the given OP and IRQ_EN, and reserved bits 0 (R23, R93). -/
def startWord (op : BitVec 4) (irqEn : Bool) : Word :=
  0#24 ++ op ++ 0#2 ++ BitVec.ofBool irqEn ++ 1#1

/-- The event that writes `startWord` to CTRL. -/
def startEvent (op : BitVec 4) (irqEn : Bool) : Event :=
  .access (.write (regOffset .ctrl) 4 (startWord op irqEn))

/-- The encoder: the event that is a well-formed instruction, reserved bits 0 (R81, R82, R86, R93, R94, R99). -/
def encode : Instr → Event
  | .checksum irqEn => startEvent 0 irqEn
  | .encodeCmd irqEn => startEvent 1 irqEn
  | .decodeRsp irqEn => startEvent 2 irqEn
  | .extract irqEn => startEvent 3 irqEn
  | .decodeFrame irqEn => startEvent 4 irqEn
  | .reservedOp5 irqEn => startEvent 5 irqEn
  | .reservedOp6_7 lowOp irqEn => startEvent (3#3 ++ lowOp) irqEn
  | .reservedOp8_15 lowOp irqEn => startEvent (1#1 ++ lowOp) irqEn
  | .ackDone => .access (.write (regOffset .status) 4 0x00000002)
  | .cmdFrame i cmd payload => .bytes i (commandFrame cmd payload)
  | .rspFrame i status cmd payload chk => .bytes i (responseFrame status cmd payload chk)
  | .streamFrame i digital an => .bytes i (streamFrame digital an)

/-- The first `n` bytes of a number, least significant first. -/
def bytesOfNat : Nat → Nat → List Byte
  | 0, _ => []
  | n + 1, w => BitVec.ofNat 8 w :: bytesOfNat n (w / 256)

/-- How many bytes the frame that opens with these bytes has (R90); none of the three markers: 0. -/
def frameExtent (header : List Byte) : Nat :=
  if header.take 2 = [0x55, 0xAA] then 5 + (byteAt header 3).toNat
  else if header.take 2 = [0x55, 0xAB] then 6 + (byteAt header 4).toNat
  else if header.take 2 = [0x7A, 0x7B] then 20
  else 0

/-- The event that a table word stands for (log entry 11). The table gives its bus-write rows 8 to 32
bits and its wire rows 16 bits (the marker) or 160 (a streaming frame). A bus word with bit 0 = 1 goes
to CTRL, any other to STATUS; a wire row's bytes go to IBUF[0] on, as many as the frame's own length. -/
def tableEvent (nbits w : Nat) : Event :=
  let v := w % 2 ^ nbits
  if nbits = 16 ∨ 32 < nbits then .bytes 0 (bytesOfNat (frameExtent (bytesOfNat 5 v)) v)
  else if v % 2 = 1 then .access (.write (regOffset .ctrl) 4 (BitVec.ofNat 32 v))
  else .access (.write (regOffset .status) 4 (BitVec.ofNat 32 v))

/-- The instruction the decoder reads from a row's word of spec/opcode_table.json. -/
def decodeTableWord (nbits w : Nat) : Option Instr := (decode (tableEvent nbits w)).toOption

end Sys2Proof
end

