-- ==== Sys2Proof/Config.lean ====
section
/-! DEFINITION. What the spec leaves to the platform (the OPEN parameters of 92_eei_decisions.md that a
rule names a value of) and the values it leaves free. Each is an opaque constant: nothing in Lean can
compute it, so a statement about the machine holds whatever it is. -/

namespace Sys2Proof.Config

/-- How many bytes IBUF holds beyond the 261 that R8 guarantees. `IBUF_BYTES` is OPEN with
261 <= IBUF_BYTES <= 65535, that is 261 plus any number below 65275 (log entry 2). -/
opaque ibufSpare : Fin 65275

/-- `IBUF_BYTES` (R8): any integer from 261 to 65535. -/
def ibufBytes : Nat := 261 + ibufSpare.val

/-- `OBUF_BYTES` (R8, R47). -/
def obufBytes : Nat := 260

/-- `FDESC_ENTRIES` = floor(IBUF_BYTES / 3) (R8, R48). -/
def fdescEntries : Nat := ibufBytes / 3

/-- `BLOCK_BASE` (R8, R61): the host bus address of offset 0 of the block; OPEN, no rule depends on it. -/
opaque blockBase : Nat

/-- The host bus address of an offset into the block (R61). -/
def hostAddress (offset : Nat) : Nat := blockBase + offset

/-- The free values of R217 and I10: what a host read of an output returns while an operation is in
progress. The argument is the draw's number, so that every such read is a fresh draw (log entry 3). -/
opaque freeRead : Nat → Word

end Sys2Proof.Config
end

