-- ==== Sys2Proof/Machine/State.lean ====
section
/-! DEFINITION. The state of the block as 10_state.md gives it, the agenda that says which agent moves
next, the reasons a step can stop, and the state after reset (R52). -/

namespace Sys2Proof.Machine

/-- The block raises no fault: "No treatment in this spec is `fault` or `stuck`" (93_implementation_defined.md),
every error is a result code (R180, R191). So there is no constructor, no step can end in a fault, and
that is safe. -/
inductive Fault where
  deriving DecidableEq, Repr

/-- Why the model refuses to go on. Each one but the first is a host program that the spec itself puts
outside the model's domain; the hardware may go on, so a refusal is safe. -/
inductive Refusal where
  /-- An arm of `exec` that gives its instruction no meaning; no arm does. Safe. -/
  | notModelled (mnemonic : String)
  /-- A host access to an unmapped offset, of a width or alignment its region does not accept, or past
  the mapped part of its region; raised by a bus read, a bus write or a stored frame (R66, I15). Safe. -/
  | busError
  /-- A CTRL write with START = 1 while BUSY = 1; raised by the start step (R216, I9). Safe. -/
  | startWhileBusy
  /-- A write to IBUF while BUSY = 1; raised by a bus write or a stored frame (R215, I8). Safe. -/
  | ibufWriteWhileBusy
  /-- An operation whose input holds an IBUF byte unwritten since reset; raised by the start step, and by
  a completion step in states that no run reaches (R218, I11). Safe. -/
  | unwrittenInput
  /-- A host read of an IBUF, OBUF or FDESC byte unwritten since reset; raised by a bus read (R218, I12). Safe. -/
  | unwrittenRead
  deriving DecidableEq, Repr

/-- The result codes of STATUS.RESULT (R30, R181). The reserved codes 8 to 15 are never produced (I22), so
the type has no value for them. -/
inductive ResultCode where
  | none
  | ok
  | notFound
  | incomplete
  | encodingError
  | malformed
  | badOp
  | badRange
  deriving DecidableEq, Repr

/-- The output registers that `clear_outputs()` zeroes, each with its fields' bits only: reserved bits
read 0 (R35 to R44, R97). -/
structure Outputs where
  /-- OUT_LEN.LENGTH (R35) -/
  outLen : Half
  /-- CHK_RESULT.CHECKSUM (R36) -/
  chkResult : Byte
  /-- RSP_HDR bits 23:0: LEN, CMD_ID, STATUS_BYTE (R37) -/
  rspHdr : BitVec 24
  /-- RSP_CHK bits 15:0: COMPUTED, RECEIVED (R38) -/
  rspChk : Half
  /-- RSP_OFFSET.OFFSET (R39) -/
  rspOffset : Half
  /-- FRAME_COUNT.COUNT (R40) -/
  frameCount : Half
  /-- EXT_CURSOR.CURSOR (R41) -/
  extCursor : Half
  /-- TELEM_DIGITAL.DIGITAL (R42) -/
  telemDigital : Byte
  /-- AN0..AN7 (R43) -/
  an : Channels
  deriving DecidableEq, Repr

/-- Every output register 0: after reset (R52) and after `clear_outputs()` (R97). -/
def zeroOutputs : Outputs := ⟨0, 0, 0, 0, 0, 0, 0, 0, zeroChannels⟩

/-- The written bytes of IBUF, OBUF and FDESC, by their offset from `BLOCK_BASE` (R61). Offsets strictly
rise. A byte that is not listed is *unwritten* since reset and holds no defined value (R50). -/
abbrev Memory := List Host.Cell

/-- The canonical form of a memory: strictly rising offsets. (An unlisted byte has no value, so no entry
can equal what an unlisted byte reads as.) -/
def memoryWf : Memory → Bool
  | [] => true
  | [_] => true
  | (a, _) :: (a', b') :: rest => decide (a < a') && memoryWf ((a', b') :: rest)

/-- The machine. -/
structure State where
  /-- CTRL.IRQ_EN (R25); CTRL.START always reads 0 and is no storage (R24) -/
  irqEn : Bool
  /-- CTRL.OP (R26) -/
  op : BitVec 4
  /-- STATUS.BUSY (R28), the in-progress flag of R49 -/
  busy : Bool
  /-- STATUS.DONE (R29), also the pending state of the interrupt (R193) -/
  done : Bool
  /-- STATUS.RESULT (R30) -/
  result : ResultCode
  /-- STATUS.CHK_OK (R31) -/
  chkOk : Bool
  /-- IN_OFF.OFFSET (R32) -/
  inOff : Half
  /-- IN_LEN.LENGTH (R33) -/
  inLen : Half
  /-- ARG.CMD_ID (R34) -/
  arg : Byte
  /-- the output registers (R35 to R43) -/
  out : Outputs
  /-- the latch OP_L (R45) -/
  opL : BitVec 4
  /-- the latch IN_OFF_L (R45) -/
  inOffL : Half
  /-- the latch IN_LEN_L (R45) -/
  inLenL : Half
  /-- the latch ARG_L (R45) -/
  argL : Byte
  /-- the EXTRACT scan cursor (R49): 0 at the start of each EXTRACT, then its last value -/
  scanCursor : Half
  /-- IBUF, OBUF and FDESC, with which of their bytes are written (R46 to R48, R50) -/
  mem : Memory
  /-- the MODEL's own: what happens next, in order (log entry 1) -/
  agenda : List Event
  /-- the MODEL's own: the data the host's last bus read returned (log entry 4) -/
  readData : Word
  /-- the MODEL's own: how many free values have been drawn (log entry 3) -/
  draws : Nat
  deriving DecidableEq, Repr

/-- The machine right after reset (R52, R212): idle, every register 0, every buffer byte unwritten. The
latches and the scan cursor, which R52 leaves unspecified, are 0 (log entry 5); the agenda is empty
(log entry 1). -/
def State.reset : State where
  irqEn := false
  op := 0
  busy := false
  done := false
  result := .none
  chkOk := false
  inOff := 0
  inLen := 0
  arg := 0
  out := zeroOutputs
  opL := 0
  inOffL := 0
  inLenL := 0
  argL := 0
  scanCursor := 0
  mem := []
  agenda := []
  readData := 0
  draws := 0

/-- Everything a completion step writes beside BUSY and DONE: R96, R97, R72. -/
structure Effects where
  /-- RESULT (R181) -/
  code : ResultCode
  /-- the output registers, 0 where the operation writes nothing (R97) -/
  out : Outputs
  /-- STATUS.CHK_OK (R31) -/
  chkOk : Bool
  /-- the bytes written to OBUF, from index 0 (R47) -/
  obuf : List Byte
  /-- the descriptors written to FDESC, from entry 0 (R48) -/
  fdesc : List Word
  /-- the scan cursor's last value, where the operation is EXTRACT (R49) -/
  cursor : Option Half
  deriving DecidableEq, Repr

/-- The type of every step and of every meaning. -/
abbrev Result := Host.Outcome State Fault Refusal

end Sys2Proof.Machine
end

