-- ==== Sys2Proof/Machine/Flags.lean ====
section
/-! DEFINITION. The status flags (10_state.md section 6): STATUS and CTRL as words, the result codes and
the completion interrupt line (60_exceptions.md R181, R192). -/

namespace Sys2Proof.Machine

/-- The code of a result in STATUS bits 7:4 (R181). -/
def resultBits : ResultCode → BitVec 4
  | .none => 0
  | .ok => 1
  | .notFound => 2
  | .incomplete => 3
  | .encodingError => 4
  | .malformed => 5
  | .badOp => 6
  | .badRange => 7

/-- STATUS: bit 0 BUSY, bit 1 DONE, bits 7:4 RESULT, bit 8 CHK_OK, every other bit 0 (R27, R44). -/
def statusWord (s : State) : Word :=
  0#23 ++ BitVec.ofBool s.chkOk ++ resultBits s.result ++ 0#2 ++ BitVec.ofBool s.done ++ BitVec.ofBool s.busy

/-- CTRL as it reads: START 0, bit 1 IRQ_EN, bits 7:4 OP, every other bit 0 (R23, R24, R44). -/
def ctrlWord (s : State) : Word :=
  0#24 ++ s.op ++ 0#2 ++ BitVec.ofBool s.irqEn ++ 0#1

/-- The completion interrupt line, level-sensitive and active high: `DONE & IRQ_EN` (R192). -/
def irq (s : State) : Bool := s.done && s.irqEn

end Sys2Proof.Machine
end

