-- ==== Sys2Proof/Machine/Memory.lean ====
section
/-! DEFINITION. The named operations over the buffers: one byte read, one byte written, and runs of
bytes, by offset from `BLOCK_BASE` (20_memory.md R61). A byte not listed is unwritten (10_state.md R50). -/

namespace Sys2Proof.Machine

/-- The offset of IBUF[i] (R61). -/
def ibufAddr (i : Nat) : Nat := 0x10000 + i

/-- The offset of OBUF[i] (R61). -/
def obufAddr (i : Nat) : Nat := 0x20000 + i

/-- The offset of FDESC[k], the lowest of its four bytes (R61). -/
def fdescAddr (k : Nat) : Nat := 0x40000 + 4 * k

/-- The byte at an offset: `none` while it is unwritten (R50). -/
def readByte : Memory → Nat → Option Byte
  | [], _ => none
  | (a', b') :: m, a => if a = a' then some b' else readByte m a

/-- The memory after writing one byte, in canonical form again. -/
def writeByte : Memory → Nat → Byte → Memory
  | [], a, b => [(a, b)]
  | (a', b') :: m, a, b =>
    if a < a' then (a, b) :: (a', b') :: m
    else if a = a' then (a, b) :: m
    else (a', b') :: writeByte m a b

/-- `n` bytes from an offset on: `none` as soon as one of them is unwritten (R218). -/
def readBytes (m : Memory) : Nat → Nat → Option (List Byte)
  | _, 0 => some []
  | a, n + 1 =>
    match readByte m a, readBytes m (a + 1) n with
    | some b, some bs => some (b :: bs)
    | _, _ => none

/-- The memory after writing bytes in index order from an offset on. -/
def writeBytes : Memory → Nat → List Byte → Memory
  | m, _, [] => m
  | m, a, b :: bs => writeBytes (writeByte m a b) (a + 1) bs

/-- The bytes of descriptors in table order, each word little-endian (R65, R67). -/
def descBytes : List Word → List Byte
  | [] => []
  | w :: ws => lanes 4 w ++ descBytes ws

/-- The memory after writing bytes to OBUF from index 0 on (R47). -/
def writeObuf (m : Memory) (bs : List Byte) : Memory := writeBytes m (obufAddr 0) bs

/-- The memory after writing descriptors to FDESC from entry 0 on (R48). -/
def writeFdesc (m : Memory) (ws : List Word) : Memory := writeBytes m (fdescAddr 0) (descBytes ws)

/-- FDESC[k], where all four of its bytes are written (R48). -/
def readDesc (m : Memory) (k : Nat) : Option Word := (readBytes m (fdescAddr k) 4).map ofLanes

end Sys2Proof.Machine
end

