-- ==== Sys2Proof/Machine/Operands.lean ====
section
/-! DEFINITION. What an operation and a host access operate on: the input sequence `In` and its range
check (10_state.md R45, 60_exceptions.md R188), the value each register reads as (10_state.md R22 to
R44), and which location a bus access reaches (20_memory.md R61 to R66, R70). -/

namespace Sys2Proof.Machine

/-- Whether IBUF has at least `n` bytes, that is `n <= IBUF_BYTES`: true at once for `n <= 261` (R8). -/
def ibufHolds (n : Nat) : Bool := decide (n - 261 ≤ Config.ibufSpare.val)

/-- Whether FDESC has an entry `k`: `k < floor(IBUF_BYTES / 3)`, that is `3k + 3 <= IBUF_BYTES` (R8). -/
def fdescHolds (k : Nat) : Bool := ibufHolds (3 * k + 3)

/-- The range check of R188: `offset + length <= IBUF_BYTES`, on unbounded naturals (R10). -/
def rangeFits (offset length : Half) : Bool := ibufHolds (offset.toNat + length.toNat)

/-- The bytes IBUF[offset .. offset+length-1], where all of them are written (R45, R50). -/
def inputBytes (m : Memory) (offset length : Half) : Option (List Byte) :=
  readBytes m (ibufAddr offset.toNat) length.toNat

/-- Whether a start with these operands is no hazard of R218: an operation with a reserved OP or with a
range that fails its check has no `In`; any other needs every byte of `In` written. -/
def inputReady (m : Memory) (op : BitVec 4) (offset length : Half) : Bool :=
  decide (5 ≤ op.toNat) || !rangeFits offset length || (inputBytes m offset length).isSome

/-- The value a register reads as while it is defined (R22 to R44). -/
def regValue (s : State) : Reg → Word
  | .ctrl => ctrlWord s
  | .status => statusWord s
  | .inOff => s.inOff.setWidth 32
  | .inLen => s.inLen.setWidth 32
  | .arg => s.arg.setWidth 32
  | .outLen => s.out.outLen.setWidth 32
  | .chkResult => s.out.chkResult.setWidth 32
  | .rspHdr => s.out.rspHdr.setWidth 32
  | .rspChk => s.out.rspChk.setWidth 32
  | .rspOffset => s.out.rspOffset.setWidth 32
  | .frameCount => s.out.frameCount.setWidth 32
  | .extCursor => s.out.extCursor.setWidth 32
  | .telemDigital => s.out.telemDigital.setWidth 32
  | .an i => (channelOf s.out.an i).setWidth 32

/-- The outputs of R217 among the registers: reading one while BUSY = 1 gives a free value. -/
def isOutputReg : Reg → Bool
  | .ctrl => false
  | .status => false
  | .inOff => false
  | .inLen => false
  | .arg => false
  | .outLen => true
  | .chkResult => true
  | .rspHdr => true
  | .rspChk => true
  | .rspOffset => true
  | .frameCount => true
  | .extCursor => true
  | .telemDigital => true
  | .an _ => true

/-- The bits of a register that are not reserved; a reserved bit reads 0 (R23 to R44, I10). -/
def regMask : Reg → Word
  | .ctrl => 0x000000F3
  | .status => 0x000001F3
  | .inOff => 0x0000FFFF
  | .inLen => 0x0000FFFF
  | .arg => 0x000000FF
  | .outLen => 0x0000FFFF
  | .chkResult => 0x000000FF
  | .rspHdr => 0x00FFFFFF
  | .rspChk => 0x0000FFFF
  | .rspOffset => 0x0000FFFF
  | .frameCount => 0x0000FFFF
  | .extCursor => 0x0000FFFF
  | .telemDigital => 0x000000FF
  | .an _ => 0x0000FFFF

/-- The bits that an access of `size` bytes moves (R67). -/
def laneMask (size : Nat) : Word :=
  if size = 1 then 0x000000FF else if size = 2 then 0x0000FFFF else 0xFFFFFFFF

/-- What a host access reaches. -/
inductive Location where
  | reg (r : Reg)
  | ibuf (i : Nat)
  | obuf (i : Nat)
  | fdesc (k : Nat)
  deriving DecidableEq, Repr

/-- An access width that IBUF and OBUF accept: 1, 2 or 4 bytes (R63, R64). -/
def bufferWidth (size : Nat) : Bool := size == 1 || size == 2 || size == 4

/-- Where an access of `size` bytes at an offset goes; `none` is a bus error: an unmapped offset, a width
or alignment its region does not accept, or bytes past the mapped part (R61 to R66, R70). -/
def locate (offset size : Nat) : Option Location :=
  if offset < 0x100 then
    if size = 4 then (regAt offset).map .reg else none
  else if 0x10000 ≤ offset ∧ offset < 0x20000 then
    let i := offset - 0x10000
    if bufferWidth size && decide (i % size = 0) && ibufHolds (i + size) then some (.ibuf i) else none
  else if 0x20000 ≤ offset ∧ offset < 0x30000 then
    let i := offset - 0x20000
    if bufferWidth size && decide (i % size = 0) && decide (i + size ≤ Config.obufBytes) then
      some (.obuf i)
    else none
  else if 0x40000 ≤ offset ∧ offset < 0x60000 then
    let k := (offset - 0x40000) / 4
    if decide (size = 4) && decide ((offset - 0x40000) % 4 = 0) && fdescHolds k then
      some (.fdesc k)
    else none
  else none

end Sys2Proof.Machine
end

