-- ==== Sys2Proof/Machine/Ops.lean ====
section
/-! DEFINITION. The shared operations on the state: its named updates, the start step (30_encoding.md
R95), the one way an operation ends (`clear_outputs()` and `finish(code)`, R96, R97: errors are results,
never traps, R180), and reset (70_reset_and_hazards.md R210). -/

namespace Sys2Proof.Machine

/-- One action after another: the second runs only where the first answers a next state. -/
def andThen (r : Result) (f : State → Result) : Result :=
  match r with
  | .next s => f s
  | .fault r => .fault r
  | .refused r => .refused r

/-- The agenda after its first event has been taken. -/
def State.popped (s : State) (rest : List Event) : State := { s with agenda := rest }

/-- CTRL.IRQ_EN and CTRL.OP written (R24, R25, R26). -/
def State.withControl (s : State) (op : BitVec 4) (irqEn : Bool) : State := { s with op := op, irqEn := irqEn }

/-- DONE cleared by a host write (R29). RESULT and CHK_OK stay. -/
def State.acknowledged (s : State) : State := { s with done := false }

/-- IN_OFF written (R32). -/
def State.withInOff (s : State) (v : Half) : State := { s with inOff := v }

/-- IN_LEN written (R33). -/
def State.withInLen (s : State) (v : Half) : State := { s with inLen := v }

/-- ARG written (R34). -/
def State.withArg (s : State) (v : Byte) : State := { s with arg := v }

/-- The buffers replaced. -/
def State.withMem (s : State) (m : Memory) : State := { s with mem := m }

/-- What a host read returned. -/
def State.withReadData (s : State) (v : Word) : State := { s with readData := v }

/-- A host read that returned a free value: the next one is a fresh draw (R217, I10). -/
def State.drew (s : State) (v : Word) : State := { s with readData := v, draws := s.draws + 1 }

/-- The start step's writes: CTRL, the latches, DONE and BUSY; RESULT, CHK_OK and every output keep their
values (R45, R95). -/
def State.started (s : State) (op : BitVec 4) (irqEn : Bool) : State :=
  { s with
    irqEn := irqEn
    op := op
    opL := op
    inOffL := s.inOff
    inLenL := s.inLen
    argL := s.arg
    done := false
    busy := true }

/-- The start step, run by a CTRL write with START = 1 (R24, R95). It is refused while an operation is in
progress (R216) and where the operation's input holds an unwritten byte (R218). -/
def startStep (op : BitVec 4) (irqEn : Bool) (s : State) : Result :=
  if s.busy then .refused .startWhileBusy
  else if inputReady s.mem op s.inOff s.inLen then .next (s.started op irqEn)
  else .refused .unwrittenInput

/-- `clear_outputs()` then `finish(code)` with nothing written between: how every error ends, the block's
form of raising one (R11, R96, R97, R180). -/
def noEffects (code : ResultCode) : Effects where
  code := code
  out := zeroOutputs
  chkOk := false
  obuf := []
  fdesc := []
  cursor := none

/-- A completion step's writes, all at once (R72, R96, R97): the outputs, the buffers' written parts, then
`finish(code)`: RESULT, BUSY 0, DONE 1. -/
def State.completed (s : State) (e : Effects) : State :=
  { s with
    out := e.out
    chkOk := e.chkOk
    mem := writeFdesc (writeObuf s.mem e.obuf) e.fdesc
    scanCursor := e.cursor.getD s.scanCursor
    result := e.code
    busy := false
    done := true }

/-- Reset, at any time (R210, R211): every register and latch to its reset value, every buffer byte
unwritten. The host's agenda, what it last read and the draws are not the block's and stay. -/
def State.afterReset (s : State) : State :=
  { State.reset with agenda := s.agenda, readData := s.readData, draws := s.draws }

end Sys2Proof.Machine
end

