-- ==== Sys2Proof/Machine/Checksum.lean ====
section
/-! DEFINITION. CHECKSUM (40_checksum.md): what its CTRL write does and what its completion computes. -/

namespace Sys2Proof.Machine

/-- CHECKSUM's pseudocode (R112): `CHK_RESULT <- checksum(In); finish(OK)`. -/
def checksumEffects (input : List Byte) : Effects :=
  { noEffects .ok with out := { zeroOutputs with chkResult := checksum input } }

/-- The CTRL write that starts CHECKSUM, OP 0 (R93, R95, R112). -/
def execChecksum (irqEn : Bool) (s : State) : Result := startStep 0 irqEn s

end Sys2Proof.Machine
end

