-- ==== Sys2Proof/Machine/CommandCodec.lean ====
section
/-! DEFINITION. ENCODE_CMD and DECODE_RSP (41_command_codec.md): what their CTRL writes do and what their
completions compute. -/

namespace Sys2Proof.Machine

/-- ENCODE_CMD's pseudocode (R120): a payload over 255 bytes is an ENCODING_ERROR with no output (R121);
any other is framed into OBUF, with the frame's length in OUT_LEN and its checksum in CHK_RESULT. -/
def encodeCmdEffects (cmd : Byte) (payload : List Byte) : Effects :=
  if 255 < payload.length then noEffects .encodingError
  else
    { noEffects .ok with
      out := { zeroOutputs with
        outLen := BitVec.ofNat 16 (5 + payload.length)
        chkResult := commandChecksum cmd payload }
      obuf := commandFrame cmd payload }

/-- The CTRL write that starts ENCODE_CMD, OP 1 (R93, R95, R120). -/
def execEncodeCmd (irqEn : Bool) (s : State) : Result := startStep 1 irqEn s

/-- INCOMPLETE with the marker at index `i`: only RSP_OFFSET is reported (R126, R127). -/
def incompleteAt (i : Nat) : Effects :=
  { noEffects .incomplete with out := { zeroOutputs with rspOffset := BitVec.ofNat 16 i } }

/-- A whole response frame whose marker is at index `i` of the input (R123, R128): a checksum mismatch is
the flag CHK_OK = 0, not an error (R130). -/
def responseAt (input : List Byte) (i : Nat) : Effects :=
  let status := byteAt input (i + 2)
  let cmd := byteAt input (i + 3)
  let len := byteAt input (i + 4)
  let payload := slice input (i + 5) (i + 4 + len.toNat)
  let received := byteAt input (i + 5 + len.toNat)
  let computed := checksum ([status, cmd, len] ++ payload)
  { noEffects .ok with
    out := { zeroOutputs with
      outLen := len.setWidth 16
      rspHdr := len ++ cmd ++ status
      rspChk := computed ++ received
      rspOffset := BitVec.ofNat 16 i }
    chkOk := computed == received
    obuf := payload }

/-- DECODE_RSP's pseudocode (R123 to R130): the first marker only; no marker, a short header, a short
body, a whole frame, in this order. -/
def decodeRspEffects (input : List Byte) : Effects :=
  match find2 input 0 0x55 0xAB with
  | none => noEffects .notFound
  | some i =>
    if input.length - i < 5 then incompleteAt i
    else if input.length - i < 5 + (byteAt input (i + 4)).toNat + 1 then incompleteAt i
    else responseAt input i

/-- The CTRL write that starts DECODE_RSP, OP 2 (R93, R95, R123). -/
def execDecodeRsp (irqEn : Bool) (s : State) : Result := startStep 2 irqEn s

end Sys2Proof.Machine
end

