-- ==== Sys2Proof/Machine/Stream.lean ====
section
/-! DEFINITION. EXTRACT and DECODE_FRAME (42_stream.md): what their CTRL writes do and what their
completions compute. Sentinel collisions are reproduced, not repaired (R158). -/

namespace Sys2Proof.Machine

/-- EXTRACT's loop from a scan cursor on (R150 to R154): the candidates found, each an inclusive range, and
the cursor where it stopped, at the first failed search. Each candidate moves the cursor on by 3 or more,
so a fuel of `|In|` never runs out. -/
def scanFrames : Nat → List Byte → Nat → List (Nat × Nat) × Nat
  | 0, _, cursor => ([], cursor)
  | fuel + 1, input, cursor =>
    match find2 input cursor 0x7A 0x7B with
    | none => ([], cursor)
    | some start =>
      match find1 input (start + 2) 0x7C with
      | none => ([], cursor)
      | some stop =>
        let rest := scanFrames fuel input (stop + 1)
        ((start, stop) :: rest.1, rest.2)

/-- The candidates of an input and the final scan cursor: one whole EXTRACT, from cursor 0 (R150). -/
def candidates (input : List Byte) : List (Nat × Nat) × Nat := scanFrames input.length input 0

/-- A frame descriptor: START in bits 15:0, END in bits 31:16 (R48, R153). -/
def descWord (range : Nat × Nat) : Word := BitVec.ofNat 16 range.2 ++ BitVec.ofNat 16 range.1

/-- EXTRACT's pseudocode (R150): always OK; FDESC, FRAME_COUNT and EXT_CURSOR. -/
def extractEffects (input : List Byte) : Effects :=
  let found := candidates input
  { noEffects .ok with
    out := { zeroOutputs with
      frameCount := BitVec.ofNat 16 found.1.length
      extCursor := BitVec.ofNat 16 found.2 }
    fdesc := found.1.map descWord
    cursor := some (BitVec.ofNat 16 found.2) }

/-- The CTRL write that starts EXTRACT, OP 3 (R93, R95, R150). -/
def execExtract (irqEn : Bool) (s : State) : Result := startStep 3 irqEn s

/-- DECODE_FRAME's pseudocode (R160 to R164): the four tests, one code for them all, and no partial
result; then the digital byte and the eight little-endian samples. -/
def decodeFrameEffects (f : List Byte) : Effects :=
  if f.length ≠ 20 ∨ byteAt f 0 ≠ 0x7A ∨ byteAt f 1 ≠ 0x7B ∨ byteAt f 19 ≠ 0x7C then
    noEffects .malformed
  else
    { noEffects .ok with
      out := { zeroOutputs with
        telemDigital := byteAt f 2
        an := samplesOf f } }

/-- The CTRL write that starts DECODE_FRAME, OP 4 (R93, R95, R160). -/
def execDecodeFrame (irqEn : Bool) (s : State) : Result := startStep 4 irqEn s

end Sys2Proof.Machine
end

