-- ==== Sys2Proof/Machine/Completion.lean ====
section
/-! DEFINITION. The completion step, the block's only step (30_encoding.md R96), and the block's turn. -/

namespace Sys2Proof.Machine

/-- `case OP_L of` of R96, for the defined operations 0 to 4. -/
def operate (op : BitVec 4) (arg : Byte) (input : List Byte) : Effects :=
  match op.toNat with
  | 0 => checksumEffects input
  | 1 => encodeCmdEffects arg input
  | 2 => decodeRspEffects input
  | 3 => extractEffects input
  | _ => decodeFrameEffects input

/-- The completion step (R96): BAD_OP first, then BAD_RANGE, then the operation over `In` (R190). The
latches alone say what it does (R45). Its refusal needs an input with an unwritten byte, which the start
step has already refused (R218). -/
def completion (s : State) : Result :=
  if 5 ≤ s.opL.toNat then .next (s.completed (noEffects .badOp))
  else if rangeFits s.inOffL s.inLenL = false then .next (s.completed (noEffects .badRange))
  else
    match inputBytes s.mem s.inOffL s.inLenL with
    | none => .refused .unwrittenInput
    | some input => .next (s.completed (operate s.opL s.argL input))

/-- The block's turn: the completion step where BUSY = 1 enables it, nothing otherwise (R96, R200). -/
def blockTurn (s : State) : Result := if s.busy then completion s else .next s

end Sys2Proof.Machine
end

