-- ==== Sys2Proof/Machine/Bus.lean ====
section
/-! DEFINITION. The host's agent: bus reads and writes (20_memory.md), byte stores into IBUF and the
polling wait of 30_encoding.md R99, and what each event of the agenda does. -/

namespace Sys2Proof.Machine

/-- A read of written buffer bytes, lowest index in lanes 7:0 (R67, R69); an unwritten byte is refused (R218). -/
def readBuffer (a size : Nat) (s : State) : Result :=
  match readBytes s.mem a size with
  | none => .refused .unwrittenRead
  | some bs => .next (s.withReadData (ofLanes bs))

/-- A host read (R62 to R66, R71). While BUSY = 1 an output reads as a fresh free value with its reserved
bits 0; CTRL, STATUS, IN_OFF, IN_LEN, ARG and IBUF read as they are (R217, I10). -/
def busRead (offset size : Nat) (s : State) : Result :=
  match locate offset size with
  | none => .refused .busError
  | some (.reg r) =>
    if s.busy && isOutputReg r then .next (s.drew (Config.freeRead s.draws &&& regMask r))
    else .next (s.withReadData (regValue s r))
  | some (.ibuf i) => readBuffer (ibufAddr i) size s
  | some (.obuf i) =>
    if s.busy then .next (s.drew (Config.freeRead s.draws &&& laneMask size))
    else readBuffer (obufAddr i) size s
  | some (.fdesc k) =>
    if s.busy then .next (s.drew (Config.freeRead s.draws &&& laneMask size))
    else readBuffer (fdescAddr k) size s

/-- A host write of a register (R24 to R34, R44): a write to a read-only register is ignored. -/
def writeReg (r : Reg) (v : Word) (s : State) : Result :=
  match r with
  | .ctrl =>
    if v.getLsbD 0 then startStep (v.extractLsb' 4 4) (v.getLsbD 1) s
    else .next (s.withControl (v.extractLsb' 4 4) (v.getLsbD 1))
  | .status => if v.getLsbD 1 then .next s.acknowledged else .next s
  | .inOff => .next (s.withInOff (v.setWidth 16))
  | .inLen => .next (s.withInLen (v.setWidth 16))
  | .arg => .next (s.withArg (v.setWidth 8))
  | .outLen => .next s
  | .chkResult => .next s
  | .rspHdr => .next s
  | .rspChk => .next s
  | .rspOffset => .next s
  | .frameCount => .next s
  | .extCursor => .next s
  | .telemDigital => .next s
  | .an _ => .next s

/-- A host write (R62 to R67, R71): OBUF and FDESC ignore writes; IBUF takes its bytes at once, but not
while an operation is in progress (R215). -/
def busWrite (offset size : Nat) (data : Word) (s : State) : Result :=
  match locate offset size with
  | none => .refused .busError
  | some (.reg r) => writeReg r data s
  | some (.ibuf i) =>
    if s.busy then .refused .ibufWriteWhileBusy
    else .next (s.withMem (writeBytes s.mem (ibufAddr i) (lanes size data)))
  | some (.obuf _) => .next s
  | some (.fdesc _) => .next s

/-- `wb IBUF[i], b` (R98): a one-byte write, a bus error where IBUF has no byte `i` (R63, R66). -/
def storeByte (i : Nat) (b : Byte) (s : State) : Result :=
  if ibufHolds (i + 1) then busWrite (ibufAddr i) 1 (b.setWidth 32) s else .refused .busError

/-- The one-byte writes of `bytes IBUF[i], b0 b1 … bn-1` (R99) in index order, which is stream order (R68). -/
def storeBytes : Nat → List Byte → State → Result
  | _, [], s => .next s
  | i, b :: bs, s => andThen (storeByte i b s) (storeBytes (i + 1) bs)

/-- `wait` (R99): the host reads STATUS until DONE is 1. With DONE = 1 the read ends the wait. With DONE = 0
the wait stands, and the block, if an operation is in progress, takes its completion step: it is
eventually taken (R219). With DONE = 0 and BUSY = 0 the host polls on and nothing changes (log entry 7). -/
def hostWait (rest : List Event) (s : State) : Result :=
  if s.done then .next ((s.popped rest).withReadData (statusWord s))
  else if s.busy then completion s
  else .next s

/-- What an event of the agenda does that is no instruction of the table; `rest` is the agenda after it. -/
def perform (e : Event) (rest : List Event) (s : State) : Result :=
  match e with
  | .access (.read offset size) => busRead offset size (s.popped rest)
  | .access (.write offset size data) => busWrite offset size data (s.popped rest)
  | .bytes i bs => storeBytes i bs (s.popped rest)
  | .wait => hostWait rest s
  | .blockTurn => blockTurn (s.popped rest)
  | .reset => .next (s.popped rest).afterReset

end Sys2Proof.Machine
end

