-- ==== Sys2Proof/Machine/Frames.lean ====
section
/-! DEFINITION. The wire formats as they reach the block (30_encoding.md R81, R82, R86): a frame is bytes
that the host stores into IBUF, in stream order (00_scope.md R7, 20_memory.md R68). Storing one starts
nothing: the block works on it only when a START names its range (10_state.md R21; log entry 8). -/

namespace Sys2Proof.Machine

/-- A command frame's bytes stored from IBUF[i] on, as when an echo of the host's own request is received
(R81, R92). The frame that ENCODE_CMD builds is the same bytes in OBUF (R120). -/
def execCmdFrame (i : Nat) (cmd : Byte) (payload : List Byte) (s : State) : Result :=
  storeBytes i (commandFrame cmd payload) s

/-- A received response frame's bytes stored from IBUF[i] on, input for DECODE_RSP (R46, R82). -/
def execRspFrame (i : Nat) (status cmd : Byte) (payload : List Byte) (chk : Byte) (s : State) : Result :=
  storeBytes i (responseFrame status cmd payload chk) s

/-- A received streaming frame's bytes stored from IBUF[i] on, input for EXTRACT and DECODE_FRAME (R46, R86). -/
def execStreamFrame (i : Nat) (digital : Byte) (an : Channels) (s : State) : Result :=
  storeBytes i (streamFrame digital an) s

end Sys2Proof.Machine
end

