-- ==== Sys2Proof/Machine/Reserved.lean ====
section
/-! DEFINITION. The reserved operations, OP 5 to 15 (30_encoding.md R94): a start with one is accepted,
sets BUSY, and its completion step ends with BAD_OP. -/

namespace Sys2Proof.Machine

/-- A CTRL write with START = 1 and OP 5 (R94). -/
def execReservedOp5 (irqEn : Bool) (s : State) : Result := startStep 5 irqEn s

/-- A CTRL write with START = 1 and OP 6 or 7 (R94). -/
def execReservedOp6_7 (lowOp : BitVec 1) (irqEn : Bool) (s : State) : Result :=
  startStep (3#3 ++ lowOp) irqEn s

/-- A CTRL write with START = 1 and OP 8 to 15 (R94). -/
def execReservedOp8_15 (lowOp : BitVec 3) (irqEn : Bool) (s : State) : Result :=
  startStep (1#1 ++ lowOp) irqEn s

end Sys2Proof.Machine
end

