-- ==== Sys2Proof/Machine/Status.lean ====
section
/-! DEFINITION. ACK_DONE, the DONE acknowledge (10_state.md R29). -/

namespace Sys2Proof.Machine

/-- A STATUS write with bit 1 = 1 clears DONE and nothing else (R27, R29, R44). -/
def execAckDone (s : State) : Result := .next s.acknowledged

end Sys2Proof.Machine
end

