-- ==== Sys2Proof/Machine/Dispatch.lean ====
section
/-! DEFINITION. One arm per row of spec/opcode_table.json. -/

namespace Sys2Proof.Machine

/-- The meaning of an instruction. -/
def exec (i : Instr) (s : State) : Host.Outcome State Fault Refusal :=
  match i with
  | .checksum irqEn => Sys2Proof.Machine.execChecksum irqEn s
  | .encodeCmd irqEn => Sys2Proof.Machine.execEncodeCmd irqEn s
  | .decodeRsp irqEn => Sys2Proof.Machine.execDecodeRsp irqEn s
  | .extract irqEn => Sys2Proof.Machine.execExtract irqEn s
  | .decodeFrame irqEn => Sys2Proof.Machine.execDecodeFrame irqEn s
  | .reservedOp5 irqEn => Sys2Proof.Machine.execReservedOp5 irqEn s
  | .reservedOp6_7 lowOp irqEn => Sys2Proof.Machine.execReservedOp6_7 lowOp irqEn s
  | .reservedOp8_15 lowOp irqEn => Sys2Proof.Machine.execReservedOp8_15 lowOp irqEn s
  | .ackDone => Sys2Proof.Machine.execAckDone s
  | .cmdFrame index cmd payload => Sys2Proof.Machine.execCmdFrame index cmd payload s
  | .rspFrame index status cmd payload chk => Sys2Proof.Machine.execRspFrame index status cmd payload chk s
  | .streamFrame index digital an => Sys2Proof.Machine.execStreamFrame index digital an s

end Sys2Proof.Machine
end

