-- ==== Sys2Proof/Machine/Step.lean ====
section
/-! DEFINITION. One step of the machine: the first event of the agenda; with an empty agenda, the block's
turn, so that an operation in progress is completed (70_reset_and_hazards.md R219: weak fairness). -/

namespace Sys2Proof.Machine

/-- One step. The block fetches no instructions (R21): the next instruction is the agenda's first event,
where the decoder reads one in it. -/
def step (s : State) : Host.Outcome State Fault Refusal :=
  match s.agenda with
  | [] => blockTurn s
  | e :: rest =>
    match decode e with
    | .ok i => exec i (s.popped rest)
    | .error _ => perform e rest s

/-- `s` with a word of the opcode table as the agenda's first event (log entries 1 and 11). -/
def State.withFetchWord (s : State) (nbits w : Nat) : State :=
  { s with agenda := tableEvent nbits w :: s.agenda }

end Sys2Proof.Machine
end

