-- ==== Sys2Proof/Machine/Program.lean ====
section
/-! DEFINITION. The host's program syntax (30_encoding.md R98, R99) and its encoding as bus accesses
(R100): a program becomes the agenda of a state. -/

namespace Sys2Proof.Machine

/-- The five operations a `start` line can name (R93). -/
inductive OpName where
  | checksum
  | encodeCmd
  | decodeRsp
  | extract
  | decodeFrame
  deriving DecidableEq, Repr

/-- `OP(NAME)` (R93). -/
def opCode : OpName → BitVec 4
  | .checksum => 0
  | .encodeCmd => 1
  | .decodeRsp => 2
  | .extract => 3
  | .decodeFrame => 4

/-- One line of a host program: the syntax of R98, then the pseudo-instructions of R99. R99 gives the `off`, `len` and
`cmd` of `op` and `encode` no width: DESIGN CHOICE (log entry 21), they are the imm32 of the `wr` lines they expand to. -/
inductive Line where
  | wr (r : Reg) (v : Word)
  | rd (r : Reg)
  | wbIbuf (i : Nat) (v : Byte)
  | whIbuf (i : Nat) (v : Half)
  | wwIbuf (i : Nat) (v : Word)
  | rbIbuf (i : Nat)
  | rhIbuf (i : Nat)
  | rwIbuf (i : Nat)
  | rbObuf (i : Nat)
  | rhObuf (i : Nat)
  | rwObuf (i : Nat)
  | rwFdesc (k : Nat)
  | bytes (i : Nat) (bs : List Byte)
  | start (name : OpName)
  | starti (name : OpName)
  | wait
  | op (name : OpName) (off len : Word)
  | encode (cmd off len : Word)
  | ack
  deriving DecidableEq, Repr

/-- `wr REG, imm32` as a bus access (R98). -/
def writeRegEvent (r : Reg) (v : Word) : Event := .access (.write (regOffset r) 4 v)

/-- `op NAME, off, len` as events (R99; the operands' width is log entry 21). -/
def opEvents (name : OpName) (off len : Word) : List Event :=
  [writeRegEvent .inOff off, writeRegEvent .inLen len, startEvent (opCode name) false, .wait]

/-- `bytes IBUF[i], b0 b1 … bn-1` (R99, R100): n one-byte writes, one after another in index order. -/
def byteWrites : Nat → List Byte → List Access
  | _, [] => []
  | i, b :: bs => .write (ibufAddr i) 1 (b.setWidth 32) :: byteWrites (i + 1) bs

/-- The events a line stands for, in order (R98, R99). -/
def lineEvents : Line → List Event
  | .wr r v => [writeRegEvent r v]
  | .rd r => [.access (.read (regOffset r) 4)]
  | .wbIbuf i v => [.access (.write (ibufAddr i) 1 (v.setWidth 32))]
  | .whIbuf i v => [.access (.write (ibufAddr i) 2 (v.setWidth 32))]
  | .wwIbuf i v => [.access (.write (ibufAddr i) 4 v)]
  | .rbIbuf i => [.access (.read (ibufAddr i) 1)]
  | .rhIbuf i => [.access (.read (ibufAddr i) 2)]
  | .rwIbuf i => [.access (.read (ibufAddr i) 4)]
  | .rbObuf i => [.access (.read (obufAddr i) 1)]
  | .rhObuf i => [.access (.read (obufAddr i) 2)]
  | .rwObuf i => [.access (.read (obufAddr i) 4)]
  | .rwFdesc k => [.access (.read (fdescAddr k) 4)]
  | .bytes i bs => (byteWrites i bs).map .access
  | .start name => [startEvent (opCode name) false]
  | .starti name => [startEvent (opCode name) true]
  | .wait => [.wait]
  | .op name off len => opEvents name off len
  | .encode cmd off len => writeRegEvent .arg cmd :: opEvents .encodeCmd off len
  | .ack => [encode .ackDone]

/-- A host program as an agenda: its bus accesses one by one (R100), with each `wait` one event (log entry 7). -/
def programEvents : List Line → List Event
  | [] => []
  | l :: ls => lineEvents l ++ programEvents ls

/-- The bus accesses of a list of events (R100). A `wait` is one or more reads of STATUS, in a number that R100 leaves to
LATENCY: `reads` says of each `wait`, in order, how many reads it makes before its last, 0 where `reads` has ended. So
every encoding that R100 allows is this list for some `reads`. The block's turn and reset are no bus accesses. -/
def eventAccesses : List Event → List Nat → List Access
  | [], _ => []
  | .access a :: es, reads => a :: eventAccesses es reads
  | .bytes i bs :: es, reads => byteWrites i bs ++ eventAccesses es reads
  | .wait :: es, reads =>
    List.replicate (reads.headD 0 + 1) (.read (regOffset .status) 4) ++ eventAccesses es reads.tail
  | .blockTurn :: es, reads => eventAccesses es reads
  | .reset :: es, reads => eventAccesses es reads

/-- A program's encoding: the ordered list of its bus accesses (R100). -/
def programAccesses (p : List Line) (reads : List Nat) : List Access := eventAccesses (programEvents p) reads

/-- A state whose host is about to run a program, before whatever its agenda already holds. -/
def State.withProgram (s : State) (p : List Line) : State :=
  { s with agenda := programEvents p ++ s.agenda }

end Sys2Proof.Machine
end

