-- ==== Sys2Proof/Safety.lean ====
section
/-! DEFINITION. The terms that statements about the machine use: what a host access and an operation's
input are, declaratively; the scan of EXTRACT as a relation; and the invariant that every state reached
from reset meets. Each clause cites the rules that make it true. -/

namespace Sys2Proof.Machine

/-- The offsets of buffer bytes that exist: the mapped parts of IBUF, OBUF and FDESC (R61). -/
def bufferOffset (a : Nat) : Prop :=
  (0x10000 ≤ a ∧ a < 0x10000 + Config.ibufBytes) ∨
  (0x20000 ≤ a ∧ a < 0x20000 + Config.obufBytes) ∨
  (0x40000 ≤ a ∧ a < 0x40000 + 4 * Config.fdescEntries)

/-- The input sequence of R45: `input` is IBUF[off .. off+len-1], in range and written. -/
def inputIs (m : Memory) (off len : Half) (input : List Byte) : Prop :=
  input.length = len.toNat ∧ off.toNat + len.toNat ≤ Config.ibufBytes ∧
  ∀ j, j < input.length → readByte m (ibufAddr (off.toNat + j)) = input[j]?

/-- A range that fails the check of R188. -/
def rangeBad (off len : Half) : Prop := Config.ibufBytes < off.toNat + len.toNat

/-- CTRL and the latches as the start step leaves them (R45, R95). -/
def latched (s : State) (op : BitVec 4) (irqEn : Bool) : State :=
  { s with irqEn := irqEn, op := op, opL := op, inOffL := s.inOff, inLenL := s.inLen, argL := s.arg }

/-- `b0` and `b1` are neighbours at index `j` (R12). -/
def pairAt (input : List Byte) (b0 b1 : Byte) (j : Nat) : Prop :=
  input[j]? = some b0 ∧ input[j + 1]? = some b1

/-- `j` is the least index from `start` on with the neighbours `b0 b1` (`find2` of R12). -/
def firstPair (input : List Byte) (start : Nat) (b0 b1 : Byte) (j : Nat) : Prop :=
  start ≤ j ∧ pairAt input b0 b1 j ∧ ∀ k, start ≤ k → k < j → ¬ pairAt input b0 b1 k

/-- `j` is the least index from `start` on with the byte `b` (`find1` of R12). -/
def firstByte (input : List Byte) (start : Nat) (b : Byte) (j : Nat) : Prop :=
  start ≤ j ∧ input[j]? = some b ∧ ∀ k, start ≤ k → k < j → input[k]? ≠ some b

/-- EXTRACT's scan from a cursor, as R151 to R154 say it: it stops where no start sentinel is left, or where
a start sentinel has no end sentinel; otherwise it emits the range and goes on after it. -/
inductive Scan (input : List Byte) : Nat → List (Nat × Nat) → Nat → Prop where
  /-- no further start sentinel (R154) -/
  | noStart (cursor : Nat) (h : ∀ j, cursor ≤ j → ¬ pairAt input 0x7A 0x7B j) : Scan input cursor [] cursor
  /-- a start sentinel without an end sentinel (R154) -/
  | noEnd (cursor start : Nat) (h : firstPair input cursor 0x7A 0x7B start)
      (he : ∀ j, start + 2 ≤ j → input[j]? ≠ some 0x7C) : Scan input cursor [] cursor
  /-- a candidate (R151, R152, R153) -/
  | emit (cursor start stop : Nat) (rest : List (Nat × Nat)) (final : Nat)
      (h : firstPair input cursor 0x7A 0x7B start) (he : firstByte input (start + 2) 0x7C stop)
      (hr : Scan input (stop + 1) rest final) : Scan input cursor ((start, stop) :: rest) final

/-- The host accesses that are no bus error: the map of R61 with the widths and alignments of R62 to R65. -/
def mappedAccess (offset size : Nat) : Prop :=
  (size = 4 ∧ ∃ r, offset = regOffset r) ∨
  (∃ i, offset = 0x10000 + i ∧ (size = 1 ∨ size = 2 ∨ size = 4) ∧ size ∣ i ∧ i + size ≤ Config.ibufBytes) ∨
  (∃ i, offset = 0x20000 + i ∧ (size = 1 ∨ size = 2 ∨ size = 4) ∧ size ∣ i ∧ i + size ≤ Config.obufBytes) ∨
  (∃ k, offset = 0x40000 + 4 * k ∧ size = 4 ∧ k < Config.fdescEntries)

/-- `n` steps in a row. -/
def steps : Nat → State → Result
  | 0, s => .next s
  | n + 1, s => andThen (step s) (steps n)

/-- The START field of a descriptor (R48). -/
def descStart (d : Word) : Nat := (d.extractLsb' 0 16).toNat

/-- The END field of a descriptor (R48). -/
def descEnd (d : Word) : Nat := (d.extractLsb' 16 16).toNat

/-- The invariant of the machine. -/
structure Inv (s : State) : Prop where
  /-- the buffers are in canonical form -/
  canonical : memoryWf s.mem = true
  /-- only bytes that exist are ever written (R61, R66) -/
  mapped : ∀ a, (readByte s.mem a).isSome = true → bufferOffset a
  /-- the handshake: BUSY and DONE are never both 1 (R28, R29, R95, R96) -/
  handshake : s.busy = true → s.done = false
  /-- while an operation is in progress its input is written (R215, R218) -/
  inputWritten : s.busy = true → inputReady s.mem s.opL s.inOffL s.inLenL = true
  /-- OUT_LEN never exceeds 260 (R35) -/
  outLenBound : s.out.outLen.toNat ≤ Config.obufBytes
  /-- the OBUF bytes that OUT_LEN covers are written (R47) -/
  obufWritten : ∀ i, i < s.out.outLen.toNat → (readByte s.mem (obufAddr i)).isSome = true
  /-- FRAME_COUNT never exceeds FDESC_ENTRIES (R157) -/
  frameCountBound : s.out.frameCount.toNat ≤ Config.fdescEntries
  /-- the FDESC entries that FRAME_COUNT covers are written (R40, R48) -/
  fdescWritten : ∀ k, k < s.out.frameCount.toNat → (readDesc s.mem k).isSome = true
  /-- CHK_OK is 1 only after a result OK (R31) -/
  chkOkMeansOk : s.chkOk = true → s.result = .ok
  /-- DONE is 1 only after a completion (R29, R30) -/
  doneMeansResult : s.done = true → s.result ≠ .none
  /-- a result other than OK leaves every output register 0, but for the marker's index after INCOMPLETE
  (R97, R180) -/
  errorOutputs : s.result ≠ .ok → s.out =
    { zeroOutputs with rspOffset := if s.result = .incomplete then s.out.rspOffset else 0 }

end Sys2Proof.Machine
end

