-- ==== Sys2Proof/Certificates/Slice0/Obligations.lean ====
section
/-! DEFINITION. The statements about the machine, for the provers. Each cites the rule of the spec it
formalises, or says which sections it rests on. -/

open Sys2Proof Sys2Proof.Machine

/-! ### Encodings -/

/-- 30_encoding.md: for every instruction of the table, with every operand at every value the encoding admits, the
decoder reads the instruction back from its encoding. No bit of an encoding is dropped. -/
def Obligations.DecodeAfterEncodeIsIdentity : Prop :=
  ∀ i : Instr, wellFormed i = true → decode (encode i) = .ok i

/-- What the decoder accepts is well-formed, and is the encoding of what it answers: byte sequences exactly, bus writes
up to the bits that R27, R44 and R93 say are ignored (CTRL bits 3:2 and 31:8, all of STATUS but bit 1). -/
def Obligations.DecodedEventIsItsEncoding : Prop :=
  ∀ (e : Event) (i : Instr), decode e = .ok i → wellFormed i = true ∧
    ((∃ k bs, e = .bytes k bs ∧ encode i = e) ∨
     (∃ w, e = .access (.write 0x00 4 w) ∧ encode i = .access (.write 0x00 4 (w &&& 0x000000F3))) ∨
     (∃ w, e = .access (.write 0x04 4 w) ∧ encode i = .access (.write 0x04 4 (w &&& 0x00000002))))

/-- R94: the five rows of R93 with the three reserved patterns cover every CTRL write with START = 1 exactly once, and
the decoder reads the instruction of that one row; a write with START = 0 matches no row and is no instruction. -/
def Obligations.EveryStartWriteMatchesOneRow : Prop :=
  ∀ w : Word,
    (w.getLsbD 0 = true → ∃ r i, ctrlRows.filter (rowMatches w) = [r] ∧
      decode (.access (.write 0x00 4 w)) = .ok i ∧ rowName i = r.mnemonic) ∧
    (w.getLsbD 0 = false → ctrlRows.filter (rowMatches w) = [] ∧
      decode (.access (.write 0x00 4 w)) = .error .startBitClear)

/-- Twelve words and frames written out from R29, R93, R94 and the reference frames of 95_test_vectors.md decode to their
instructions. The first nine go through `decodeTableWord`: that a table word whose bit 0 is 1 is a CTRL write and any
other of 32 bits a STATUS write is the model's choice (log entry 11), not R29's, R93's or R94's. -/
def Obligations.SpecWordsDecodeToTheirRows : Prop :=
  decodeTableWord 32 0x00000001 = some (.checksum false) ∧
  decodeTableWord 32 0x00000013 = some (.encodeCmd true) ∧
  decodeTableWord 32 0x00000021 = some (.decodeRsp false) ∧
  decodeTableWord 32 0x00000033 = some (.extract true) ∧
  decodeTableWord 32 0x00000041 = some (.decodeFrame false) ∧
  decodeTableWord 32 0x00000051 = some (.reservedOp5 false) ∧
  decodeTableWord 32 0x00000071 = some (.reservedOp6_7 1 false) ∧
  decodeTableWord 32 0x000000F1 = some (.reservedOp8_15 7 false) ∧
  decodeTableWord 32 0x00000002 = some .ackDone ∧
  decode (.bytes 0 [0x55, 0xAA, 0x01, 0x01, 0x0A, 0x0A]) = .ok (.cmdFrame 0 0x01 [0x0A]) ∧
  decode (.bytes 7 [0x55, 0xAB, 0x00, 0x07, 0x01, 0x5A, 0x5D]) = .ok (.rspFrame 7 0x00 0x07 [0x5A] 0x5D) ∧
  decode (.bytes 2 [0x7A, 0x7B, 0xA5, 0x00, 0x00, 0x01, 0x00, 0xFF, 0xFF, 0x34, 0x12, 0x00, 0x80, 0xFF, 0x00, 0x00,
      0xFF, 0xFF, 0x7F, 0x7C]) =
    .ok (.streamFrame 2 0xA5 ⟨0x0000, 0x0001, 0xFFFF, 0x1234, 0x8000, 0x00FF, 0xFF00, 0x7FFF⟩)

/-- R100: program lines encode as the bus accesses the spec prints for them (programs P1 to P4); a `bytes` line as its n
one-byte writes in index order; an `encode` line as the accesses of R99's expansion, with operands of 32 bits (the
model's choice, log entry 21). In an agenda a `wait` is one event (log entry 7); as bus accesses it is one or more reads
of STATUS. -/
def Obligations.ProgramLinesEncodeAsTheirAccesses : Prop :=
  programEvents [.start .extract] = [.access (.write 0x00000 4 0x00000031)] ∧
  programEvents [.starti .checksum] = [.access (.write 0x00000 4 0x00000003)] ∧
  programEvents [.ack] = [.access (.write 0x00004 4 0x00000002)] ∧
  programEvents [.rwObuf 0, .rhObuf 4, .rwFdesc 2] =
    [.access (.read 0x20000 4), .access (.read 0x20004 2), .access (.read 0x40008 4)] ∧
  programEvents [.wwIbuf 0 0xEFBEADDE, .encode 0x01 0 1] =
    [.access (.write 0x10000 4 0xEFBEADDE), .access (.write 0x00010 4 0x00000001),
     .access (.write 0x00008 4 0x00000000), .access (.write 0x0000C 4 0x00000001),
     .access (.write 0x00000 4 0x00000011), .wait] ∧
  programEvents [.bytes 11 [0x0A, 0x0A]] =
    [.access (.write 0x1000B 1 0x0000000A), .access (.write 0x1000C 1 0x0000000A)] ∧
  (∀ (i : Nat) (bs : List Byte), (programEvents [.bytes i bs]).length = bs.length ∧
    ∀ j b, bs[j]? = some b →
      (programEvents [.bytes i bs])[j]? = some (Event.access (.write (0x10000 + i + j) 1 (b.setWidth 32)))) ∧
  (∀ cmd off len : Word, programEvents [.encode cmd off len] =
    [.access (.write 0x00010 4 cmd), .access (.write 0x00008 4 off), .access (.write 0x0000C 4 len),
     .access (.write 0x00000 4 0x00000011), .wait]) ∧
  (∀ n : Nat, programAccesses [.start .decodeRsp, .wait, .rd .rspOffset] [n] =
    [Access.write 0x00000 4 0x00000021] ++ List.replicate (n + 1) (Access.read 0x00004 4) ++ [Access.read 0x00024 4])

/-! ### The step -/

/-- The machine runs the instruction that the decoder reads in the agenda's first event, on the state whose agenda is
the rest (the model's form of a fetch: log entry 1). -/
def Obligations.StepRunsTheDecodedInstruction : Prop :=
  ∀ (s : State) (e : Event) (rest : List Event) (i : Instr),
    s.agenda = e :: rest → decode e = .ok i → step s = exec i { s with agenda := rest }

/-- The step performs the agenda's first event, whether the decoder reads an instruction in it or not: a host read, a
host write, a run of byte stores, a wait, a turn of the block, a reset; with an empty agenda, a turn of the block (log
entries 1 and 7). A wait at DONE = 1 ends, having read STATUS; at DONE = 0 it stays first in the agenda, and the step is
the block's turn where BUSY = 1 and changes nothing where BUSY = 0. -/
def Obligations.StepPerformsTheHostsEvent : Prop :=
  ∀ (s : State) (rest : List Event),
    (∀ offset size, s.agenda = .access (.read offset size) :: rest →
      step s = busRead offset size { s with agenda := rest }) ∧
    (∀ offset size data, s.agenda = .access (.write offset size data) :: rest →
      step s = busWrite offset size data { s with agenda := rest }) ∧
    (∀ i bs, s.agenda = .bytes i bs :: rest → step s = storeBytes i bs { s with agenda := rest }) ∧
    (s.agenda = .wait :: rest →
      (s.done = true → step s = .next { s with agenda := rest, readData := statusWord s }) ∧
      (s.done = false → s.busy = true → step s = blockTurn s) ∧
      (s.done = false → s.busy = false → step s = .next s)) ∧
    (s.agenda = .blockTurn :: rest → step s = blockTurn { s with agenda := rest }) ∧
    (s.agenda = .reset :: rest → step s = .next { s with agenda := rest }.afterReset) ∧
    (s.agenda = [] → step s = blockTurn s)

/-- A row's word placed by `withFetchWord` is what the very next step decodes and runs (log entries 1 and 11). -/
def Obligations.PlacedWordIsRunByTheNextStep : Prop :=
  ∀ (s : State) (nbits w : Nat) (i : Instr),
    decodeTableWord nbits w = some i → step (s.withFetchWord nbits w) = exec i s

/-- A CTRL or STATUS write that is an instruction of the table does exactly what the bus write of that word does: the
table's instructions and the register writes of R24 and R29 are one behaviour. -/
def Obligations.InstructionIsItsBusWrite : Prop :=
  ∀ (offset : Nat) (w : Word) (i : Instr) (s : State),
    decode (.access (.write offset 4 w)) = .ok i → exec i s = busWrite offset 4 w s

/-! ### The start step -/

/-- R95: a CTRL write with bit 0 = 1 while BUSY = 0 writes CTRL, the latches, DONE and BUSY, and nothing else: RESULT,
CHK_OK, every output register, the other registers and every byte of the buffers keep their values. (The one start left
out, over an in-range input with an unwritten byte, is the refusal of R218.) -/
def Obligations.CtrlStartWritePerformsTheStartStep : Prop :=
  ∀ (s : State) (w : Word), w.getLsbD 0 = true → s.busy = false →
    (5 ≤ (w.extractLsb' 4 4).toNat ∨ rangeBad s.inOff s.inLen ∨ ∃ input, inputIs s.mem s.inOff s.inLen input) →
    busWrite 0x00 4 w s = .next
      { s with
        irqEn := w.getLsbD 1
        op := w.extractLsb' 4 4
        opL := w.extractLsb' 4 4
        inOffL := s.inOff
        inLenL := s.inLen
        argL := s.arg
        done := false
        busy := true }

/-- Every one of the five defined operations starts from an idle block over a written or out-of-bounds range: the next
state has the operation latched, BUSY 1 and DONE 0, and everything else as it was (R93, R95). -/
def Obligations.DefinedOperationsStart : Prop :=
  ∀ (s : State) (irqEn : Bool) (i : Instr) (op : BitVec 4),
    (i, op) ∈ [(Instr.checksum irqEn, 0), (Instr.encodeCmd irqEn, 1), (Instr.decodeRsp irqEn, 2),
      (Instr.extract irqEn, 3), (Instr.decodeFrame irqEn, 4)] →
    s.busy = false → (rangeBad s.inOff s.inLen ∨ ∃ input, inputIs s.mem s.inOff s.inLen input) →
    exec i s = .next { latched s op irqEn with busy := true, done := false }

/-- Every reserved operation starts from an idle block, whatever its range and whatever is written, and its completion
ends with BAD_OP, every output register 0, the buffers unchanged (R94, R187). -/
def Obligations.ReservedOperationsEndInBadOp : Prop :=
  ∀ (s : State) (irqEn : Bool) (i : Instr) (op : BitVec 4),
    ((i = .reservedOp5 irqEn ∧ op = 5) ∨ (∃ low, i = .reservedOp6_7 low irqEn ∧ op = 3#3 ++ low) ∨
      (∃ low, i = .reservedOp8_15 low irqEn ∧ op = 1#1 ++ low)) →
    s.busy = false →
    ∃ t, exec i s = .next t ∧ t = { latched s op irqEn with busy := true, done := false } ∧
      blockTurn t = .next { latched s op irqEn with
        busy := false, done := true, result := .badOp, chkOk := false, out := zeroOutputs }

/-- R216: a CTRL write with START = 1 while BUSY = 1 is refused; one with START = 0 is no hazard: it updates IRQ_EN and
OP, busy or not (R24). -/
def Obligations.StartWhileBusyIsRefused : Prop :=
  ∀ (s : State) (w : Word),
    (s.busy = true → w.getLsbD 0 = true → busWrite 0x00 4 w s = .refused .startWhileBusy) ∧
    (w.getLsbD 0 = false →
      busWrite 0x00 4 w s = .next { s with irqEn := w.getLsbD 1, op := w.extractLsb' 4 4 })

/-- R218, first sentence: starting a defined operation whose in-range input has an unwritten byte is refused. -/
def Obligations.StartOverUnwrittenInputIsRefused : Prop :=
  ∀ (s : State) (irqEn : Bool) (i : Instr) (j : Nat),
    i ∈ [Instr.checksum irqEn, Instr.encodeCmd irqEn, Instr.decodeRsp irqEn, Instr.extract irqEn,
      Instr.decodeFrame irqEn] →
    s.busy = false → s.inOff.toNat + s.inLen.toNat ≤ Config.ibufBytes → j < s.inLen.toNat →
    readByte s.mem (ibufAddr (s.inOff.toNat + j)) = none →
    exec i s = .refused .unwrittenInput

/-! ### CHECKSUM -/

/-- R110, R112: CHECKSUM over a written in-range input starts, and its completion puts the XOR fold of the input in
CHK_RESULT with RESULT = OK; every other output register is 0, and nothing else changes. -/
def Obligations.ChecksumComputesTheXorFold : Prop :=
  ∀ (s : State) (irqEn : Bool) (input : List Byte),
    s.busy = false → inputIs s.mem s.inOff s.inLen input →
    ∃ t, exec (.checksum irqEn) s = .next t ∧ t = { latched s 0 irqEn with busy := true, done := false } ∧
      blockTurn t = .next { latched s 0 irqEn with
        busy := false, done := true, result := .ok, chkOk := false,
        out := { zeroOutputs with chkResult := input.foldl (fun acc b => acc ^^^ b) 0 } }

/-- R111: the algebra of the checksum: the empty fold, one byte, concatenation, independence of order, the fold of a
sequence with its own checksum, a byte that occurs an even number of times, one corrupted byte, and two corruptions that
flip the same bits. -/
def Obligations.ChecksumAlgebra : Prop :=
  checksum [] = 0 ∧ (∀ b, checksum [b] = b) ∧
  (∀ s t : List Byte, checksum (s ++ t) = checksum s ^^^ checksum t) ∧
  (∀ s t : List Byte, s.Perm t → checksum s = checksum t) ∧
  (∀ s : List Byte, checksum (s ++ [checksum s]) = 0) ∧
  (∀ (s : List Byte) (b : Byte), s.count b % 2 = 0 → checksum s = checksum (s.filter fun c => c ≠ b)) ∧
  (∀ (s t : List Byte) (b c : Byte), b ≠ c → checksum (s ++ [b] ++ t) ≠ checksum (s ++ [c] ++ t)) ∧
  (∀ (s t u : List Byte) (b c d : Byte),
    checksum (s ++ [b ^^^ d] ++ t ++ [c ^^^ d] ++ u) = checksum (s ++ [b] ++ t ++ [c] ++ u))

/-! ### ENCODE_CMD -/

/-- R81, R120: ENCODE_CMD of a payload of at most 255 bytes starts, and its completion writes the frame
`55 AA cmd len payload chk` to OBUF from index 0, its length to OUT_LEN and its checksum to CHK_RESULT; every other
byte of the buffers, every other register and every flag is as stated or unchanged. -/
def Obligations.EncodeCmdBuildsTheFrame : Prop :=
  ∀ (s : State) (irqEn : Bool) (payload : List Byte),
    s.busy = false → inputIs s.mem s.inOff s.inLen payload → payload.length ≤ 255 →
    let len : Byte := BitVec.ofNat 8 payload.length
    let chk := (s.arg :: len :: payload).foldl (fun acc b => acc ^^^ b) 0
    let frame := [0x55, 0xAA, s.arg, len] ++ payload ++ [chk]
    ∃ t m, exec (.encodeCmd irqEn) s = .next t ∧ t = { latched s 1 irqEn with busy := true, done := false } ∧
      blockTurn t = .next { latched s 1 irqEn with
        busy := false, done := true, result := .ok, chkOk := false, mem := m,
        out := { zeroOutputs with outLen := BitVec.ofNat 16 (5 + payload.length), chkResult := chk } } ∧
      (∀ j, j < 5 + payload.length → readByte m (obufAddr j) = frame[j]?) ∧
      (∀ a, a < obufAddr 0 ∨ obufAddr (5 + payload.length) ≤ a → readByte m a = readByte s.mem a)

/-- R121: a payload longer than 255 bytes ends with ENCODING_ERROR, writes no OBUF byte, and leaves OUT_LEN and
CHK_RESULT 0. -/
def Obligations.EncodeCmdRejectsLongPayload : Prop :=
  ∀ (s : State) (irqEn : Bool) (payload : List Byte),
    s.busy = false → inputIs s.mem s.inOff s.inLen payload → 255 < payload.length →
    ∃ t, exec (.encodeCmd irqEn) s = .next t ∧
      blockTurn t = .next { latched s 1 irqEn with
        busy := false, done := true, result := .encodingError, chkOk := false, out := zeroOutputs }

/-- R122: after every ENCODE_CMD with RESULT = OK, `checksum(OBUF[2 .. 4+L]) = 0`, where OUT_LEN = 5 + L. -/
def Obligations.EncodedFrameChecksumsToZero : Prop :=
  ∀ s u : State, s.busy = true → s.opL = 1 → blockTurn s = .next u → u.result = .ok →
    ∃ len bs, u.out.outLen.toNat = 5 + len ∧ readBytes u.mem (obufAddr 2) (len + 3) = some bs ∧ checksum bs = 0

/-- The bytes ENCODE_CMD leaves in OBUF are exactly one command frame, and the decoder reads the command ID and the
payload back from them (R81, R120). -/
def Obligations.EncodedFrameIsOneCommandFrame : Prop :=
  ∀ (s : State) (irqEn : Bool) (payload : List Byte),
    s.busy = false → inputIs s.mem s.inOff s.inLen payload → payload.length ≤ 255 →
    ∃ t u bs, exec (.encodeCmd irqEn) s = .next t ∧ blockTurn t = .next u ∧
      readBytes u.mem (obufAddr 0) u.out.outLen.toNat = some bs ∧
      decode (.bytes 0 bs) = .ok (.cmdFrame 0 s.arg payload)

/-! ### DECODE_RSP -/

/-- R125: with no response marker in the input, DECODE_RSP ends with NOT_FOUND and nothing but the cleared outputs. -/
def Obligations.DecodeRspWithoutMarkerIsNotFound : Prop :=
  ∀ (s : State) (irqEn : Bool) (input : List Byte),
    s.busy = false → inputIs s.mem s.inOff s.inLen input → (∀ j, ¬ pairAt input 0x55 0xAB j) →
    ∃ t, exec (.decodeRsp irqEn) s = .next t ∧
      blockTurn t = .next { latched s 2 irqEn with
        busy := false, done := true, result := .notFound, chkOk := false, out := zeroOutputs }

/-- R126, R127: with the first marker at `i` and fewer than 5 bytes, or fewer than `6 + L` bytes, from it on, DECODE_RSP
ends with INCOMPLETE and RSP_OFFSET = i; RSP_HDR stays 0. -/
def Obligations.DecodeRspShortFrameIsIncomplete : Prop :=
  ∀ (s : State) (irqEn : Bool) (input : List Byte) (i : Nat),
    s.busy = false → inputIs s.mem s.inOff s.inLen input → firstPair input 0 0x55 0xAB i →
    (input.length - i < 5 ∨ ∃ len : Byte, input[i + 4]? = some len ∧ input.length - i < 6 + len.toNat) →
    ∃ t, exec (.decodeRsp irqEn) s = .next t ∧
      blockTurn t = .next { latched s 2 irqEn with
        busy := false, done := true, result := .incomplete, chkOk := false,
        out := { zeroOutputs with rspOffset := BitVec.ofNat 16 i } }

/-- R124, R128, R129, R130: DECODE_RSP decodes the frame at the first marker of the input, whatever stands before and
after it, and whatever its checksum byte: RSP_HDR, RSP_CHK, RSP_OFFSET, OUT_LEN and OBUF[0 .. L-1] hold it, RESULT is
OK, and CHK_OK says whether the received checksum is the computed one. Nothing else changes. -/
def Obligations.DecodeRspDecodesTheFirstFrame : Prop :=
  ∀ (s : State) (irqEn : Bool) (before payload after : List Byte) (status cmd len received : Byte),
    s.busy = false → payload.length = len.toNat →
    inputIs s.mem s.inOff s.inLen
      (before ++ [0x55, 0xAB, status, cmd, len] ++ payload ++ [received] ++ after) →
    (∀ j, ¬ pairAt before 0x55 0xAB j) →
    let computed := (status :: cmd :: len :: payload).foldl (fun acc b => acc ^^^ b) 0
    ∃ t m, exec (.decodeRsp irqEn) s = .next t ∧
      blockTurn t = .next { latched s 2 irqEn with
        busy := false, done := true, result := .ok, chkOk := (computed == received), mem := m,
        out := { zeroOutputs with
          outLen := len.setWidth 16
          rspHdr := status.setWidth 24 ||| (cmd.setWidth 24 <<< 8) ||| (len.setWidth 24 <<< 16)
          rspChk := received.setWidth 16 ||| (computed.setWidth 16 <<< 8)
          rspOffset := BitVec.ofNat 16 before.length } } ∧
      (∀ j, j < payload.length → readByte m (obufAddr j) = payload[j]?) ∧
      (∀ a, a < obufAddr 0 ∨ obufAddr payload.length ≤ a → readByte m a = readByte s.mem a)

/-- From a received frame to its fields (R82, R89, R92, R128; W2 and W3 of 95_test_vectors.md): a response frame stored
at IBUF[IN_OFF] by its own instruction, with IN_LEN its length, is decoded by DECODE_RSP to its status, command ID and
payload, and CHK_OK is 1 exactly when the frame carries its right checksum. -/
def Obligations.StoredResponseFrameIsDecoded : Prop :=
  ∀ (s : State) (irqEn : Bool) (status cmd chk : Byte) (payload : List Byte),
    s.busy = false → payload.length ≤ 255 → s.inLen.toNat = 6 + payload.length →
    s.inOff.toNat + s.inLen.toNat ≤ Config.ibufBytes →
    ∃ t u v, exec (.rspFrame s.inOff.toNat status cmd payload chk) s = .next t ∧
      exec (.decodeRsp irqEn) t = .next u ∧ blockTurn u = .next v ∧
      v.result = .ok ∧ v.out.rspOffset = 0 ∧ v.out.outLen.toNat = payload.length ∧
      v.out.rspHdr.extractLsb' 0 8 = status ∧ v.out.rspHdr.extractLsb' 8 8 = cmd ∧
      (v.out.rspHdr.extractLsb' 16 8).toNat = payload.length ∧
      readBytes v.mem (obufAddr 0) payload.length = some payload ∧
      (v.chkOk = true ↔ chk = responseChecksum status cmd payload)

/-! ### EXTRACT -/

/-- R150 to R154: EXTRACT over a written in-range input is OK and finds exactly the candidates of the scan those rules
describe: FRAME_COUNT is their number, FDESC[k] the k-th one's START and END, EXT_CURSOR the cursor where the scan
stopped. FDESC entries past them, IBUF, OBUF and every other register keep their values or are as stated. -/
def Obligations.ExtractFindsExactlyTheCandidates : Prop :=
  ∀ (s : State) (irqEn : Bool) (input : List Byte),
    s.busy = false → inputIs s.mem s.inOff s.inLen input →
    ∃ t m found final, exec (.extract irqEn) s = .next t ∧
      t = { latched s 3 irqEn with busy := true, done := false } ∧ Scan input 0 found final ∧
      blockTurn t = .next { latched s 3 irqEn with
        busy := false, done := true, result := .ok, chkOk := false, mem := m,
        scanCursor := BitVec.ofNat 16 final,
        out := { zeroOutputs with
          frameCount := BitVec.ofNat 16 found.length
          extCursor := BitVec.ofNat 16 final } } ∧
      (∀ k r, found[k]? = some r → readDesc m k = some (BitVec.ofNat 32 r.1 ||| (BitVec.ofNat 32 r.2 <<< 16))) ∧
      (∀ a, a < fdescAddr 0 ∨ fdescAddr found.length ≤ a → readByte m a = readByte s.mem a)

/-- R155: the candidates of a completed EXTRACT are in strictly increasing order and pairwise disjoint:
FDESC[0].START < FDESC[0].END < FDESC[1].START < ... -/
def Obligations.ExtractedRangesRise : Prop :=
  ∀ s u : State, s.busy = true → s.opL = 3 → blockTurn s = .next u → u.result = .ok →
    ∀ k, k < u.out.frameCount.toNat → ∃ d, readDesc u.mem k = some d ∧ descStart d < descEnd d ∧
      ∀ k', k < k' → k' < u.out.frameCount.toNat →
        ∃ d', readDesc u.mem k' = some d' ∧ descEnd d < descStart d'

/-- R157: FRAME_COUNT never exceeds floor(n / 3), nor FDESC_ENTRIES, so EXTRACT can never overflow FDESC. -/
def Obligations.FrameCountFitsTheTable : Prop :=
  ∀ s u : State, s.busy = true → s.opL = 3 → blockTurn s = .next u → u.result = .ok →
    u.out.frameCount.toNat ≤ s.inLenL.toNat / 3 ∧ s.inLenL.toNat / 3 ≤ Config.fdescEntries

/-- W4 and W6 of 95_test_vectors.md for any number of frames (R150, R155): EXTRACT of well-formed streaming frames one
after another, none with an end sentinel at index 2 to 18, returns exactly those frames, and its cursor is at the end. -/
def Obligations.ExtractReturnsEachWholeFrame : Prop :=
  ∀ (frames : List (Byte × Channels)) (irqEn : Bool) (s : State),
    (∀ f ∈ frames, (0x7C : Byte) ∉ f.1 :: sampleBytes f.2) → s.busy = false →
    inputIs s.mem s.inOff s.inLen (frames.flatMap fun f => streamFrame f.1 f.2) →
    ∃ t u, exec (.extract irqEn) s = .next t ∧ blockTurn t = .next u ∧ u.result = .ok ∧
      u.out.frameCount.toNat = frames.length ∧ u.out.extCursor.toNat = 20 * frames.length ∧
      ∀ k, k < frames.length → ∃ d, readDesc u.mem k = some d ∧ descStart d = 20 * k ∧ descEnd d = 20 * k + 19

/-- R165: for a candidate that EXTRACT produced, the sentinel tests of DECODE_FRAME always pass, so DECODE_FRAME of its
bytes, wherever they stand, ends with OK exactly when they are 20; and the candidate has no 7C at index 2 or later but
its last byte. -/
def Obligations.CandidateDecodesExactlyWhenTwentyLong : Prop :=
  ∀ (s u : State) (input : List Byte) (k : Nat), s.busy = true → s.opL = 3 →
    inputIs s.mem s.inOffL s.inLenL input → blockTurn s = .next u → k < u.out.frameCount.toNat →
    ∃ d, readDesc u.mem k = some d ∧
      let f := slice input (descStart d) (descEnd d)
      (f[0]? = some 0x7A ∧ f[1]? = some 0x7B ∧ f.getLast? = some 0x7C) ∧
      (∀ v w : State, v.busy = true → v.opL = 4 → inputIs v.mem v.inOffL v.inLenL f → blockTurn v = .next w →
        (w.result = .ok ↔ f.length = 20)) ∧
      (∀ j, 2 ≤ j → j + 1 < f.length → f[j]? ≠ some 0x7C)

/-! ### DECODE_FRAME -/

/-- R162: DECODE_FRAME of a 20-byte range with the three sentinel bytes puts byte 2 in TELEM_DIGITAL and, for each
channel, `low | (high << 8)` of bytes `3 + 2i` and `4 + 2i` in ANi; RESULT is OK, and nothing else changes. -/
def Obligations.DecodeFrameReadsTelemetry : Prop :=
  ∀ (s : State) (irqEn : Bool) (f : List Byte),
    s.busy = false → inputIs s.mem s.inOff s.inLen f → f.length = 20 →
    f[0]? = some 0x7A → f[1]? = some 0x7B → f[19]? = some 0x7C →
    ∃ t digital an, exec (.decodeFrame irqEn) s = .next t ∧
      t = { latched s 4 irqEn with busy := true, done := false } ∧ f[2]? = some digital ∧
      (∀ i : Fin 8, ∃ low high : Byte, f[3 + 2 * i.val]? = some low ∧ f[4 + 2 * i.val]? = some high ∧
        (channelOf an i).toNat = low.toNat + 256 * high.toNat) ∧
      blockTurn t = .next { latched s 4 irqEn with
        busy := false, done := true, result := .ok, chkOk := false,
        out := { zeroOutputs with telemDigital := digital, an := an } }

/-- R161, R164: a range whose length is not 20, or with a wrong byte 0, byte 1 or last byte, ends with MALFORMED, one
code for all four failures, and every telemetry register 0. -/
def Obligations.DecodeFrameRejectsMalformed : Prop :=
  ∀ (s : State) (irqEn : Bool) (f : List Byte),
    s.busy = false → inputIs s.mem s.inOff s.inLen f →
    (f.length ≠ 20 ∨ f[0]? ≠ some 0x7A ∨ f[1]? ≠ some 0x7B ∨ f.getLast? ≠ some 0x7C) →
    ∃ t, exec (.decodeFrame irqEn) s = .next t ∧
      blockTurn t = .next { latched s 4 irqEn with
        busy := false, done := true, result := .malformed, chkOk := false, out := zeroOutputs }

/-- From a received frame to telemetry (R86, R162; W8 of 95_test_vectors.md): a streaming frame stored at IBUF[IN_OFF]
by its own instruction, with IN_LEN = 20, is decoded by DECODE_FRAME to exactly its digital byte and its channels. -/
def Obligations.StoredStreamFrameIsDecoded : Prop :=
  ∀ (s : State) (irqEn : Bool) (digital : Byte) (an : Channels),
    s.busy = false → s.inLen = 20 → s.inOff.toNat + 20 ≤ Config.ibufBytes →
    ∃ t u v, exec (.streamFrame s.inOff.toNat digital an) s = .next t ∧
      exec (.decodeFrame irqEn) t = .next u ∧ blockTurn u = .next v ∧
      v.result = .ok ∧ v.out.telemDigital = digital ∧ v.out.an = an

/-! ### What every completion does -/

/-- R188: a defined operation whose range reaches past IBUF ends with BAD_RANGE, with no byte read: whatever is
written. A range that fits, one ending exactly at the last byte and an empty one at IBUF_BYTES included, never does. -/
def Obligations.RangePastIbufIsBadRange : Prop :=
  ∀ s : State, s.busy = true → s.opL.toNat < 5 →
    (Config.ibufBytes < s.inOffL.toNat + s.inLenL.toNat →
      blockTurn s = .next { s with
        busy := false, done := true, result := .badRange, chkOk := false, out := zeroOutputs }) ∧
    (s.inOffL.toNat + s.inLenL.toNat ≤ Config.ibufBytes → ∀ u, blockTurn s = .next u → u.result ≠ .badRange)

/-- R187: the completion of a start whose OP_L is 5 to 15 ends with BAD_OP before any input is examined: whatever its
range, and whatever is written. -/
def Obligations.ReservedLatchIsBadOp : Prop :=
  ∀ s : State, s.busy = true → 5 ≤ s.opL.toNat →
    blockTurn s = .next { s with
      busy := false, done := true, result := .badOp, chkOk := false, out := zeroOutputs }

/-- R189: which operation can end with which result: with no other, and with each of those. -/
def Obligations.OperationsEndOnlyInTheirResults : Prop :=
  (∀ s u : State, s.busy = true → blockTurn s = .next u →
    (s.opL = 0 → u.result ∈ [ResultCode.ok, .badRange]) ∧
    (s.opL = 1 → u.result ∈ [ResultCode.ok, .encodingError, .badRange]) ∧
    (s.opL = 2 → u.result ∈ [ResultCode.ok, .notFound, .incomplete, .badRange]) ∧
    (s.opL = 3 → u.result ∈ [ResultCode.ok, .badRange]) ∧
    (s.opL = 4 → u.result ∈ [ResultCode.ok, .malformed, .badRange]) ∧
    (5 ≤ s.opL.toNat → u.result = .badOp)) ∧
  (∀ (op : BitVec 4) (code : ResultCode) (chkOk : Bool),
    (op, code, chkOk) ∈ [(0, .ok, false), (0, .badRange, false), (1, .ok, false), (1, .encodingError, false),
      (1, .badRange, false), (2, .ok, false), (2, .ok, true), (2, .notFound, false), (2, .incomplete, false),
      (2, .badRange, false), (3, .ok, false), (3, .badRange, false), (4, .ok, false), (4, .malformed, false),
      (4, .badRange, false)] →
    ∃ s u : State, s.busy = true ∧ s.opL = op ∧ blockTurn s = .next u ∧ u.result = code ∧ u.chkOk = chkOk) ∧
  (∀ op : BitVec 4, 5 ≤ op.toNat →
    ∃ s u : State, s.busy = true ∧ s.opL = op ∧ blockTurn s = .next u ∧ u.result = .badOp)

/-- R97 and R31, R35 to R43: after a completion, every output register that is not the finished operation's is 0, and
CHK_OK is 1 only after a DECODE_RSP that ended OK. -/
def Obligations.CompletionLeavesNoStaleOutput : Prop :=
  ∀ s u : State, s.busy = true → blockTurn s = .next u →
    (s.opL = 0 → u.out = { zeroOutputs with chkResult := u.out.chkResult }) ∧
    (s.opL = 1 → u.out = { zeroOutputs with outLen := u.out.outLen, chkResult := u.out.chkResult }) ∧
    (s.opL = 2 → u.out = { zeroOutputs with
      outLen := u.out.outLen, rspHdr := u.out.rspHdr, rspChk := u.out.rspChk, rspOffset := u.out.rspOffset }) ∧
    (s.opL = 3 → u.out = { zeroOutputs with frameCount := u.out.frameCount, extCursor := u.out.extCursor }) ∧
    (s.opL = 4 → u.out = { zeroOutputs with telemDigital := u.out.telemDigital, an := u.out.an }) ∧
    (5 ≤ s.opL.toNat → u.out = zeroOutputs) ∧
    (u.chkOk = true → s.opL = 2 ∧ u.result = .ok)

/-- R180, R76: the frame of every completion: it sets DONE, clears BUSY, and writes no host register, no latch and no
byte of IBUF; with a result other than OK it writes no byte at all and no output but RSP_OFFSET. The last clause is no
rule of the spec: that `scanCursor` keeps its value through the other operations is the model's choice (log entry 19). -/
def Obligations.CompletionFrame : Prop :=
  ∀ s u : State, s.busy = true → blockTurn s = .next u →
    u = { s with
      busy := false, done := true, result := u.result, chkOk := u.chkOk, out := u.out, mem := u.mem,
      scanCursor := u.scanCursor } ∧
    (∀ i, i < Config.ibufBytes → readByte u.mem (ibufAddr i) = readByte s.mem (ibufAddr i)) ∧
    (u.result ≠ .ok → u.mem = s.mem ∧ u.chkOk = false ∧
      u.out = { zeroOutputs with rspOffset := u.out.rspOffset } ∧
      (u.result ≠ .incomplete → u.out = zeroOutputs)) ∧
    (s.opL ≠ 3 → u.scanCursor = s.scanCursor)

/-- R49: no operation's result depends on anything but the latches and the bytes of its input. Two states that agree on
those, whatever else they hold, complete with the same RESULT, CHK_OK, output registers, OBUF bytes up to OUT_LEN and
FDESC entries up to FRAME_COUNT. -/
def Obligations.ResultDependsOnlyOnItsInput : Prop :=
  ∀ s t u : State, s.busy = true → t.busy = true →
    s.opL = t.opL → s.inOffL = t.inOffL → s.inLenL = t.inLenL → s.argL = t.argL →
    (∀ j, j < s.inLenL.toNat →
      readByte s.mem (ibufAddr (s.inOffL.toNat + j)) = readByte t.mem (ibufAddr (s.inOffL.toNat + j))) →
    blockTurn s = .next u →
    ∃ v, blockTurn t = .next v ∧ v.result = u.result ∧ v.chkOk = u.chkOk ∧ v.out = u.out ∧
      (∀ j, j < u.out.outLen.toNat → readByte v.mem (obufAddr j) = readByte u.mem (obufAddr j)) ∧
      (∀ k, k < u.out.frameCount.toNat → readDesc v.mem k = readDesc u.mem k)

/-- R45, R26: host writes after the start step do not reach the operation in progress: after any bus write that the
model accepts while BUSY = 1, the completion is the same but for the registers that write itself changed. -/
def Obligations.HostWritesDoNotReachTheOperation : Prop :=
  ∀ (s t u : State) (offset size : Nat) (data : Word), s.busy = true →
    busWrite offset size data s = .next t → blockTurn s = .next u →
    blockTurn t = .next { u with
      irqEn := t.irqEn, op := t.op, inOff := t.inOff, inLen := t.inLen, arg := t.arg }

/-! ### STATUS, DONE and the interrupt -/

/-- R29: DONE is set by the completion step, cleared by the start step, by a host write to STATUS with bit 1 = 1 and by
reset; a host write to STATUS with bit 1 = 0 leaves it, and no STATUS write changes anything else (R27). -/
def Obligations.DoneIsSetAndClearedAsStated : Prop :=
  (∀ s u : State, s.busy = true → blockTurn s = .next u → u.done = true) ∧
  (∀ (s t : State) (op : BitVec 4) (irqEn : Bool), startStep op irqEn s = .next t → t.done = false) ∧
  (∀ s : State, exec .ackDone s = .next { s with done := false }) ∧
  (∀ (s : State) (w : Word), w.getLsbD 1 = true → busWrite 0x04 4 w s = .next { s with done := false }) ∧
  (∀ (s : State) (w : Word), w.getLsbD 1 = false → busWrite 0x04 4 w s = .next s) ∧
  (∀ s : State, s.afterReset.done = false) ∧ State.reset.done = false

/-- R193, R192: irq is raised by a completion while IRQ_EN = 1, or by setting IRQ_EN = 1 while DONE = 1; it is cleared by
a write of 1 to STATUS bit 1, by the next start step, by reset, or by writing IRQ_EN = 0. -/
def Obligations.IrqIsRaisedAndClearedAsStated : Prop :=
  (∀ s u : State, s.busy = true → blockTurn s = .next u → irq u = s.irqEn) ∧
  (∀ (s : State) (w : Word), s.done = true → w.getLsbD 0 = false → w.getLsbD 1 = true →
    ∃ t, busWrite 0x00 4 w s = .next t ∧ irq t = true) ∧
  (∀ s : State, ∃ t, exec .ackDone s = .next t ∧ irq t = false) ∧
  (∀ (s t : State) (op : BitVec 4) (irqEn : Bool), startStep op irqEn s = .next t → irq t = false) ∧
  (∀ s : State, irq s.afterReset = false) ∧
  (∀ (s : State) (w : Word), w.getLsbD 0 = false → w.getLsbD 1 = false →
    ∃ t, busWrite 0x00 4 w s = .next t ∧ irq t = false)

/-- R23, R27, R181: STATUS and CTRL read as their fields at their bits, reserved bits 0, START 0; and the code of each
result is the one of R30 and R181. -/
def Obligations.StatusAndCtrlReadAsTheirFields : Prop :=
  ∀ s : State,
    (∀ n, (statusWord s).getLsbD n =
      (if n = 0 then s.busy else if n = 1 then s.done
       else if 4 ≤ n ∧ n < 8 then (resultBits s.result).getLsbD (n - 4)
       else if n = 8 then s.chkOk else false)) ∧
    (∀ n, (ctrlWord s).getLsbD n =
      (if n = 1 then s.irqEn else if 4 ≤ n ∧ n < 8 then s.op.getLsbD (n - 4) else false)) ∧
    (resultBits s.result).toNat ≤ 7 ∧
    resultBits .none = 0 ∧ resultBits .ok = 1 ∧ resultBits .notFound = 2 ∧ resultBits .incomplete = 3 ∧
    resultBits .encodingError = 4 ∧ resultBits .malformed = 5 ∧ resultBits .badOp = 6 ∧ resultBits .badRange = 7

/-! ### Host reads and writes -/

/-- R214, R23, R32, R33, R34, R44: a write of IN_OFF, IN_LEN, ARG, or CTRL with START = 0, is seen by the very next
access: the register reads back as written, its reserved bits (and START) 0. Nothing else changes. -/
def Obligations.RegisterWritesReadBack : Prop :=
  ∀ (s : State) (w : Word),
    busWrite 0x08 4 w s = .next { s with inOff := w.setWidth 16 } ∧
    busRead 0x08 4 { s with inOff := w.setWidth 16 } =
      .next { s with inOff := w.setWidth 16, readData := w &&& 0x0000FFFF } ∧
    busWrite 0x0C 4 w s = .next { s with inLen := w.setWidth 16 } ∧
    busRead 0x0C 4 { s with inLen := w.setWidth 16 } =
      .next { s with inLen := w.setWidth 16, readData := w &&& 0x0000FFFF } ∧
    busWrite 0x10 4 w s = .next { s with arg := w.setWidth 8 } ∧
    busRead 0x10 4 { s with arg := w.setWidth 8 } =
      .next { s with arg := w.setWidth 8, readData := w &&& 0x000000FF } ∧
    (w.getLsbD 0 = false → ∃ t, busWrite 0x00 4 w s = .next t ∧
      t = { s with irqEn := w.getLsbD 1, op := w.extractLsb' 4 4 } ∧
      busRead 0x00 4 t = .next { t with readData := w &&& 0x000000F2 })

/-- R44, R64, R65: a host write to a read-only register, to OBUF or to FDESC is ignored and changes nothing. -/
def Obligations.WritesToReadOnlyAreIgnored : Prop :=
  ∀ (s : State) (w : Word),
    (∀ offset ∈ [0x14, 0x18, 0x1C, 0x20, 0x24, 0x28, 0x2C, 0x30, 0x40, 0x44, 0x48, 0x4C, 0x50, 0x54, 0x58, 0x5C],
      busWrite offset 4 w s = .next s) ∧
    (∀ i size, (size = 1 ∨ size = 2 ∨ size = 4) → size ∣ i → i + size ≤ 260 →
      busWrite (0x20000 + i) size w s = .next s) ∧
    (∀ k, k < Config.fdescEntries → busWrite (0x40000 + 4 * k) 4 w s = .next s)

/-- R63, R67: a write of 1, 2 or 4 bytes to IBUF while idle sets those bytes from the data lanes in little-endian order
and no other byte, and a read returns them in the same order. -/
def Obligations.IbufWriteStoresItsLanes : Prop :=
  ∀ (s : State) (i size : Nat) (data : Word), s.busy = false → (size = 1 ∨ size = 2 ∨ size = 4) → size ∣ i →
    i + size ≤ Config.ibufBytes →
    ∃ m, busWrite (0x10000 + i) size data s = .next { s with mem := m } ∧
      (∀ j, j < size → readByte m (ibufAddr (i + j)) = some (data.extractLsb' (8 * j) 8)) ∧
      (∀ a, a < ibufAddr i ∨ ibufAddr (i + size) ≤ a → readByte m a = readByte s.mem a) ∧
      busRead (0x10000 + i) size { s with mem := m } =
        .next { s with mem := m, readData := data &&& BitVec.ofNat 32 (2 ^ (8 * size) - 1) }

/-- R63, R67, R69: mixed-width access sees the bytes individually: a read of 4, 2 or 1 written bytes of IBUF, busy or not
(R217), returns them in little-endian order, for 4 bytes `IBUF[i] | IBUF[i+1] << 8 | IBUF[i+2] << 16 | IBUF[i+3] << 24`;
a read that includes an unwritten byte is refused, busy or not (R218, I12; for the busy read log entry 9); and a 1-byte
write to IBUF[j] changes only IBUF[j]. -/
def Obligations.IbufWordReadIsItsBytes : Prop :=
  (∀ (s : State) (i : Nat) (b0 b1 b2 b3 : Byte), 4 ∣ i → i + 4 ≤ Config.ibufBytes →
    readByte s.mem (ibufAddr i) = some b0 → readByte s.mem (ibufAddr (i + 1)) = some b1 →
    readByte s.mem (ibufAddr (i + 2)) = some b2 → readByte s.mem (ibufAddr (i + 3)) = some b3 →
    busRead (0x10000 + i) 4 s = .next { s with
      readData := b0.setWidth 32 ||| b1.setWidth 32 <<< 8 ||| b2.setWidth 32 <<< 16 ||| b3.setWidth 32 <<< 24 }) ∧
  (∀ (s : State) (i : Nat) (b0 b1 : Byte), 2 ∣ i → i + 2 ≤ Config.ibufBytes →
    readByte s.mem (ibufAddr i) = some b0 → readByte s.mem (ibufAddr (i + 1)) = some b1 →
    busRead (0x10000 + i) 2 s = .next { s with readData := b0.setWidth 32 ||| b1.setWidth 32 <<< 8 }) ∧
  (∀ (s : State) (i : Nat) (b : Byte), i < Config.ibufBytes → readByte s.mem (ibufAddr i) = some b →
    busRead (0x10000 + i) 1 s = .next { s with readData := b.setWidth 32 }) ∧
  (∀ (s : State) (i size j : Nat), (size = 1 ∨ size = 2 ∨ size = 4) → size ∣ i → i + size ≤ Config.ibufBytes →
    j < size → readByte s.mem (ibufAddr (i + j)) = none → busRead (0x10000 + i) size s = .refused .unwrittenRead) ∧
  (∀ (s : State) (j : Nat) (data : Word), s.busy = false → j < Config.ibufBytes →
    ∃ m, busWrite (0x10000 + j) 1 data s = .next { s with mem := m } ∧
      ∀ a, a ≠ ibufAddr j → readByte m a = readByte s.mem a)

/-- R215: a write to IBUF while BUSY = 1 is refused. -/
def Obligations.IbufWriteWhileBusyIsRefused : Prop :=
  ∀ (s : State) (i size : Nat) (data : Word), s.busy = true → (size = 1 ∨ size = 2 ∨ size = 4) → size ∣ i →
    i + size ≤ Config.ibufBytes → busWrite (0x10000 + i) size data s = .refused .ibufWriteWhileBusy

/-- R61 to R66, R70: an access to an unmapped offset, of a width or alignment its region does not accept, or past the
mapped part, is a bus error, which the model refuses; an access the map allows never is one. -/
def Obligations.BusErrorsAreExactlyTheUnmappedAccesses : Prop :=
  ∀ (s : State) (offset size : Nat) (data : Word),
    (busRead offset size s = .refused .busError ↔ ¬ mappedAccess offset size) ∧
    (busWrite offset size data s = .refused .busError ↔ ¬ mappedAccess offset size)

/-- R71: a host read has no side effect on the block: it changes only what the host read and, while an operation is in
progress, how many free values have been drawn (both the model's own). -/
def Obligations.HostReadsHaveNoSideEffect : Prop :=
  ∀ (s t : State) (offset size : Nat), busRead offset size s = .next t →
    t = { s with readData := t.readData, draws := t.draws } ∧ (s.busy = false → t.draws = s.draws)

/-- R217, I10: while BUSY = 1 a read of an output, at the offsets of R22 and R61, answers a fresh free value with its
reserved bits 0 and no effect on the block's state (the model's form of "any value", `Config.freeRead` at the number of
draws so far: log entry 3); a read of CTRL, STATUS, IN_OFF, IN_LEN, ARG returns its current value. That an OBUF or FDESC
byte answers so even where it is unwritten, which R218 would refuse, is the model's choice (log entry 9). -/
def Obligations.BusyReadsOfOutputsAreFree : Prop :=
  ∀ s : State, s.busy = true →
    (∀ p ∈ [(0x14, 0x0000FFFF), (0x18, 0x000000FF), (0x1C, 0x00FFFFFF), (0x20, 0x0000FFFF), (0x24, 0x0000FFFF),
        (0x28, 0x0000FFFF), (0x2C, 0x0000FFFF), (0x30, 0x000000FF), (0x40, 0x0000FFFF), (0x44, 0x0000FFFF),
        (0x48, 0x0000FFFF), (0x4C, 0x0000FFFF), (0x50, 0x0000FFFF), (0x54, 0x0000FFFF), (0x58, 0x0000FFFF),
        ((0x5C, 0x0000FFFF) : Nat × Word)],
      busRead p.1 4 s = .next { s with readData := Config.freeRead s.draws &&& p.2, draws := s.draws + 1 }) ∧
    (∀ p ∈ [(0x00, ctrlWord s), (0x04, statusWord s), (0x08, s.inOff.setWidth 32), (0x0C, s.inLen.setWidth 32),
        ((0x10, s.arg.setWidth 32) : Nat × Word)],
      busRead p.1 4 s = .next { s with readData := p.2 }) ∧
    (∀ i size, (size = 1 ∨ size = 2 ∨ size = 4) → size ∣ i → i + size ≤ 260 →
      busRead (0x20000 + i) size s = .next { s with
        readData := Config.freeRead s.draws &&& BitVec.ofNat 32 (2 ^ (8 * size) - 1), draws := s.draws + 1 }) ∧
    (∀ k, k < Config.fdescEntries →
      busRead (0x40000 + 4 * k) 4 s = .next { s with readData := Config.freeRead s.draws, draws := s.draws + 1 })

/-- R22 to R43, R64, R65: while idle, a read at each register's offset returns that register's fields, reserved bits 0; a
read of OBUF or FDESC returns its written bytes in little-endian order, and is refused where one of them is unwritten
(R218). The fields of CTRL and STATUS are in StatusAndCtrlReadAsTheirFields; IBUF is in IbufWordReadIsItsBytes. -/
def Obligations.IdleReadsReturnTheOutputs : Prop :=
  ∀ s : State, s.busy = false →
    (∀ p ∈ [(0x00, ctrlWord s), (0x04, statusWord s), (0x08, s.inOff.setWidth 32), (0x0C, s.inLen.setWidth 32),
        (0x10, s.arg.setWidth 32), (0x14, s.out.outLen.setWidth 32), (0x18, s.out.chkResult.setWidth 32),
        (0x1C, s.out.rspHdr.setWidth 32), (0x20, s.out.rspChk.setWidth 32), (0x24, s.out.rspOffset.setWidth 32),
        (0x28, s.out.frameCount.setWidth 32), (0x2C, s.out.extCursor.setWidth 32),
        ((0x30, s.out.telemDigital.setWidth 32) : Nat × Word)],
      busRead p.1 4 s = .next { s with readData := p.2 }) ∧
    (∀ n : Fin 8, busRead (0x40 + 4 * n.val) 4 s =
      .next { s with readData := (channelOf s.out.an n).setWidth 32 }) ∧
    (∀ i size bs, (size = 1 ∨ size = 2 ∨ size = 4) → size ∣ i → i + size ≤ 260 →
      readBytes s.mem (0x20000 + i) size = some bs →
      busRead (0x20000 + i) size s = .next { s with readData := ofLanes bs }) ∧
    (∀ k d, k < Config.fdescEntries → readDesc s.mem k = some d →
      busRead (0x40000 + 4 * k) 4 s = .next { s with readData := d }) ∧
    (∀ i size j, (size = 1 ∨ size = 2 ∨ size = 4) → size ∣ i → i + size ≤ 260 → j < size →
      readByte s.mem (0x20000 + i + j) = none → busRead (0x20000 + i) size s = .refused .unwrittenRead) ∧
    (∀ k j, k < Config.fdescEntries → j < 4 → readByte s.mem (0x40000 + 4 * k + j) = none →
      busRead (0x40000 + 4 * k) 4 s = .refused .unwrittenRead)

/-! ### The wire formats as input -/

/-- R68, R81, R82, R86, R99 (the meaning of the wire rows is the model's choice: log entry 8): storing a command,
response or streaming frame at IBUF[i] while idle, where it fits, writes the bytes of its format from IBUF[i] on in
stream order, no other byte, and no register or flag: it starts nothing. A program's `bytes` line of the same bytes, run
access by access, ends in the same state (R99). -/
def Obligations.StoredFramesAreTheirBytes : Prop :=
  ∀ (s : State) (i : Nat) (f : Instr) (bs : List Byte),
    ((∃ (cmd : Byte) (p : List Byte), p.length ≤ 255 ∧ f = .cmdFrame i cmd p ∧
        bs = [0x55, 0xAA, cmd, BitVec.ofNat 8 p.length] ++ p ++ [checksum (cmd :: BitVec.ofNat 8 p.length :: p)]) ∨
     (∃ (status cmd chk : Byte) (p : List Byte), p.length ≤ 255 ∧ f = .rspFrame i status cmd p chk ∧
        bs = [0x55, 0xAB, status, cmd, BitVec.ofNat 8 p.length] ++ p ++ [chk]) ∨
     (∃ (digital : Byte) (c : Channels), f = .streamFrame i digital c ∧ bs.length = 20 ∧
        bs[0]? = some 0x7A ∧ bs[1]? = some 0x7B ∧ bs[2]? = some digital ∧ bs[19]? = some 0x7C ∧
        ∀ n : Fin 8, bs[3 + 2 * n.val]? = some ((channelOf c n).extractLsb' 0 8) ∧
          bs[4 + 2 * n.val]? = some ((channelOf c n).extractLsb' 8 8))) →
    s.busy = false → i + bs.length ≤ Config.ibufBytes →
    ∃ m, exec f s = .next { s with mem := m } ∧
      (∀ j, j < bs.length → readByte m (ibufAddr (i + j)) = bs[j]?) ∧
      (∀ a, a < ibufAddr i ∨ ibufAddr (i + bs.length) ≤ a → readByte m a = readByte s.mem a) ∧
      ∀ rest : List Event, steps bs.length { s with agenda := programEvents [.bytes i bs] ++ rest } =
        .next { s with mem := m, agenda := rest }

/-- R66, R215: a frame stored while BUSY = 1, or where IBUF does not hold all of it, is refused. -/
def Obligations.FrameThatCannotBeStoredIsRefused : Prop :=
  ∀ (s : State) (i : Nat) (f : Instr),
    ((∃ cmd p, f = .cmdFrame i cmd p) ∨ (∃ status cmd p chk, f = .rspFrame i status cmd p chk) ∨
      (∃ digital c, f = .streamFrame i digital c)) →
    (s.busy = true → i < Config.ibufBytes → exec f s = .refused .ibufWriteWhileBusy) ∧
    (s.busy = false → (∀ k bs, encode f = .bytes k bs → Config.ibufBytes < i + bs.length) →
      exec f s = .refused .busError)

/-! ### Reset, progress and the invariant -/

/-- R210, R212, R52: reset, in any state, leaves the block idle with DONE 0, RESULT NONE and irq deasserted, every
register reading 0 and every buffer byte unwritten; and the block then accepts a START at once, of any of the eight start
rows. -/
def Obligations.ResetIsIdleAndAcceptsAStart : Prop :=
  ∀ s : State, s.afterReset.busy = false ∧ s.afterReset.done = false ∧ s.afterReset.result = .none ∧
    irq s.afterReset = false ∧ (∀ r, regValue s.afterReset r = 0) ∧ (∀ a, readByte s.afterReset.mem a = none) ∧
    ∀ w : Word, w.getLsbD 0 = true → ∃ u, busWrite 0x00 4 w s.afterReset = .next u ∧ u.busy = true

/-- R211: reset while BUSY = 1 abandons the operation: no completion step for it happens (the block's turns change
nothing from then on), DONE stays 0, no interrupt is raised and its outputs never become visible. -/
def Obligations.ResetAbandonsTheOperation : Prop :=
  ∀ s : State, s.busy = true →
    blockTurn s.afterReset = .next s.afterReset ∧ s.afterReset.done = false ∧ irq s.afterReset = false ∧
      s.afterReset.out = zeroOutputs ∧ s.afterReset.chkOk = false ∧ s.afterReset.result = .none ∧
      s.afterReset.mem = []

/-- The invariant holds at reset. -/
def Obligations.InvariantHoldsAtReset : Prop := Inv State.reset

/-- Every step keeps the invariant: the buffers stay canonical and inside their mapped parts, BUSY and DONE are never
both 1, the input of an operation in progress stays written, OUT_LEN and FRAME_COUNT stay in bounds with the OBUF bytes
and FDESC entries they cover written, and the result registers agree with RESULT (R28 to R31, R35, R47, R48, R61, R97,
R157, R180, R215, R218). From every state that meets it, whatever its agenda. -/
def Obligations.EveryStepKeepsTheInvariant : Prop :=
  ∀ s t : State, Inv s → step s = .next t → Inv t

/-- R191, R219: an operation in progress is always completed: with an empty agenda the next step answers, and leaves the
block idle with DONE = 1 and a result that is not NONE. -/
def Obligations.OperationInProgressCompletes : Prop :=
  ∀ s : State, Inv s → s.busy = true → s.agenda = [] →
    ∃ t, step s = .next t ∧ t.busy = false ∧ t.done = true ∧ t.result ≠ .none

/-- R99, R219 (how a wait and the block's turn share steps is the model's choice: log entry 7): a `wait` on an operation
in progress ends: within two steps the completion has happened and the host has read STATUS with DONE = 1. -/
def Obligations.WaitEndsAfterTheCompletion : Prop :=
  ∀ (s : State) (rest : List Event), Inv s → s.busy = true → s.agenda = .wait :: rest →
    ∃ t u, step s = .next t ∧ t.busy = false ∧ t.done = true ∧ step t = .next u ∧ u.agenda = rest ∧
      u.readData = statusWord t ∧ u.readData.getLsbD 1 = true

/-- R72 (b): once the block is idle again, every output of the operation is visible: each OBUF byte that OUT_LEN covers
and each FDESC entry that FRAME_COUNT covers can be read. -/
def Obligations.OutputsAreReadableOnceIdle : Prop :=
  ∀ s : State, Inv s → s.busy = false →
    (∀ i, i < s.out.outLen.toNat → ∃ b : Byte, readByte s.mem (obufAddr i) = some b ∧
      busRead (0x20000 + i) 1 s = .next { s with readData := b.setWidth 32 }) ∧
    (∀ k, k < s.out.frameCount.toNat → ∃ d, readDesc s.mem k = some d ∧
      busRead (0x40000 + 4 * k) 4 s = .next { s with readData := d })
end

