-- ==== Sys2Proof/Laws/Bytes.lean ====
section
/-! SUPPORT. The small lemmas of the byte-sequence operations: the checksum fold (40_checksum.md R110, R111), the
searches of 00_scope.md R12, slices, bus lanes and the lengths of the wire formats. -/

namespace Sys2Proof

/-- The fold from any seed is the seed combined with the fold from 0. -/
theorem foldl_xor_seed (s : List Byte) (seed : Byte) :
    s.foldl (fun acc b => acc ^^^ b) seed = seed ^^^ checksum s := by
  induction s generalizing seed with
  | nil => simp [checksum]
  | cons b s ih =>
    have h0 := ih (0 ^^^ b)
    simp only [checksum, List.foldl_cons] at h0 ⊢
    rw [ih, h0]
    simp [checksum, BitVec.xor_assoc]

@[simp] theorem checksum_nil : checksum [] = 0 := rfl

@[simp] theorem checksum_cons (b : Byte) (s : List Byte) : checksum (b :: s) = b ^^^ checksum s := by
  have h := foldl_xor_seed s (0 ^^^ b)
  simpa [checksum] using h

@[simp] theorem checksum_append (s t : List Byte) : checksum (s ++ t) = checksum s ^^^ checksum t := by
  induction s with
  | nil => simp
  | cons b s ih => simp [ih, BitVec.xor_assoc]

/-- A byte equal to the fold of the bytes before it makes the whole fold 0 (R111). -/
theorem checksum_self_append (s : List Byte) : checksum (s ++ [checksum s]) = 0 := by simp

@[simp] theorem commandFrame_length (cmd : Byte) (p : List Byte) :
    (commandFrame cmd p).length = 5 + p.length := by simp [commandFrame]; omega

@[simp] theorem responseFrame_length (st cmd : Byte) (p : List Byte) (k : Byte) :
    (responseFrame st cmd p k).length = 6 + p.length := by simp [responseFrame]; omega

@[simp] theorem streamFrame_length (d : Byte) (an : Channels) : (streamFrame d an).length = 20 := rfl

@[simp] theorem lanes_length (n : Nat) (w : Word) : (lanes n w).length = n := by
  induction n generalizing w with
  | zero => rfl
  | succ n ih => simp [lanes, ih]

/-- The length byte of a payload that fits is the payload's length (R83). -/
theorem lengthByte_toNat {p : List Byte} (h : payloadFits p = true) : (lengthByte p).toNat = p.length := by
  simp [payloadFits] at h
  simp [lengthByte]
  omega

theorem slice_length (s : List Byte) (a b : Nat) (h : b < s.length) :
    (slice s a b).length = b + 1 - a := by
  simp [slice]
  omega

/-- `seek1` finds the first occurrence. -/
theorem seek1_eq_some {b : Byte} {s : List Byte} {j : Nat} :
    seek1 b s = some j ↔ s[j]? = some b ∧ ∀ k, k < j → s[k]? ≠ some b := by
  induction s generalizing j with
  | nil => simp [seek1]
  | cons x xs ih =>
    by_cases hx : x = b
    · subst hx
      cases j with
      | zero => simp [seek1]
      | succ j =>
        simp only [seek1, if_true, Option.some.injEq]
        constructor
        · intro h; omega
        · rintro ⟨-, h⟩; exact absurd (h 0 (by omega)) (by simp)
    · cases j with
      | zero => simp [seek1, hx]
      | succ j =>
        simp only [seek1, hx, if_false, Option.map_eq_some_iff, List.getElem?_cons_succ]
        constructor
        · rintro ⟨i, hi, e⟩
          obtain rfl : i = j := by omega
          obtain ⟨h1, h2⟩ := ih.1 hi
          refine ⟨h1, fun k hk => ?_⟩
          cases k with
          | zero => simpa using hx
          | succ k => simpa using h2 k (by omega)
        · rintro ⟨h1, h2⟩
          refine ⟨j, ih.2 ⟨h1, fun k hk => ?_⟩, rfl⟩
          simpa using h2 (k + 1) (by omega)

/-- `seek2` finds the first pair of neighbours. -/
theorem seek2_eq_some {b0 b1 : Byte} {s : List Byte} {j : Nat} :
    seek2 b0 b1 s = some j ↔ (s[j]? = some b0 ∧ s[j + 1]? = some b1) ∧
      ∀ k, k < j → ¬ (s[k]? = some b0 ∧ s[k + 1]? = some b1) := by
  induction s generalizing j with
  | nil => simp [seek2]
  | cons x xs ih =>
    cases xs with
    | nil => simp [seek2]
    | cons y ys =>
      by_cases hx : x = b0 ∧ y = b1
      · cases j with
        | zero => simp [seek2, hx]
        | succ j =>
          simp only [seek2, hx, and_self, if_true, Option.some.injEq]
          constructor
          · intro h; omega
          · rintro ⟨-, h⟩; exact absurd (h 0 (by omega)) (by simp)
      · cases j with
        | zero => simp [seek2, hx]
        | succ j =>
          simp only [seek2, hx, if_false, Option.map_eq_some_iff, List.getElem?_cons_succ]
          constructor
          · rintro ⟨i, hi, e⟩
            obtain rfl : i = j := by omega
            obtain ⟨h1, h2⟩ := ih.1 hi
            refine ⟨h1, fun k hk => ?_⟩
            cases k with
            | zero => simpa using hx
            | succ k => simpa using h2 k (by omega)
          · rintro ⟨h1, h2⟩
            refine ⟨j, ih.2 ⟨h1, fun k hk => ?_⟩, rfl⟩
            simpa using h2 (k + 1) (by omega)

/-- `find1` answers the least index of R12. -/
theorem find1_eq_some {s : List Byte} {start j : Nat} {b : Byte} :
    find1 s start b = some j ↔ start ≤ j ∧ s[j]? = some b ∧
      ∀ k, start ≤ k → k < j → s[k]? ≠ some b := by
  simp only [find1, Option.map_eq_some_iff, seek1_eq_some, List.getElem?_drop]
  constructor
  · rintro ⟨i, ⟨h1, h2⟩, rfl⟩
    refine ⟨by omega, by rwa [Nat.add_comm], fun k hk1 hk2 => ?_⟩
    have := h2 (k - start) (by omega)
    rwa [show start + (k - start) = k by omega] at this
  · rintro ⟨h0, h1, h2⟩
    refine ⟨j - start, ⟨by rwa [show start + (j - start) = j by omega], fun k hk => ?_⟩, by omega⟩
    exact h2 (start + k) (by omega) (by omega)

/-- `find2` answers the least index of R12. -/
theorem find2_eq_some {s : List Byte} {start j : Nat} {b0 b1 : Byte} :
    find2 s start b0 b1 = some j ↔ start ≤ j ∧ (s[j]? = some b0 ∧ s[j + 1]? = some b1) ∧
      ∀ k, start ≤ k → k < j → ¬ (s[k]? = some b0 ∧ s[k + 1]? = some b1) := by
  simp only [find2, Option.map_eq_some_iff, seek2_eq_some, List.getElem?_drop]
  constructor
  · rintro ⟨i, ⟨h1, h2⟩, rfl⟩
    refine ⟨by omega, by rwa [Nat.add_comm i, show start + i + 1 = start + (i + 1) by omega], ?_⟩
    intro k hk1 hk2
    have := h2 (k - start) (by omega)
    rwa [show start + (k - start) = k by omega, show start + (k - start + 1) = k + 1 by omega] at this
  · rintro ⟨h0, h1, h2⟩
    refine ⟨j - start, ⟨?_, fun k hk => ?_⟩, by omega⟩
    · rwa [show start + (j - start) = j by omega, show start + (j - start + 1) = j + 1 by omega]
    · exact h2 (start + k) (by omega) (by omega)

/-! ### Bus lanes and samples -/

/-- A right shift of a word, bit by bit. -/
theorem getLsbD_shiftRight (w : Word) (n i : Nat) :
    (HShiftRight.hShiftRight (α := Word) (β := Nat) w n).getLsbD i = w.getLsbD (n + i) :=
  BitVec.getLsbD_ushiftRight ..

/-- Bit `i` of a bus word is bit `i % 8` of the byte in lane `i / 8` (R67). -/
theorem ofLanes_getLsbD (bs : List Byte) (i : Nat) (hi : i < 32) :
    (ofLanes bs).getLsbD i = (bs.getD (i / 8) 0).getLsbD (i % 8) := by
  induction bs generalizing i with
  | nil => simp [ofLanes]
  | cons b bs ih =>
    simp only [ofLanes, BitVec.getLsbD_or, BitVec.getLsbD_setWidth, BitVec.getLsbD_shiftLeft, hi,
      decide_true, Bool.true_and]
    by_cases h : i < 8
    · simp [h, Nat.div_eq_of_lt h, Nat.mod_eq_of_lt h]
    · have hd : i / 8 = (i - 8) / 8 + 1 := by omega
      have hm : i % 8 = (i - 8) % 8 := by omega
      rw [ih (i - 8) (by omega), hd, hm]
      simp [h, BitVec.getLsbD_of_ge b i (by omega)]

/-- Lane `j` of a word holds its bits `8j+7 : 8j` (R67). -/
theorem lanes_getElem? {n j : Nat} (w : Word) (hj : j < n) :
    (lanes n w)[j]? = some (w.extractLsb' (8 * j) 8) := by
  induction n generalizing w j with
  | zero => omega
  | succ n ih =>
    cases j with
    | zero =>
      simp only [lanes, List.getElem?_cons_zero]
      rfl
    | succ j =>
      simp only [lanes, List.getElem?_cons_succ]
      rw [ih _ (by omega)]
      congr 1
      apply BitVec.eq_of_getLsbD_eq
      intro i hi
      simp only [BitVec.getLsbD_extractLsb', hi, decide_true, Bool.true_and]
      rw [getLsbD_shiftRight]
      congr 1
      omega

/-- The word made of a word's first `n` lanes is its low `8n` bits (R67). -/
theorem ofLanes_lanes {n : Nat} (w : Word) : ofLanes (lanes n w) = w &&& BitVec.ofNat 32 (2 ^ (8 * n) - 1) := by
  apply BitVec.eq_of_getLsbD_eq
  intro i hi
  rw [ofLanes_getLsbD _ _ hi, BitVec.getLsbD_and, BitVec.getLsbD_ofNat, Nat.testBit_two_pow_sub_one]
  by_cases h : i / 8 < n
  · rw [List.getD_eq_getElem?_getD, lanes_getElem? w h]
    simp only [Option.getD_some, BitVec.getLsbD_extractLsb', Nat.mod_lt i (by decide : 8 > 0), decide_true,
      Bool.true_and]
    rw [show 8 * (i / 8) + i % 8 = i by omega, decide_eq_true (show i < 8 * n by omega), decide_eq_true hi]
    simp
  · rw [List.getD_eq_default _ _ (by simp; omega), decide_eq_false (show ¬ i < 8 * n by omega)]
    simp

/-- All four lanes make the word again. -/
@[simp] theorem ofLanes_lanes_four (w : Word) : ofLanes (lanes 4 w) = w := by
  rw [ofLanes_lanes, show BitVec.ofNat 32 (2 ^ (8 * 4) - 1) = BitVec.allOnes 32 by decide, BitVec.and_allOnes]

/-- A little-endian sample as a number (R87). -/
theorem le16_toNat (a b : Byte) : (le16 a b).toNat = a.toNat + 256 * b.toNat := by
  have ha := a.isLt
  have hb := b.isLt
  rw [le16, BitVec.toNat_or, BitVec.toNat_shiftLeft, BitVec.toNat_setWidth, BitVec.toNat_setWidth,
    Nat.mod_eq_of_lt (show a.toNat < 2 ^ 16 by omega), Nat.mod_eq_of_lt (show b.toNat < 2 ^ 16 by omega),
    Nat.shiftLeft_eq, Nat.mod_eq_of_lt (show b.toNat * 2 ^ 8 < 2 ^ 16 by omega), Nat.or_comm,
    ← Nat.shiftLeft_eq, ← Nat.shiftLeft_add_eq_or_of_lt ha, Nat.shiftLeft_eq]
  omega

/-- The high byte as a number. -/
theorem highByte_toNat (v : Half) : (highByte v).toNat = v.toNat / 256 := by
  have h : (HShiftRight.hShiftRight (α := Half) (β := Nat) v 8).toNat = v.toNat / 256 := by
    rw [BitVec.toNat_ushiftRight, Nat.shiftRight_eq_div_pow]
  have := v.isLt
  rw [highByte, BitVec.toNat_setWidth, h]
  omega

/-- A sample's two bytes make the sample again (R86, R87). -/
@[simp] theorem le16_lowByte_highByte (v : Half) : le16 (lowByte v) (highByte v) = v := by
  apply BitVec.eq_of_toNat_eq
  rw [le16_toNat, highByte_toNat, lowByte, BitVec.toNat_setWidth]
  omega

@[simp] theorem lowByte_le16 (a b : Byte) : lowByte (le16 a b) = a := by
  apply BitVec.eq_of_toNat_eq
  rw [lowByte, BitVec.toNat_setWidth, le16_toNat]
  have := a.isLt
  omega

@[simp] theorem highByte_le16 (a b : Byte) : highByte (le16 a b) = b := by
  apply BitVec.eq_of_toNat_eq
  rw [highByte_toNat, le16_toNat]
  have := a.isLt
  omega

/-- The decoded channels of an encoded frame are its channels (R86, R87). -/
@[simp] theorem samplesOf_streamFrame (digital : Byte) (an : Channels) :
    samplesOf (streamFrame digital an) = an := by
  cases an
  simp [samplesOf, sampleAt, streamFrame, byteAt, sampleBytes]

end Sys2Proof
end

