-- ==== Sys2Proof/Laws/Memory.lean ====
section
/-! SUPPORT. The laws of the buffers: a read after a write, what a write leaves alone, and that every
memory operation keeps the canonical form. -/

namespace Sys2Proof.Machine

/-- A byte written reads back. -/
@[simp] theorem readByte_writeByte_same (m : Memory) (a : Nat) (b : Byte) :
    readByte (writeByte m a b) a = some b := by
  induction m with
  | nil => simp [writeByte, readByte]
  | cons c m ih =>
    obtain ⟨a', b'⟩ := c
    simp only [writeByte]
    split
    · simp [readByte]
    · split
      · simp [readByte]
      · rename_i h1 h2; simp [readByte, h2, ih]

/-- A write leaves every other byte alone. -/
theorem readByte_writeByte_other (m : Memory) {a x : Nat} (b : Byte) (h : x ≠ a) :
    readByte (writeByte m a b) x = readByte m x := by
  induction m with
  | nil => simp [writeByte, readByte, h]
  | cons c m ih =>
    obtain ⟨a', b'⟩ := c
    simp only [writeByte]
    split
    · simp [readByte, h]
    · split
      · subst a; simp [readByte, h]
      · by_cases hx : x = a' <;> simp [readByte, hx, ih]

/-- A run of writes leaves every byte before and after it alone. -/
theorem readByte_writeBytes_outside (m : Memory) (a : Nat) (bs : List Byte) {x : Nat}
    (h : x < a ∨ a + bs.length ≤ x) : readByte (writeBytes m a bs) x = readByte m x := by
  induction bs generalizing m a with
  | nil => rfl
  | cons b bs ih =>
    simp only [List.length_cons] at h
    rw [writeBytes, ih (writeByte m a b) (a + 1) (by omega), readByte_writeByte_other _ _ (by omega)]

/-- Each byte of a run of writes reads back. -/
theorem readByte_writeBytes_inside (m : Memory) (a : Nat) (bs : List Byte) {j : Nat} (h : j < bs.length) :
    readByte (writeBytes m a bs) (a + j) = bs[j]? := by
  induction bs generalizing m a j with
  | nil => simp at h
  | cons b bs ih =>
    rw [writeBytes]
    cases j with
    | zero =>
      rw [readByte_writeBytes_outside _ _ _ (by omega)]
      simp
    | succ j =>
      simp only [List.length_cons] at h
      rw [show a + (j + 1) = a + 1 + j by omega, ih _ _ (by omega)]
      simp

/-- What `readBytes` answers: each byte is written, and in order. -/
theorem readBytes_eq_some {m : Memory} {a n : Nat} {bs : List Byte} :
    readBytes m a n = some bs ↔ bs.length = n ∧ ∀ j, j < n → readByte m (a + j) = bs[j]? := by
  induction n generalizing a bs with
  | zero =>
    simp only [readBytes, Option.some.injEq, Nat.not_lt_zero, false_implies, implies_true, and_true]
    constructor
    · rintro rfl; rfl
    · intro h; exact (List.length_eq_zero_iff.1 h).symm
  | succ n ih =>
    simp only [readBytes]
    constructor
    · intro h
      split at h
      · rename_i b bs' h1 h2
        obtain rfl := Option.some.inj h
        obtain ⟨h3, h4⟩ := ih.1 h2
        refine ⟨by simp [h3], fun j hj => ?_⟩
        cases j with
        | zero => simpa using h1
        | succ j =>
          rw [show a + (j + 1) = a + 1 + j by omega, h4 j (by omega)]
          simp
      · cases h
    · rintro ⟨h1, h2⟩
      cases bs with
      | nil => simp at h1
      | cons b bs =>
        have h3 : readByte m a = some b := by simpa using h2 0 (by omega)
        have h4 : readBytes m (a + 1) n = some bs := ih.2 ⟨by simpa using h1, fun j hj => by
          rw [show a + 1 + j = a + (j + 1) by omega, h2 (j + 1) (by omega)]; simp⟩
        simp [h3, h4]

/-- A run of bytes can be read exactly when each of its bytes is written. -/
theorem readBytes_isSome {m : Memory} {a n : Nat} :
    (readBytes m a n).isSome = true ↔ ∀ j, j < n → (readByte m (a + j)).isSome = true := by
  induction n generalizing a with
  | zero => simp [readBytes]
  | succ n ih =>
    simp only [readBytes]
    constructor
    · intro h
      split at h
      · rename_i b bs h1 h2
        intro j hj
        cases j with
        | zero => simp [h1]
        | succ j =>
          rw [show a + (j + 1) = a + 1 + j by omega]
          exact ih.1 (by simp [h2]) j (by omega)
      · simp at h
    · intro h
      obtain ⟨b, hb⟩ := Option.isSome_iff_exists.1 (h 0 (by omega))
      obtain ⟨bs, hbs⟩ := Option.isSome_iff_exists.1 (ih.2 (fun j hj => by
        rw [show a + 1 + j = a + (j + 1) by omega]; exact h (j + 1) (by omega)))
      simp only [Nat.add_zero] at hb
      simp [hb, hbs]

/-- A read of bytes that are the same in two memories is the same. -/
theorem readBytes_congr {m m' : Memory} {a n : Nat}
    (h : ∀ j, j < n → readByte m (a + j) = readByte m' (a + j)) : readBytes m a n = readBytes m' a n := by
  induction n generalizing a with
  | zero => rfl
  | succ n ih =>
    have h0 : readByte m a = readByte m' a := by simpa using h 0 (by omega)
    have h1 : readBytes m (a + 1) n = readBytes m' (a + 1) n := ih (fun j hj => by
      rw [show a + 1 + j = a + (j + 1) by omega]; exact h (j + 1) (by omega))
    simp only [readBytes, h0, h1]

/-- A run of bytes written reads back whole. -/
@[simp] theorem readBytes_writeBytes_same (m : Memory) (a : Nat) (bs : List Byte) :
    readBytes (writeBytes m a bs) a bs.length = some bs :=
  readBytes_eq_some.2 ⟨rfl, fun _ hj => readByte_writeBytes_inside m a bs hj⟩

/-- A read that shares no byte with a run of writes is not changed by it. -/
theorem readBytes_writeBytes_outside (m : Memory) {a n x : Nat} (bs : List Byte)
    (h : x + n ≤ a ∨ a + bs.length ≤ x) : readBytes (writeBytes m a bs) x n = readBytes m x n :=
  readBytes_congr fun j hj => readByte_writeBytes_outside m a bs (by omega)

/-- A byte once written stays written under a run of writes. -/
theorem readByte_writeBytes_isSome {m : Memory} {a x : Nat} {bs : List Byte}
    (h : (readByte m x).isSome = true) : (readByte (writeBytes m a bs) x).isSome = true := by
  by_cases hx : x < a ∨ a + bs.length ≤ x
  · rwa [readByte_writeBytes_outside m a bs hx]
  · have := readByte_writeBytes_inside m a bs (j := x - a) (by omega)
    rw [show a + (x - a) = x by omega] at this
    rw [this, List.getElem?_eq_getElem (by omega)]
    rfl

/-- In a memory whose first entry is at `a`, the canonical form says that the rest is canonical and lies
after `a`. -/
theorem memoryWf_cons {a : Nat} {b : Byte} {m : Memory} :
    memoryWf ((a, b) :: m) = true ↔ memoryWf m = true ∧ ∀ c ∈ m.head?, a < c.1 := by
  cases m with
  | nil => simp [memoryWf]
  | cons c m =>
    obtain ⟨a', b'⟩ := c
    simp only [memoryWf, Bool.and_eq_true, decide_eq_true_eq, List.head?_cons, Option.mem_def,
      Option.some.injEq, forall_eq']
    tauto

/-- Writing a byte keeps the canonical form. -/
theorem memoryWf_writeByte {m : Memory} (a : Nat) (b : Byte) (h : memoryWf m = true) :
    memoryWf (writeByte m a b) = true := by
  induction m with
  | nil => rfl
  | cons c m ih =>
    obtain ⟨a', b'⟩ := c
    rw [memoryWf_cons] at h
    simp only [writeByte]
    split
    · rename_i h1
      rw [memoryWf_cons, memoryWf_cons]
      exact ⟨h, by simpa using h1⟩
    · split
      · subst a; rw [memoryWf_cons]; exact h
      · rename_i h1 h2
        rw [memoryWf_cons]
        refine ⟨ih h.1, ?_⟩
        cases m with
        | nil => simp [writeByte]; omega
        | cons c m =>
          obtain ⟨a2, b2⟩ := c
          have h3 : a' < a2 := h.2 (a2, b2) (by simp)
          simp only [writeByte]
          split
          · simp; omega
          · split
            · simp; omega
            · simpa using h3

/-- Writing a run of bytes keeps the canonical form. -/
theorem memoryWf_writeBytes {m : Memory} (a : Nat) (bs : List Byte) (h : memoryWf m = true) :
    memoryWf (writeBytes m a bs) = true := by
  induction bs generalizing m a with
  | nil => exact h
  | cons b bs ih => exact ih _ (memoryWf_writeByte a b h)

/-- Writing OBUF keeps the canonical form. -/
theorem memoryWf_writeObuf {m : Memory} (bs : List Byte) (h : memoryWf m = true) :
    memoryWf (writeObuf m bs) = true := memoryWf_writeBytes _ _ h

/-- Writing FDESC keeps the canonical form. -/
theorem memoryWf_writeFdesc {m : Memory} (ws : List Word) (h : memoryWf m = true) :
    memoryWf (writeFdesc m ws) = true := memoryWf_writeBytes _ _ h

@[simp] theorem descBytes_length (ws : List Word) : (descBytes ws).length = 4 * ws.length := by
  induction ws with
  | nil => rfl
  | cons w ws ih => simp [descBytes, lanes, ih]; omega

@[simp] theorem writeObuf_nil (m : Memory) : writeObuf m [] = m := rfl

@[simp] theorem writeFdesc_nil (m : Memory) : writeFdesc m [] = m := rfl

/-- IBUF has at least `n` bytes exactly when `n <= IBUF_BYTES` (R8). -/
theorem ibufHolds_iff (n : Nat) : ibufHolds n = true ↔ n ≤ Config.ibufBytes := by
  rw [ibufHolds, decide_eq_true_iff, Config.ibufBytes]
  omega

/-- FDESC has an entry `k` exactly when `k < FDESC_ENTRIES` (R8). -/
theorem fdescHolds_iff (k : Nat) : fdescHolds k = true ↔ k < Config.fdescEntries := by
  simp only [fdescHolds, ibufHolds_iff, Config.fdescEntries]
  omega

/-- IBUF_BYTES lies in its domain (R8). -/
theorem ibufBytes_domain : 261 ≤ Config.ibufBytes ∧ Config.ibufBytes ≤ 65535 := by
  have := Config.ibufSpare.isLt
  rw [Config.ibufBytes]
  omega

/-- The range check is that of R188. -/
theorem rangeFits_iff (off len : Half) :
    rangeFits off len = true ↔ off.toNat + len.toNat ≤ Config.ibufBytes := ibufHolds_iff _

/-! ### Descriptors -/

/-- Byte `j` of descriptor `k` stands at `4k + j` of the table's bytes (R48, R67). -/
theorem descBytes_getElem? {ws : List Word} {k j : Nat} {w : Word} (h : ws[k]? = some w) (hj : j < 4) :
    (descBytes ws)[4 * k + j]? = (lanes 4 w)[j]? := by
  induction ws generalizing k with
  | nil => simp at h
  | cons x xs ih =>
    cases k with
    | zero =>
      obtain rfl : x = w := by simpa using h
      rw [descBytes, List.getElem?_append_left (by simp; omega)]
      simp
    | succ k =>
      rw [descBytes, List.getElem?_append_right (by simp; omega),
        show 4 * (k + 1) + j - (lanes 4 x).length = 4 * k + j by simp; omega]
      exact ih (by simpa using h)

/-- A descriptor written reads back. -/
theorem readDesc_writeFdesc (m : Memory) {ws : List Word} {k : Nat} {w : Word} (h : ws[k]? = some w) :
    readDesc (writeFdesc m ws) k = some w := by
  have hk : k < ws.length := (List.getElem?_eq_some_iff.1 h).1
  have hb : readBytes (writeFdesc m ws) (fdescAddr k) 4 = some (lanes 4 w) := by
    rw [readBytes_eq_some]
    refine ⟨by simp, fun j hj => ?_⟩
    rw [← descBytes_getElem? h hj]
    have hr := readByte_writeBytes_inside m (fdescAddr 0) (descBytes ws) (j := 4 * k + j) (by simp; omega)
    rwa [show fdescAddr 0 + (4 * k + j) = fdescAddr k + j by simp [fdescAddr]; omega] at hr
  rw [readDesc, hb, Option.map_some, ofLanes_lanes_four]

end Sys2Proof.Machine
end

