-- ==== Sys2Proof/Laws/State.lean ====
section
/-! SUPPORT. What each named update of the state does to each field: a field it writes, and every field it
leaves alone. All are true by definition, so no later proof unfolds a record update. -/

namespace Sys2Proof.Machine

/-! ### `popped`: the agenda after its first event -/

@[simp] theorem State.popped_irqEn (s : State) (rest : List Event) : (s.popped rest).irqEn = s.irqEn := rfl
@[simp] theorem State.popped_op (s : State) (rest : List Event) : (s.popped rest).op = s.op := rfl
@[simp] theorem State.popped_busy (s : State) (rest : List Event) : (s.popped rest).busy = s.busy := rfl
@[simp] theorem State.popped_done (s : State) (rest : List Event) : (s.popped rest).done = s.done := rfl
@[simp] theorem State.popped_result (s : State) (rest : List Event) : (s.popped rest).result = s.result := rfl
@[simp] theorem State.popped_chkOk (s : State) (rest : List Event) : (s.popped rest).chkOk = s.chkOk := rfl
@[simp] theorem State.popped_inOff (s : State) (rest : List Event) : (s.popped rest).inOff = s.inOff := rfl
@[simp] theorem State.popped_inLen (s : State) (rest : List Event) : (s.popped rest).inLen = s.inLen := rfl
@[simp] theorem State.popped_arg (s : State) (rest : List Event) : (s.popped rest).arg = s.arg := rfl
@[simp] theorem State.popped_out (s : State) (rest : List Event) : (s.popped rest).out = s.out := rfl
@[simp] theorem State.popped_opL (s : State) (rest : List Event) : (s.popped rest).opL = s.opL := rfl
@[simp] theorem State.popped_inOffL (s : State) (rest : List Event) : (s.popped rest).inOffL = s.inOffL := rfl
@[simp] theorem State.popped_inLenL (s : State) (rest : List Event) : (s.popped rest).inLenL = s.inLenL := rfl
@[simp] theorem State.popped_argL (s : State) (rest : List Event) : (s.popped rest).argL = s.argL := rfl
@[simp] theorem State.popped_scanCursor (s : State) (rest : List Event) : (s.popped rest).scanCursor = s.scanCursor := rfl
@[simp] theorem State.popped_mem (s : State) (rest : List Event) : (s.popped rest).mem = s.mem := rfl
@[simp] theorem State.popped_agenda (s : State) (rest : List Event) : (s.popped rest).agenda = rest := rfl
@[simp] theorem State.popped_readData (s : State) (rest : List Event) : (s.popped rest).readData = s.readData := rfl
@[simp] theorem State.popped_draws (s : State) (rest : List Event) : (s.popped rest).draws = s.draws := rfl

/-! ### `withControl`: a CTRL write with START = 0 -/

@[simp] theorem State.withControl_irqEn (s : State) (op : BitVec 4) (irqEn : Bool) : (s.withControl op irqEn).irqEn = irqEn := rfl
@[simp] theorem State.withControl_op (s : State) (op : BitVec 4) (irqEn : Bool) : (s.withControl op irqEn).op = op := rfl
@[simp] theorem State.withControl_busy (s : State) (op : BitVec 4) (irqEn : Bool) : (s.withControl op irqEn).busy = s.busy := rfl
@[simp] theorem State.withControl_done (s : State) (op : BitVec 4) (irqEn : Bool) : (s.withControl op irqEn).done = s.done := rfl
@[simp] theorem State.withControl_result (s : State) (op : BitVec 4) (irqEn : Bool) : (s.withControl op irqEn).result = s.result := rfl
@[simp] theorem State.withControl_chkOk (s : State) (op : BitVec 4) (irqEn : Bool) : (s.withControl op irqEn).chkOk = s.chkOk := rfl
@[simp] theorem State.withControl_inOff (s : State) (op : BitVec 4) (irqEn : Bool) : (s.withControl op irqEn).inOff = s.inOff := rfl
@[simp] theorem State.withControl_inLen (s : State) (op : BitVec 4) (irqEn : Bool) : (s.withControl op irqEn).inLen = s.inLen := rfl
@[simp] theorem State.withControl_arg (s : State) (op : BitVec 4) (irqEn : Bool) : (s.withControl op irqEn).arg = s.arg := rfl
@[simp] theorem State.withControl_out (s : State) (op : BitVec 4) (irqEn : Bool) : (s.withControl op irqEn).out = s.out := rfl
@[simp] theorem State.withControl_opL (s : State) (op : BitVec 4) (irqEn : Bool) : (s.withControl op irqEn).opL = s.opL := rfl
@[simp] theorem State.withControl_inOffL (s : State) (op : BitVec 4) (irqEn : Bool) : (s.withControl op irqEn).inOffL = s.inOffL := rfl
@[simp] theorem State.withControl_inLenL (s : State) (op : BitVec 4) (irqEn : Bool) : (s.withControl op irqEn).inLenL = s.inLenL := rfl
@[simp] theorem State.withControl_argL (s : State) (op : BitVec 4) (irqEn : Bool) : (s.withControl op irqEn).argL = s.argL := rfl
@[simp] theorem State.withControl_scanCursor (s : State) (op : BitVec 4) (irqEn : Bool) : (s.withControl op irqEn).scanCursor = s.scanCursor := rfl
@[simp] theorem State.withControl_mem (s : State) (op : BitVec 4) (irqEn : Bool) : (s.withControl op irqEn).mem = s.mem := rfl
@[simp] theorem State.withControl_agenda (s : State) (op : BitVec 4) (irqEn : Bool) : (s.withControl op irqEn).agenda = s.agenda := rfl
@[simp] theorem State.withControl_readData (s : State) (op : BitVec 4) (irqEn : Bool) : (s.withControl op irqEn).readData = s.readData := rfl
@[simp] theorem State.withControl_draws (s : State) (op : BitVec 4) (irqEn : Bool) : (s.withControl op irqEn).draws = s.draws := rfl

/-! ### `acknowledged`: the DONE acknowledge -/

@[simp] theorem State.acknowledged_irqEn (s : State) : s.acknowledged.irqEn = s.irqEn := rfl
@[simp] theorem State.acknowledged_op (s : State) : s.acknowledged.op = s.op := rfl
@[simp] theorem State.acknowledged_busy (s : State) : s.acknowledged.busy = s.busy := rfl
@[simp] theorem State.acknowledged_done (s : State) : s.acknowledged.done = false := rfl
@[simp] theorem State.acknowledged_result (s : State) : s.acknowledged.result = s.result := rfl
@[simp] theorem State.acknowledged_chkOk (s : State) : s.acknowledged.chkOk = s.chkOk := rfl
@[simp] theorem State.acknowledged_inOff (s : State) : s.acknowledged.inOff = s.inOff := rfl
@[simp] theorem State.acknowledged_inLen (s : State) : s.acknowledged.inLen = s.inLen := rfl
@[simp] theorem State.acknowledged_arg (s : State) : s.acknowledged.arg = s.arg := rfl
@[simp] theorem State.acknowledged_out (s : State) : s.acknowledged.out = s.out := rfl
@[simp] theorem State.acknowledged_opL (s : State) : s.acknowledged.opL = s.opL := rfl
@[simp] theorem State.acknowledged_inOffL (s : State) : s.acknowledged.inOffL = s.inOffL := rfl
@[simp] theorem State.acknowledged_inLenL (s : State) : s.acknowledged.inLenL = s.inLenL := rfl
@[simp] theorem State.acknowledged_argL (s : State) : s.acknowledged.argL = s.argL := rfl
@[simp] theorem State.acknowledged_scanCursor (s : State) : s.acknowledged.scanCursor = s.scanCursor := rfl
@[simp] theorem State.acknowledged_mem (s : State) : s.acknowledged.mem = s.mem := rfl
@[simp] theorem State.acknowledged_agenda (s : State) : s.acknowledged.agenda = s.agenda := rfl
@[simp] theorem State.acknowledged_readData (s : State) : s.acknowledged.readData = s.readData := rfl
@[simp] theorem State.acknowledged_draws (s : State) : s.acknowledged.draws = s.draws := rfl

/-! ### `withInOff`: a write of IN_OFF -/

@[simp] theorem State.withInOff_irqEn (s : State) (v : Half) : (s.withInOff v).irqEn = s.irqEn := rfl
@[simp] theorem State.withInOff_op (s : State) (v : Half) : (s.withInOff v).op = s.op := rfl
@[simp] theorem State.withInOff_busy (s : State) (v : Half) : (s.withInOff v).busy = s.busy := rfl
@[simp] theorem State.withInOff_done (s : State) (v : Half) : (s.withInOff v).done = s.done := rfl
@[simp] theorem State.withInOff_result (s : State) (v : Half) : (s.withInOff v).result = s.result := rfl
@[simp] theorem State.withInOff_chkOk (s : State) (v : Half) : (s.withInOff v).chkOk = s.chkOk := rfl
@[simp] theorem State.withInOff_inOff (s : State) (v : Half) : (s.withInOff v).inOff = v := rfl
@[simp] theorem State.withInOff_inLen (s : State) (v : Half) : (s.withInOff v).inLen = s.inLen := rfl
@[simp] theorem State.withInOff_arg (s : State) (v : Half) : (s.withInOff v).arg = s.arg := rfl
@[simp] theorem State.withInOff_out (s : State) (v : Half) : (s.withInOff v).out = s.out := rfl
@[simp] theorem State.withInOff_opL (s : State) (v : Half) : (s.withInOff v).opL = s.opL := rfl
@[simp] theorem State.withInOff_inOffL (s : State) (v : Half) : (s.withInOff v).inOffL = s.inOffL := rfl
@[simp] theorem State.withInOff_inLenL (s : State) (v : Half) : (s.withInOff v).inLenL = s.inLenL := rfl
@[simp] theorem State.withInOff_argL (s : State) (v : Half) : (s.withInOff v).argL = s.argL := rfl
@[simp] theorem State.withInOff_scanCursor (s : State) (v : Half) : (s.withInOff v).scanCursor = s.scanCursor := rfl
@[simp] theorem State.withInOff_mem (s : State) (v : Half) : (s.withInOff v).mem = s.mem := rfl
@[simp] theorem State.withInOff_agenda (s : State) (v : Half) : (s.withInOff v).agenda = s.agenda := rfl
@[simp] theorem State.withInOff_readData (s : State) (v : Half) : (s.withInOff v).readData = s.readData := rfl
@[simp] theorem State.withInOff_draws (s : State) (v : Half) : (s.withInOff v).draws = s.draws := rfl

/-! ### `withInLen`: a write of IN_LEN -/

@[simp] theorem State.withInLen_irqEn (s : State) (v : Half) : (s.withInLen v).irqEn = s.irqEn := rfl
@[simp] theorem State.withInLen_op (s : State) (v : Half) : (s.withInLen v).op = s.op := rfl
@[simp] theorem State.withInLen_busy (s : State) (v : Half) : (s.withInLen v).busy = s.busy := rfl
@[simp] theorem State.withInLen_done (s : State) (v : Half) : (s.withInLen v).done = s.done := rfl
@[simp] theorem State.withInLen_result (s : State) (v : Half) : (s.withInLen v).result = s.result := rfl
@[simp] theorem State.withInLen_chkOk (s : State) (v : Half) : (s.withInLen v).chkOk = s.chkOk := rfl
@[simp] theorem State.withInLen_inOff (s : State) (v : Half) : (s.withInLen v).inOff = s.inOff := rfl
@[simp] theorem State.withInLen_inLen (s : State) (v : Half) : (s.withInLen v).inLen = v := rfl
@[simp] theorem State.withInLen_arg (s : State) (v : Half) : (s.withInLen v).arg = s.arg := rfl
@[simp] theorem State.withInLen_out (s : State) (v : Half) : (s.withInLen v).out = s.out := rfl
@[simp] theorem State.withInLen_opL (s : State) (v : Half) : (s.withInLen v).opL = s.opL := rfl
@[simp] theorem State.withInLen_inOffL (s : State) (v : Half) : (s.withInLen v).inOffL = s.inOffL := rfl
@[simp] theorem State.withInLen_inLenL (s : State) (v : Half) : (s.withInLen v).inLenL = s.inLenL := rfl
@[simp] theorem State.withInLen_argL (s : State) (v : Half) : (s.withInLen v).argL = s.argL := rfl
@[simp] theorem State.withInLen_scanCursor (s : State) (v : Half) : (s.withInLen v).scanCursor = s.scanCursor := rfl
@[simp] theorem State.withInLen_mem (s : State) (v : Half) : (s.withInLen v).mem = s.mem := rfl
@[simp] theorem State.withInLen_agenda (s : State) (v : Half) : (s.withInLen v).agenda = s.agenda := rfl
@[simp] theorem State.withInLen_readData (s : State) (v : Half) : (s.withInLen v).readData = s.readData := rfl
@[simp] theorem State.withInLen_draws (s : State) (v : Half) : (s.withInLen v).draws = s.draws := rfl

/-! ### `withArg`: a write of ARG -/

@[simp] theorem State.withArg_irqEn (s : State) (v : Byte) : (s.withArg v).irqEn = s.irqEn := rfl
@[simp] theorem State.withArg_op (s : State) (v : Byte) : (s.withArg v).op = s.op := rfl
@[simp] theorem State.withArg_busy (s : State) (v : Byte) : (s.withArg v).busy = s.busy := rfl
@[simp] theorem State.withArg_done (s : State) (v : Byte) : (s.withArg v).done = s.done := rfl
@[simp] theorem State.withArg_result (s : State) (v : Byte) : (s.withArg v).result = s.result := rfl
@[simp] theorem State.withArg_chkOk (s : State) (v : Byte) : (s.withArg v).chkOk = s.chkOk := rfl
@[simp] theorem State.withArg_inOff (s : State) (v : Byte) : (s.withArg v).inOff = s.inOff := rfl
@[simp] theorem State.withArg_inLen (s : State) (v : Byte) : (s.withArg v).inLen = s.inLen := rfl
@[simp] theorem State.withArg_arg (s : State) (v : Byte) : (s.withArg v).arg = v := rfl
@[simp] theorem State.withArg_out (s : State) (v : Byte) : (s.withArg v).out = s.out := rfl
@[simp] theorem State.withArg_opL (s : State) (v : Byte) : (s.withArg v).opL = s.opL := rfl
@[simp] theorem State.withArg_inOffL (s : State) (v : Byte) : (s.withArg v).inOffL = s.inOffL := rfl
@[simp] theorem State.withArg_inLenL (s : State) (v : Byte) : (s.withArg v).inLenL = s.inLenL := rfl
@[simp] theorem State.withArg_argL (s : State) (v : Byte) : (s.withArg v).argL = s.argL := rfl
@[simp] theorem State.withArg_scanCursor (s : State) (v : Byte) : (s.withArg v).scanCursor = s.scanCursor := rfl
@[simp] theorem State.withArg_mem (s : State) (v : Byte) : (s.withArg v).mem = s.mem := rfl
@[simp] theorem State.withArg_agenda (s : State) (v : Byte) : (s.withArg v).agenda = s.agenda := rfl
@[simp] theorem State.withArg_readData (s : State) (v : Byte) : (s.withArg v).readData = s.readData := rfl
@[simp] theorem State.withArg_draws (s : State) (v : Byte) : (s.withArg v).draws = s.draws := rfl

/-! ### `withMem`: the buffers replaced -/

@[simp] theorem State.withMem_irqEn (s : State) (m : Memory) : (s.withMem m).irqEn = s.irqEn := rfl
@[simp] theorem State.withMem_op (s : State) (m : Memory) : (s.withMem m).op = s.op := rfl
@[simp] theorem State.withMem_busy (s : State) (m : Memory) : (s.withMem m).busy = s.busy := rfl
@[simp] theorem State.withMem_done (s : State) (m : Memory) : (s.withMem m).done = s.done := rfl
@[simp] theorem State.withMem_result (s : State) (m : Memory) : (s.withMem m).result = s.result := rfl
@[simp] theorem State.withMem_chkOk (s : State) (m : Memory) : (s.withMem m).chkOk = s.chkOk := rfl
@[simp] theorem State.withMem_inOff (s : State) (m : Memory) : (s.withMem m).inOff = s.inOff := rfl
@[simp] theorem State.withMem_inLen (s : State) (m : Memory) : (s.withMem m).inLen = s.inLen := rfl
@[simp] theorem State.withMem_arg (s : State) (m : Memory) : (s.withMem m).arg = s.arg := rfl
@[simp] theorem State.withMem_out (s : State) (m : Memory) : (s.withMem m).out = s.out := rfl
@[simp] theorem State.withMem_opL (s : State) (m : Memory) : (s.withMem m).opL = s.opL := rfl
@[simp] theorem State.withMem_inOffL (s : State) (m : Memory) : (s.withMem m).inOffL = s.inOffL := rfl
@[simp] theorem State.withMem_inLenL (s : State) (m : Memory) : (s.withMem m).inLenL = s.inLenL := rfl
@[simp] theorem State.withMem_argL (s : State) (m : Memory) : (s.withMem m).argL = s.argL := rfl
@[simp] theorem State.withMem_scanCursor (s : State) (m : Memory) : (s.withMem m).scanCursor = s.scanCursor := rfl
@[simp] theorem State.withMem_mem (s : State) (m : Memory) : (s.withMem m).mem = m := rfl
@[simp] theorem State.withMem_agenda (s : State) (m : Memory) : (s.withMem m).agenda = s.agenda := rfl
@[simp] theorem State.withMem_readData (s : State) (m : Memory) : (s.withMem m).readData = s.readData := rfl
@[simp] theorem State.withMem_draws (s : State) (m : Memory) : (s.withMem m).draws = s.draws := rfl

/-! ### `withReadData`: what a host read returned -/

@[simp] theorem State.withReadData_irqEn (s : State) (v : Word) : (s.withReadData v).irqEn = s.irqEn := rfl
@[simp] theorem State.withReadData_op (s : State) (v : Word) : (s.withReadData v).op = s.op := rfl
@[simp] theorem State.withReadData_busy (s : State) (v : Word) : (s.withReadData v).busy = s.busy := rfl
@[simp] theorem State.withReadData_done (s : State) (v : Word) : (s.withReadData v).done = s.done := rfl
@[simp] theorem State.withReadData_result (s : State) (v : Word) : (s.withReadData v).result = s.result := rfl
@[simp] theorem State.withReadData_chkOk (s : State) (v : Word) : (s.withReadData v).chkOk = s.chkOk := rfl
@[simp] theorem State.withReadData_inOff (s : State) (v : Word) : (s.withReadData v).inOff = s.inOff := rfl
@[simp] theorem State.withReadData_inLen (s : State) (v : Word) : (s.withReadData v).inLen = s.inLen := rfl
@[simp] theorem State.withReadData_arg (s : State) (v : Word) : (s.withReadData v).arg = s.arg := rfl
@[simp] theorem State.withReadData_out (s : State) (v : Word) : (s.withReadData v).out = s.out := rfl
@[simp] theorem State.withReadData_opL (s : State) (v : Word) : (s.withReadData v).opL = s.opL := rfl
@[simp] theorem State.withReadData_inOffL (s : State) (v : Word) : (s.withReadData v).inOffL = s.inOffL := rfl
@[simp] theorem State.withReadData_inLenL (s : State) (v : Word) : (s.withReadData v).inLenL = s.inLenL := rfl
@[simp] theorem State.withReadData_argL (s : State) (v : Word) : (s.withReadData v).argL = s.argL := rfl
@[simp] theorem State.withReadData_scanCursor (s : State) (v : Word) : (s.withReadData v).scanCursor = s.scanCursor := rfl
@[simp] theorem State.withReadData_mem (s : State) (v : Word) : (s.withReadData v).mem = s.mem := rfl
@[simp] theorem State.withReadData_agenda (s : State) (v : Word) : (s.withReadData v).agenda = s.agenda := rfl
@[simp] theorem State.withReadData_readData (s : State) (v : Word) : (s.withReadData v).readData = v := rfl
@[simp] theorem State.withReadData_draws (s : State) (v : Word) : (s.withReadData v).draws = s.draws := rfl

/-! ### `drew`: a host read that drew a free value -/

@[simp] theorem State.drew_irqEn (s : State) (v : Word) : (s.drew v).irqEn = s.irqEn := rfl
@[simp] theorem State.drew_op (s : State) (v : Word) : (s.drew v).op = s.op := rfl
@[simp] theorem State.drew_busy (s : State) (v : Word) : (s.drew v).busy = s.busy := rfl
@[simp] theorem State.drew_done (s : State) (v : Word) : (s.drew v).done = s.done := rfl
@[simp] theorem State.drew_result (s : State) (v : Word) : (s.drew v).result = s.result := rfl
@[simp] theorem State.drew_chkOk (s : State) (v : Word) : (s.drew v).chkOk = s.chkOk := rfl
@[simp] theorem State.drew_inOff (s : State) (v : Word) : (s.drew v).inOff = s.inOff := rfl
@[simp] theorem State.drew_inLen (s : State) (v : Word) : (s.drew v).inLen = s.inLen := rfl
@[simp] theorem State.drew_arg (s : State) (v : Word) : (s.drew v).arg = s.arg := rfl
@[simp] theorem State.drew_out (s : State) (v : Word) : (s.drew v).out = s.out := rfl
@[simp] theorem State.drew_opL (s : State) (v : Word) : (s.drew v).opL = s.opL := rfl
@[simp] theorem State.drew_inOffL (s : State) (v : Word) : (s.drew v).inOffL = s.inOffL := rfl
@[simp] theorem State.drew_inLenL (s : State) (v : Word) : (s.drew v).inLenL = s.inLenL := rfl
@[simp] theorem State.drew_argL (s : State) (v : Word) : (s.drew v).argL = s.argL := rfl
@[simp] theorem State.drew_scanCursor (s : State) (v : Word) : (s.drew v).scanCursor = s.scanCursor := rfl
@[simp] theorem State.drew_mem (s : State) (v : Word) : (s.drew v).mem = s.mem := rfl
@[simp] theorem State.drew_agenda (s : State) (v : Word) : (s.drew v).agenda = s.agenda := rfl
@[simp] theorem State.drew_readData (s : State) (v : Word) : (s.drew v).readData = v := rfl
@[simp] theorem State.drew_draws (s : State) (v : Word) : (s.drew v).draws = s.draws + 1 := rfl

/-! ### `started`: the start step -/

@[simp] theorem State.started_irqEn (s : State) (op : BitVec 4) (irqEn : Bool) : (s.started op irqEn).irqEn = irqEn := rfl
@[simp] theorem State.started_op (s : State) (op : BitVec 4) (irqEn : Bool) : (s.started op irqEn).op = op := rfl
@[simp] theorem State.started_busy (s : State) (op : BitVec 4) (irqEn : Bool) : (s.started op irqEn).busy = true := rfl
@[simp] theorem State.started_done (s : State) (op : BitVec 4) (irqEn : Bool) : (s.started op irqEn).done = false := rfl
@[simp] theorem State.started_result (s : State) (op : BitVec 4) (irqEn : Bool) : (s.started op irqEn).result = s.result := rfl
@[simp] theorem State.started_chkOk (s : State) (op : BitVec 4) (irqEn : Bool) : (s.started op irqEn).chkOk = s.chkOk := rfl
@[simp] theorem State.started_inOff (s : State) (op : BitVec 4) (irqEn : Bool) : (s.started op irqEn).inOff = s.inOff := rfl
@[simp] theorem State.started_inLen (s : State) (op : BitVec 4) (irqEn : Bool) : (s.started op irqEn).inLen = s.inLen := rfl
@[simp] theorem State.started_arg (s : State) (op : BitVec 4) (irqEn : Bool) : (s.started op irqEn).arg = s.arg := rfl
@[simp] theorem State.started_out (s : State) (op : BitVec 4) (irqEn : Bool) : (s.started op irqEn).out = s.out := rfl
@[simp] theorem State.started_opL (s : State) (op : BitVec 4) (irqEn : Bool) : (s.started op irqEn).opL = op := rfl
@[simp] theorem State.started_inOffL (s : State) (op : BitVec 4) (irqEn : Bool) : (s.started op irqEn).inOffL = s.inOff := rfl
@[simp] theorem State.started_inLenL (s : State) (op : BitVec 4) (irqEn : Bool) : (s.started op irqEn).inLenL = s.inLen := rfl
@[simp] theorem State.started_argL (s : State) (op : BitVec 4) (irqEn : Bool) : (s.started op irqEn).argL = s.arg := rfl
@[simp] theorem State.started_scanCursor (s : State) (op : BitVec 4) (irqEn : Bool) : (s.started op irqEn).scanCursor = s.scanCursor := rfl
@[simp] theorem State.started_mem (s : State) (op : BitVec 4) (irqEn : Bool) : (s.started op irqEn).mem = s.mem := rfl
@[simp] theorem State.started_agenda (s : State) (op : BitVec 4) (irqEn : Bool) : (s.started op irqEn).agenda = s.agenda := rfl
@[simp] theorem State.started_readData (s : State) (op : BitVec 4) (irqEn : Bool) : (s.started op irqEn).readData = s.readData := rfl
@[simp] theorem State.started_draws (s : State) (op : BitVec 4) (irqEn : Bool) : (s.started op irqEn).draws = s.draws := rfl

/-! ### `completed`: the completion step -/

@[simp] theorem State.completed_irqEn (s : State) (e : Effects) : (s.completed e).irqEn = s.irqEn := rfl
@[simp] theorem State.completed_op (s : State) (e : Effects) : (s.completed e).op = s.op := rfl
@[simp] theorem State.completed_busy (s : State) (e : Effects) : (s.completed e).busy = false := rfl
@[simp] theorem State.completed_done (s : State) (e : Effects) : (s.completed e).done = true := rfl
@[simp] theorem State.completed_result (s : State) (e : Effects) : (s.completed e).result = e.code := rfl
@[simp] theorem State.completed_chkOk (s : State) (e : Effects) : (s.completed e).chkOk = e.chkOk := rfl
@[simp] theorem State.completed_inOff (s : State) (e : Effects) : (s.completed e).inOff = s.inOff := rfl
@[simp] theorem State.completed_inLen (s : State) (e : Effects) : (s.completed e).inLen = s.inLen := rfl
@[simp] theorem State.completed_arg (s : State) (e : Effects) : (s.completed e).arg = s.arg := rfl
@[simp] theorem State.completed_out (s : State) (e : Effects) : (s.completed e).out = e.out := rfl
@[simp] theorem State.completed_opL (s : State) (e : Effects) : (s.completed e).opL = s.opL := rfl
@[simp] theorem State.completed_inOffL (s : State) (e : Effects) : (s.completed e).inOffL = s.inOffL := rfl
@[simp] theorem State.completed_inLenL (s : State) (e : Effects) : (s.completed e).inLenL = s.inLenL := rfl
@[simp] theorem State.completed_argL (s : State) (e : Effects) : (s.completed e).argL = s.argL := rfl
@[simp] theorem State.completed_scanCursor (s : State) (e : Effects) : (s.completed e).scanCursor = e.cursor.getD s.scanCursor := rfl
@[simp] theorem State.completed_mem (s : State) (e : Effects) : (s.completed e).mem = writeFdesc (writeObuf s.mem e.obuf) e.fdesc := rfl
@[simp] theorem State.completed_agenda (s : State) (e : Effects) : (s.completed e).agenda = s.agenda := rfl
@[simp] theorem State.completed_readData (s : State) (e : Effects) : (s.completed e).readData = s.readData := rfl
@[simp] theorem State.completed_draws (s : State) (e : Effects) : (s.completed e).draws = s.draws := rfl

/-! ### `afterReset`: reset -/

@[simp] theorem State.afterReset_irqEn (s : State) : s.afterReset.irqEn = State.reset.irqEn := rfl
@[simp] theorem State.afterReset_op (s : State) : s.afterReset.op = State.reset.op := rfl
@[simp] theorem State.afterReset_busy (s : State) : s.afterReset.busy = State.reset.busy := rfl
@[simp] theorem State.afterReset_done (s : State) : s.afterReset.done = State.reset.done := rfl
@[simp] theorem State.afterReset_result (s : State) : s.afterReset.result = State.reset.result := rfl
@[simp] theorem State.afterReset_chkOk (s : State) : s.afterReset.chkOk = State.reset.chkOk := rfl
@[simp] theorem State.afterReset_inOff (s : State) : s.afterReset.inOff = State.reset.inOff := rfl
@[simp] theorem State.afterReset_inLen (s : State) : s.afterReset.inLen = State.reset.inLen := rfl
@[simp] theorem State.afterReset_arg (s : State) : s.afterReset.arg = State.reset.arg := rfl
@[simp] theorem State.afterReset_out (s : State) : s.afterReset.out = State.reset.out := rfl
@[simp] theorem State.afterReset_opL (s : State) : s.afterReset.opL = State.reset.opL := rfl
@[simp] theorem State.afterReset_inOffL (s : State) : s.afterReset.inOffL = State.reset.inOffL := rfl
@[simp] theorem State.afterReset_inLenL (s : State) : s.afterReset.inLenL = State.reset.inLenL := rfl
@[simp] theorem State.afterReset_argL (s : State) : s.afterReset.argL = State.reset.argL := rfl
@[simp] theorem State.afterReset_scanCursor (s : State) : s.afterReset.scanCursor = State.reset.scanCursor := rfl
@[simp] theorem State.afterReset_mem (s : State) : s.afterReset.mem = State.reset.mem := rfl
@[simp] theorem State.afterReset_agenda (s : State) : s.afterReset.agenda = s.agenda := rfl
@[simp] theorem State.afterReset_readData (s : State) : s.afterReset.readData = s.readData := rfl
@[simp] theorem State.afterReset_draws (s : State) : s.afterReset.draws = s.draws := rfl

/-! ### The fields of a completion that writes nothing -/

@[simp] theorem noEffects_code (code : ResultCode) : (noEffects code).code = code := rfl
@[simp] theorem noEffects_out (code : ResultCode) : (noEffects code).out = zeroOutputs := rfl
@[simp] theorem noEffects_chkOk (code : ResultCode) : (noEffects code).chkOk = false := rfl
@[simp] theorem noEffects_obuf (code : ResultCode) : (noEffects code).obuf = [] := rfl
@[simp] theorem noEffects_fdesc (code : ResultCode) : (noEffects code).fdesc = [] := rfl
@[simp] theorem noEffects_cursor (code : ResultCode) : (noEffects code).cursor = none := rfl

/-- The reset state lists no byte, so its buffers are in canonical form. -/
theorem reset_canonical : memoryWf State.reset.mem = true := rfl

/-! ### The zero outputs -/

@[simp] theorem zeroOutputs_outLen : zeroOutputs.outLen = 0 := rfl

@[simp] theorem zeroOutputs_chkResult : zeroOutputs.chkResult = 0 := rfl

@[simp] theorem zeroOutputs_rspHdr : zeroOutputs.rspHdr = 0 := rfl

@[simp] theorem zeroOutputs_rspChk : zeroOutputs.rspChk = 0 := rfl

@[simp] theorem zeroOutputs_rspOffset : zeroOutputs.rspOffset = 0 := rfl

@[simp] theorem zeroOutputs_frameCount : zeroOutputs.frameCount = 0 := rfl

@[simp] theorem zeroOutputs_extCursor : zeroOutputs.extCursor = 0 := rfl

@[simp] theorem zeroOutputs_telemDigital : zeroOutputs.telemDigital = 0 := rfl

@[simp] theorem zeroOutputs_an : zeroOutputs.an = zeroChannels := rfl

end Sys2Proof.Machine
end

