-- ==== Sys2Proof/Laws/Ops.lean ====
section
/-! SUPPORT. For each shared operation, once, everything it can do: if it answers `next s'`, which state
that is; and when it does answer one. Later proofs cite these instead of unfolding the operation. -/

namespace Sys2Proof.Machine

/-! ### Sequencing -/

@[simp] theorem andThen_next (s : State) (f : State → Result) : andThen (.next s) f = f s := rfl

@[simp] theorem andThen_refused (r : Refusal) (f : State → Result) :
    andThen (.refused r) f = .refused r := rfl

/-- Two actions answer a next state exactly when both do. -/
theorem andThen_eq_next {r : Result} {f : State → Result} {s' : State} :
    andThen r f = .next s' ↔ ∃ s, r = .next s ∧ f s = .next s' := by
  cases r <;> simp [andThen]

/-! ### The start step -/

/-- A start step that answers a next state was taken while idle, over a written input. -/
theorem startStep_eq_next {op : BitVec 4} {irqEn : Bool} {s s' : State} :
    startStep op irqEn s = .next s' ↔
      s.busy = false ∧ inputReady s.mem op s.inOff s.inLen = true ∧ s' = s.started op irqEn := by
  unfold startStep
  cases s.busy <;> cases inputReady s.mem op s.inOff s.inLen <;> simp [eq_comm]

/-- The start step while idle, over a written input. -/
theorem startStep_next {op : BitVec 4} (irqEn : Bool) {s : State} (h : s.busy = false)
    (hr : inputReady s.mem op s.inOff s.inLen = true) :
    startStep op irqEn s = .next (s.started op irqEn) := startStep_eq_next.2 ⟨h, hr, rfl⟩

/-- The start step while busy is refused (R216). -/
theorem startStep_busy (op : BitVec 4) (irqEn : Bool) {s : State} (h : s.busy = true) :
    startStep op irqEn s = .refused .startWhileBusy := by simp [startStep, h]

/-- The start step over an unwritten input is refused (R218). -/
theorem startStep_unwritten {op : BitVec 4} (irqEn : Bool) {s : State} (h : s.busy = false)
    (hr : inputReady s.mem op s.inOff s.inLen = false) :
    startStep op irqEn s = .refused .unwrittenInput := by simp [startStep, h, hr]

/-! ### The input -/

/-- What it takes for a start to be no hazard: a reserved OP, a range out of bounds, or a written input. -/
theorem inputReady_iff {m : Memory} {op : BitVec 4} {off len : Half} :
    inputReady m op off len = true ↔
      5 ≤ op.toNat ∨ rangeFits off len = false ∨ ∃ input, inputBytes m off len = some input := by
  unfold inputReady
  rw [Bool.or_eq_true, Bool.or_eq_true, decide_eq_true_iff, Bool.not_eq_true', Option.isSome_iff_exists,
    or_assoc]

/-- The input has IN_LEN bytes (R45). -/
theorem inputBytes_length {m : Memory} {off len : Half} {input : List Byte}
    (h : inputBytes m off len = some input) : input.length = len.toNat := (readBytes_eq_some.1 h).1

/-- The input lies in IBUF, so writing OBUF or FDESC or any byte outside IBUF leaves it. -/
theorem inputBytes_congr {m m' : Memory} {off len : Half} (hf : rangeFits off len = true)
    (h : ∀ i, i < Config.ibufBytes → readByte m (ibufAddr i) = readByte m' (ibufAddr i)) :
    inputBytes m off len = inputBytes m' off len := by
  rw [rangeFits_iff] at hf
  refine readBytes_congr fun j hj => ?_
  have := h (off.toNat + j) (by omega)
  simpa [ibufAddr, Nat.add_assoc] using this

/-! ### The completion step -/

/-- The completion of a reserved operation. -/
theorem completion_badOp {s : State} (h : 5 ≤ s.opL.toNat) :
    completion s = .next (s.completed (noEffects .badOp)) := by simp [completion, h]

/-- The completion of a defined operation whose range is out of bounds. -/
theorem completion_badRange {s : State} (h : s.opL.toNat < 5) (hr : rangeFits s.inOffL s.inLenL = false) :
    completion s = .next (s.completed (noEffects .badRange)) := by
  simp [completion, hr, Nat.not_le.2 h]

/-- The completion of a defined operation over its input. -/
theorem completion_operate {s : State} {input : List Byte} (h : s.opL.toNat < 5)
    (hr : rangeFits s.inOffL s.inLenL = true) (hi : inputBytes s.mem s.inOffL s.inLenL = some input) :
    completion s = .next (s.completed (operate s.opL s.argL input)) := by
  simp [completion, hr, hi, Nat.not_le.2 h]

/-- Everything a completion step can do. -/
theorem completion_cases {s s' : State} (h : completion s = .next s') :
    (5 ≤ s.opL.toNat ∧ s' = s.completed (noEffects .badOp)) ∨
    (s.opL.toNat < 5 ∧ rangeFits s.inOffL s.inLenL = false ∧ s' = s.completed (noEffects .badRange)) ∨
    (s.opL.toNat < 5 ∧ rangeFits s.inOffL s.inLenL = true ∧
      ∃ input, inputBytes s.mem s.inOffL s.inLenL = some input ∧
        s' = s.completed (operate s.opL s.argL input)) := by
  unfold completion at h
  split at h
  · rename_i h1
    exact .inl ⟨h1, by simpa using h.symm⟩
  · rename_i h1
    split at h
    · rename_i h2
      exact .inr (.inl ⟨by omega, h2, by simpa using h.symm⟩)
    · rename_i h2
      split at h
      · cases h
      · rename_i input h3
        exact .inr (.inr ⟨by omega, by simpa using h2, input, h3, by simpa using h.symm⟩)

/-- Whatever it computes, a completion step is one atomic write of some effects (R72). -/
theorem completion_completed {s s' : State} (h : completion s = .next s') : ∃ e, s' = s.completed e := by
  rcases completion_cases h with ⟨-, h⟩ | ⟨-, -, h⟩ | ⟨-, -, input, -, h⟩ <;> exact ⟨_, h⟩

/-- The completion step answers a next state wherever the start was no hazard (R191). -/
theorem completion_next {s : State} (h : inputReady s.mem s.opL s.inOffL s.inLenL = true) :
    ∃ e, completion s = .next (s.completed e) := by
  by_cases h1 : 5 ≤ s.opL.toNat
  · exact ⟨_, completion_badOp h1⟩
  · cases h2 : rangeFits s.inOffL s.inLenL with
    | false => exact ⟨_, completion_badRange (by omega) h2⟩
    | true =>
      rcases inputReady_iff.1 h with h3 | h3 | ⟨input, h3⟩
      · omega
      · simp [h2] at h3
      · exact ⟨_, completion_operate (by omega) h2 h3⟩

/-- The block's turn while idle changes nothing; while busy it is the completion step. -/
theorem blockTurn_cases {s s' : State} (h : blockTurn s = .next s') :
    (s.busy = false ∧ s' = s) ∨ (s.busy = true ∧ completion s = .next s') := by
  unfold blockTurn at h
  cases hb : s.busy
  · simp only [hb, Bool.false_eq_true, if_false] at h
    exact .inl ⟨rfl, by simpa using h.symm⟩
  · simp only [hb, if_true] at h
    exact .inr ⟨rfl, h⟩

/-! ### Bus reads and writes -/

/-- A register read at its offset reaches that register. -/
@[simp] theorem locate_reg (r : Reg) : locate (regOffset r) 4 = some (.reg r) := by
  cases r with
  | an i => fin_cases i <;> rfl
  | _ => rfl

/-- A byte, half or word of IBUF that exists and is aligned is reached (R63). -/
theorem locate_ibuf {i size : Nat} (hs : bufferWidth size = true) (ha : i % size = 0)
    (hh : i + size ≤ Config.ibufBytes) : locate (ibufAddr i) size = some (.ibuf i) := by
  have hd := ibufBytes_domain
  have h1 : ¬ ibufAddr i < 0x100 := by simp [ibufAddr]; omega
  have hp : 1 ≤ size := by
    simp [bufferWidth] at hs
    omega
  have h2 : 0x10000 ≤ ibufAddr i ∧ ibufAddr i < 0x20000 := by simp [ibufAddr]; omega
  have h3 : ibufAddr i - 0x10000 = i := by simp [ibufAddr]
  simp only [locate, h1, if_false, h2, and_self, if_true, h3, hs, ha, (ibufHolds_iff _).2 hh, decide_true,
    Bool.and_self]

/-- Everything a host read can do: it changes what the host last read, and may draw a free value. -/
theorem busRead_cases {offset size : Nat} {s s' : State} (h : busRead offset size s = .next s') :
    ∃ v, s' = s.withReadData v ∨ (s.busy = true ∧ s' = s.drew v) := by
  have hbuf : ∀ a n, readBuffer a n s = .next s' → ∃ v, s' = s.withReadData v := by
    intro a n h
    unfold readBuffer at h
    split at h
    · cases h
    · exact ⟨_, by simpa using h.symm⟩
  unfold busRead at h
  split at h
  · cases h
  · split at h
    · rename_i hb
      exact ⟨_, .inr ⟨by simp at hb; exact hb.1, by simpa using h.symm⟩⟩
    · exact ⟨_, .inl (by simpa using h.symm)⟩
  · obtain ⟨v, hv⟩ := hbuf _ _ h
    exact ⟨v, .inl hv⟩
  · split at h
    · rename_i hb
      exact ⟨_, .inr ⟨hb, by simpa using h.symm⟩⟩
    · obtain ⟨v, hv⟩ := hbuf _ _ h
      exact ⟨v, .inl hv⟩
  · split at h
    · rename_i hb
      exact ⟨_, .inr ⟨hb, by simpa using h.symm⟩⟩
    · obtain ⟨v, hv⟩ := hbuf _ _ h
      exact ⟨v, .inl hv⟩

/-- Everything a register write can do. -/
theorem writeReg_cases {r : Reg} {v : Word} {s s' : State} (h : writeReg r v s = .next s') :
    s' = s ∨ s' = s.acknowledged ∨ (∃ op irqEn, s' = s.withControl op irqEn) ∨
    (∃ op irqEn, startStep op irqEn s = .next s') ∨
    (∃ w, s' = s.withInOff w) ∨ (∃ w, s' = s.withInLen w) ∨ (∃ w, s' = s.withArg w) := by
  cases r with
  | ctrl =>
    simp only [writeReg] at h
    split at h
    · exact .inr (.inr (.inr (.inl ⟨_, _, h⟩)))
    · exact .inr (.inr (.inl ⟨_, _, by simpa using h.symm⟩))
  | status =>
    simp only [writeReg] at h
    split at h
    · exact .inr (.inl (by simpa using h.symm))
    · exact .inl (by simpa using h.symm)
  | inOff => exact .inr (.inr (.inr (.inr (.inl ⟨_, by simpa [writeReg] using h.symm⟩))))
  | inLen => exact .inr (.inr (.inr (.inr (.inr (.inl ⟨_, by simpa [writeReg] using h.symm⟩)))))
  | arg => exact .inr (.inr (.inr (.inr (.inr (.inr ⟨_, by simpa [writeReg] using h.symm⟩)))))
  | _ => exact .inl (by simpa [writeReg] using h.symm)

/-- Where an access reaches IBUF, it names bytes that IBUF has. -/
theorem locate_ibuf_inv {offset size i : Nat} (h : locate offset size = some (.ibuf i)) :
    offset = ibufAddr i ∧ i + size ≤ Config.ibufBytes ∧ i % size = 0 ∧
      (size = 1 ∨ size = 2 ∨ size = 4) := by
  unfold locate at h
  split at h
  · split at h
    · cases hr : regAt offset <;> simp [hr] at h
    · cases h
  · split at h
    · rename_i h1 h2
      dsimp only at h
      simp only [ibufAddr]
      split at h
      · rename_i h3
        simp only [Bool.and_eq_true, decide_eq_true_eq, bufferWidth, Bool.or_eq_true, beq_iff_eq,
          ibufHolds_iff] at h3
        obtain rfl : offset - 0x10000 = i := by simpa using h
        exact ⟨by omega, h3.2, h3.1.2, by omega⟩
      · cases h
    · split at h
      · dsimp only at h
        split at h <;> simp at h
      · split at h
        · dsimp only at h
          split at h <;> simp at h
        · cases h

/-- Everything a host write can do: what a register write can do, or a store into IBUF while idle. -/
theorem busWrite_cases {offset size : Nat} {data : Word} {s s' : State}
    (h : busWrite offset size data s = .next s') :
    s' = s ∨ (∃ r, writeReg r data s = .next s') ∨
    (s.busy = false ∧ ∃ i, offset = ibufAddr i ∧ i + size ≤ Config.ibufBytes ∧
      s' = s.withMem (writeBytes s.mem (ibufAddr i) (lanes size data))) := by
  unfold busWrite at h
  split at h
  · cases h
  · exact .inr (.inl ⟨_, h⟩)
  · rename_i i hl
    obtain ⟨h1, h2, -, -⟩ := locate_ibuf_inv hl
    split at h
    · cases h
    · rename_i hb
      exact .inr (.inr ⟨by simpa using hb, i, h1, h2, by simpa using h.symm⟩)
  · exact .inl (by simpa using h.symm)
  · exact .inl (by simpa using h.symm)

/-! ### Byte stores -/

/-- The next byte of IBUF is at the next offset (R61). -/
theorem ibufAddr_succ (i : Nat) : ibufAddr (i + 1) = ibufAddr i + 1 := by
  unfold ibufAddr
  omega

/-- Two updates of the buffers are the second. -/
@[simp] theorem State.withMem_withMem (s : State) (m m' : Memory) :
    (s.withMem m).withMem m' = s.withMem m' := rfl

/-- Putting the buffers back changes nothing. -/
@[simp] theorem State.withMem_self (s : State) : s.withMem s.mem = s := rfl

/-- One byte stored into IBUF: idle, and the byte exists. -/
theorem storeByte_eq_next {i : Nat} {b : Byte} {s s' : State} :
    storeByte i b s = .next s' ↔ i + 1 ≤ Config.ibufBytes ∧ s.busy = false ∧
      s' = s.withMem (writeByte s.mem (ibufAddr i) b) := by
  by_cases hi : i + 1 ≤ Config.ibufBytes
  · have hl := locate_ibuf (i := i) (size := 1) rfl (Nat.mod_one i) hi
    simp only [storeByte, (ibufHolds_iff _).2 hi, if_true, busWrite, hl, hi, true_and]
    cases s.busy
    · simp [lanes, writeBytes, eq_comm]
    · simp
  · have : ibufHolds (i + 1) = false := by
      rw [Bool.eq_false_iff, Ne, ibufHolds_iff]; exact hi
    simp [storeByte, this, hi]

/-- A run of bytes stored into IBUF while idle, where it fits (R99). -/
theorem storeBytes_next {i : Nat} {bs : List Byte} {s : State} (hb : s.busy = false)
    (hf : i + bs.length ≤ Config.ibufBytes) :
    storeBytes i bs s = .next (s.withMem (writeBytes s.mem (ibufAddr i) bs)) := by
  induction bs generalizing i s with
  | nil => simp [storeBytes, writeBytes]
  | cons b bs ih =>
    simp only [List.length_cons] at hf
    have h1 := (storeByte_eq_next (b := b)).2 ⟨(by omega : i + 1 ≤ Config.ibufBytes), hb, rfl⟩
    rw [storeBytes, h1, andThen_next, ih (by simpa using hb) (by omega), ibufAddr_succ]
    simp [writeBytes]

/-- Everything a run of byte stores can do: nothing for no bytes, else a store of bytes that IBUF has. -/
theorem storeBytes_cases {i : Nat} {bs : List Byte} {s s' : State} (h : storeBytes i bs s = .next s') :
    s' = s.withMem (writeBytes s.mem (ibufAddr i) bs) ∧
      (bs ≠ [] → s.busy = false ∧ i + bs.length ≤ Config.ibufBytes) := by
  induction bs generalizing i s with
  | nil =>
    simp only [storeBytes, Host.Outcome.next.injEq] at h
    exact ⟨by simp [← h, writeBytes], fun h => absurd rfl h⟩
  | cons b bs ih =>
    rw [storeBytes, andThen_eq_next] at h
    obtain ⟨t, ht, h⟩ := h
    obtain ⟨h1, h2, rfl⟩ := storeByte_eq_next.1 ht
    obtain ⟨h3, h4⟩ := ih h
    refine ⟨by simp [h3, writeBytes, ibufAddr_succ], fun _ => ⟨h2, ?_⟩⟩
    cases bs with
    | nil => simpa using h1
    | cons c bs =>
      have := (h4 (by simp)).2
      simp only [List.length_cons] at this ⊢
      omega

/-- A run of bytes that IBUF does not hold, or stored while busy, is refused (R66, R215). -/
theorem storeBytes_refused_busy {i : Nat} {bs : List Byte} {s : State} (hb : s.busy = true)
    (hne : bs ≠ []) (hi : i + 1 ≤ Config.ibufBytes) :
    storeBytes i bs s = .refused .ibufWriteWhileBusy := by
  cases bs with
  | nil => exact absurd rfl hne
  | cons b bs =>
    have hl := locate_ibuf (i := i) (size := 1) rfl (Nat.mod_one i) hi
    simp [storeBytes, storeByte, (ibufHolds_iff _).2 hi, busWrite, hl, hb]

/-! ### The arms of `exec` -/

@[simp] theorem exec_checksum (irqEn : Bool) (s : State) :
    exec (.checksum irqEn) s = startStep 0 irqEn s := rfl

@[simp] theorem exec_encodeCmd (irqEn : Bool) (s : State) :
    exec (.encodeCmd irqEn) s = startStep 1 irqEn s := rfl

@[simp] theorem exec_decodeRsp (irqEn : Bool) (s : State) :
    exec (.decodeRsp irqEn) s = startStep 2 irqEn s := rfl

@[simp] theorem exec_extract (irqEn : Bool) (s : State) :
    exec (.extract irqEn) s = startStep 3 irqEn s := rfl

@[simp] theorem exec_decodeFrame (irqEn : Bool) (s : State) :
    exec (.decodeFrame irqEn) s = startStep 4 irqEn s := rfl

@[simp] theorem exec_reservedOp5 (irqEn : Bool) (s : State) :
    exec (.reservedOp5 irqEn) s = startStep 5 irqEn s := rfl

@[simp] theorem exec_reservedOp6_7 (lowOp : BitVec 1) (irqEn : Bool) (s : State) :
    exec (.reservedOp6_7 lowOp irqEn) s = startStep (3#3 ++ lowOp) irqEn s := rfl

@[simp] theorem exec_reservedOp8_15 (lowOp : BitVec 3) (irqEn : Bool) (s : State) :
    exec (.reservedOp8_15 lowOp irqEn) s = startStep (1#1 ++ lowOp) irqEn s := rfl

@[simp] theorem exec_ackDone (s : State) : exec .ackDone s = .next s.acknowledged := rfl

@[simp] theorem exec_cmdFrame (i : Nat) (cmd : Byte) (p : List Byte) (s : State) :
    exec (.cmdFrame i cmd p) s = storeBytes i (commandFrame cmd p) s := rfl

@[simp] theorem exec_rspFrame (i : Nat) (st cmd : Byte) (p : List Byte) (k : Byte) (s : State) :
    exec (.rspFrame i st cmd p k) s = storeBytes i (responseFrame st cmd p k) s := rfl

@[simp] theorem exec_streamFrame (i : Nat) (d : Byte) (an : Channels) (s : State) :
    exec (.streamFrame i d an) s = storeBytes i (streamFrame d an) s := rfl

/-! ### The operations behind the codes of OP_L -/

theorem operate_checksum (arg : Byte) (input : List Byte) :
    operate 0 arg input = checksumEffects input := rfl

theorem operate_encodeCmd (arg : Byte) (input : List Byte) :
    operate 1 arg input = encodeCmdEffects arg input := rfl

theorem operate_decodeRsp (arg : Byte) (input : List Byte) :
    operate 2 arg input = decodeRspEffects input := rfl

theorem operate_extract (arg : Byte) (input : List Byte) :
    operate 3 arg input = extractEffects input := rfl

theorem operate_decodeFrame (arg : Byte) (input : List Byte) :
    operate 4 arg input = decodeFrameEffects input := rfl

/-! The same, with the code as `simp` writes it. -/

@[simp] theorem operate_code0 (arg : Byte) (input : List Byte) :
    operate 0#4 arg input = checksumEffects input := rfl

@[simp] theorem operate_code1 (arg : Byte) (input : List Byte) :
    operate 1#4 arg input = encodeCmdEffects arg input := rfl

@[simp] theorem operate_code2 (arg : Byte) (input : List Byte) :
    operate 2#4 arg input = decodeRspEffects input := rfl

@[simp] theorem operate_code3 (arg : Byte) (input : List Byte) :
    operate 3#4 arg input = extractEffects input := rfl

@[simp] theorem operate_code4 (arg : Byte) (input : List Byte) :
    operate 4#4 arg input = decodeFrameEffects input := rfl

/-- A defined operation code is one of the five of R93. -/
theorem definedOp_cases {op : BitVec 4} (h : op.toNat < 5) : op = 0 ∨ op = 1 ∨ op = 2 ∨ op = 3 ∨ op = 4 := by
  revert op
  decide

/-! ### The step -/

/-- The step at an instruction of the table. -/
theorem step_instr {s : State} {e : Event} {rest : List Event} {i : Instr} (ha : s.agenda = e :: rest)
    (hd : decode e = .ok i) : step s = exec i (s.popped rest) := by
  simp only [step, ha, hd]

/-- The step at any other event. -/
theorem step_event {s : State} {e : Event} {rest : List Event} {r : Reject} (ha : s.agenda = e :: rest)
    (hd : decode e = .error r) : step s = perform e rest s := by
  simp only [step, ha, hd]

/-- The step with an empty agenda. -/
theorem step_idle {s : State} (ha : s.agenda = []) : step s = blockTurn s := by
  simp only [step, ha]

end Sys2Proof.Machine
end

