-- ==== Sys2Proof/Laws/Scan.lean ====
section
/-! SUPPORT. The searches of 00_scope.md R12 and EXTRACT's loop against their declarative forms in
Safety.lean, and what the candidates of a scan are (42_stream.md R150 to R155). -/

namespace Sys2Proof.Machine

/-- `find2` answers the first pair. -/
theorem find2_eq_some_iff {s : List Byte} {start j : Nat} {b0 b1 : Byte} :
    find2 s start b0 b1 = some j ↔ firstPair s start b0 b1 j := find2_eq_some

/-- `find1` answers the first byte. -/
theorem find1_eq_some_iff {s : List Byte} {start j : Nat} {b : Byte} :
    find1 s start b = some j ↔ firstByte s start b j := find1_eq_some

/-- `find2` answers `none` exactly when no pair is left. -/
theorem find2_eq_none_iff {s : List Byte} {start : Nat} {b0 b1 : Byte} :
    find2 s start b0 b1 = none ↔ ∀ k, start ≤ k → ¬ pairAt s b0 b1 k := by
  constructor
  · intro h k hk hp
    classical
    have hex : ∃ j, start ≤ j ∧ pairAt s b0 b1 j := ⟨k, hk, hp⟩
    obtain ⟨j, ⟨h1, h2⟩, hmin⟩ := Nat.findX hex
    rw [find2_eq_some_iff.2 ⟨h1, h2, fun m hm hmj hp => hmin m hmj ⟨hm, hp⟩⟩] at h
    cases h
  · intro h
    cases hf : find2 s start b0 b1 with
    | none => rfl
    | some j =>
      have hj := find2_eq_some_iff.1 hf
      exact absurd hj.2.1 (h j hj.1)

/-- `find1` answers `none` exactly when no such byte is left. -/
theorem find1_eq_none_iff {s : List Byte} {start : Nat} {b : Byte} :
    find1 s start b = none ↔ ∀ k, start ≤ k → s[k]? ≠ some b := by
  constructor
  · intro h k hk hp
    classical
    have hex : ∃ j, start ≤ j ∧ s[j]? = some b := ⟨k, hk, hp⟩
    obtain ⟨j, ⟨h1, h2⟩, hmin⟩ := Nat.findX hex
    rw [find1_eq_some_iff.2 ⟨h1, h2, fun m hm hmj hp => hmin m hmj ⟨hm, hp⟩⟩] at h
    cases h
  · intro h
    cases hf : find1 s start b with
    | none => rfl
    | some j =>
      have hj := find1_eq_some_iff.1 hf
      exact absurd hj.2.1 (h j hj.1)

/-- The first pair is one place only. -/
theorem firstPair_unique {s : List Byte} {start i j : Nat} {b0 b1 : Byte} (hi : firstPair s start b0 b1 i)
    (hj : firstPair s start b0 b1 j) : i = j := by
  have h := find2_eq_some_iff.2 hi
  rw [find2_eq_some_iff.2 hj] at h
  simpa using h.symm

/-- The first byte is one place only. -/
theorem firstByte_unique {s : List Byte} {start i j : Nat} {b : Byte} (hi : firstByte s start b i)
    (hj : firstByte s start b j) : i = j := by
  have h := find1_eq_some_iff.2 hi
  rw [find1_eq_some_iff.2 hj] at h
  simpa using h.symm

/-- The loop with enough fuel runs the scan. -/
theorem scanFrames_scan (fuel : Nat) (input : List Byte) (c : Nat) (h : input.length ≤ c + fuel) :
    Scan input c (scanFrames fuel input c).1 (scanFrames fuel input c).2 := by
  induction fuel generalizing c with
  | zero =>
    refine .noStart c fun j hj hp => ?_
    have hp := hp.1
    rw [List.getElem?_eq_none (by omega)] at hp
    cases hp
  | succ fuel ih =>
    rw [scanFrames]
    cases h2 : find2 input c 0x7A 0x7B with
    | none => exact .noStart c (find2_eq_none_iff.1 h2)
    | some start =>
      dsimp only
      cases h1 : find1 input (start + 2) 0x7C with
      | none => exact .noEnd c start (find2_eq_some_iff.1 h2) (find1_eq_none_iff.1 h1)
      | some stop =>
        have a := find2_eq_some_iff.1 h2
        have b := find1_eq_some_iff.1 h1
        exact .emit c start stop _ _ a b (ih (stop + 1) (by have := a.1; have := b.1; omega))

/-- EXTRACT's candidates are those of the scan from cursor 0. -/
theorem candidates_scan (input : List Byte) : Scan input 0 (candidates input).1 (candidates input).2 :=
  scanFrames_scan _ _ _ (by omega)

/-- A scan has one outcome. -/
theorem scan_unique {input : List Byte} {c : Nat} {f1 f2 : List (Nat × Nat)} {e1 e2 : Nat}
    (h1 : Scan input c f1 e1) (h2 : Scan input c f2 e2) : f1 = f2 ∧ e1 = e2 := by
  induction h1 generalizing f2 e2 with
  | noStart c h =>
    cases h2 with
    | noStart => exact ⟨rfl, rfl⟩
    | noEnd => exact ⟨rfl, rfl⟩
    | emit _ s _ _ _ h' => exact absurd h'.2.1 (h s h'.1)
  | noEnd c s h he =>
    cases h2 with
    | noStart => exact ⟨rfl, rfl⟩
    | noEnd => exact ⟨rfl, rfl⟩
    | emit _ s' e _ _ h' he' =>
      obtain rfl := firstPair_unique h h'
      exact absurd he'.2.1 (he e he'.1)
  | emit c s e r f h he hr ih =>
    cases h2 with
    | noStart _ h' => exact absurd h.2.1 (h' s h.1)
    | noEnd _ s' h' he' =>
      obtain rfl := firstPair_unique h h'
      exact absurd he.2.1 (he' e he.1)
    | emit _ s' e' _ _ h' he' hr' =>
      obtain rfl := firstPair_unique h h'
      obtain rfl := firstByte_unique he he'
      obtain ⟨rfl, rfl⟩ := ih hr'
      exact ⟨rfl, rfl⟩

/-- Everything the candidates of a scan are: disjoint ranges of 3 bytes or more that rise, each from a start
sentinel to the first end sentinel after it. -/
theorem scan_ranges {input : List Byte} {c f : Nat} {found : List (Nat × Nat)} (h : Scan input c found f) :
    3 * found.length + c ≤ f ∧ (found ≠ [] → f ≤ input.length) ∧
    (∀ (k : Nat) (r : Nat × Nat), found[k]? = some r → c ≤ r.1 ∧ r.1 + 2 ≤ r.2 ∧ r.2 < input.length ∧
      pairAt input 0x7A 0x7B r.1 ∧ input[r.2]? = some 0x7C ∧
      ∀ j, r.1 + 2 ≤ j → j < r.2 → input[j]? ≠ some 0x7C) ∧
    (∀ (k k' : Nat) (r r' : Nat × Nat), k < k' → found[k]? = some r → found[k']? = some r' → r.2 < r'.1) := by
  induction h with
  | noStart c h => simp
  | noEnd c s h he => simp
  | emit c s e rest f h he hr ih =>
    obtain ⟨i1, i2, i3, i4⟩ := ih
    have g1 := h.1
    have g2 := he.1
    have g3 : e < input.length := (List.getElem?_eq_some_iff.1 he.2.1).1
    refine ⟨by simp; omega, fun _ => ?_, ?_, ?_⟩
    · cases rest with
      | nil => cases hr <;> omega
      | cons _ _ => exact i2 (by simp)
    · intro k r hk
      cases k with
      | zero =>
        obtain rfl : (s, e) = r := by simpa using hk
        exact ⟨g1, g2, g3, h.2.1, he.2.1, he.2.2⟩
      | succ k =>
        obtain ⟨a, b⟩ := i3 k r (by simpa using hk)
        exact ⟨by omega, b⟩
    · intro k k' r r' hkk hk hk'
      cases k' with
      | zero => omega
      | succ k' =>
        cases k with
        | zero =>
          obtain rfl : (s, e) = r := by simpa using hk
          have := (i3 k' r' (by simpa using hk')).1
          simp only
          omega
        | succ k => exact i4 k k' r r' (by omega) (by simpa using hk) (by simpa using hk')

/-- An input has at most a third as many candidates as bytes (R157). -/
theorem candidates_length_le (input : List Byte) : 3 * (candidates input).1.length ≤ input.length := by
  have h := scan_ranges (candidates_scan input)
  by_cases h0 : (candidates input).1 = []
  · simp [h0]
  · have := h.2.1 h0
    omega

/-- The scan cursor ends inside the input or just past it (R41). -/
theorem candidates_cursor_le (input : List Byte) : (candidates input).2 ≤ input.length := by
  have h := candidates_scan input
  generalize (candidates input).1 = found at h
  generalize (candidates input).2 = final at h
  cases found with
  | nil => cases h <;> omega
  | cons r rs => exact (scan_ranges h).2.1 (by simp)

/-- The START and END of a descriptor (R48). -/
theorem descWord_fields {a b : Nat} (ha : a < 65536) (hb : b < 65536) :
    descStart (descWord (a, b)) = a ∧ descEnd (descWord (a, b)) = b := by
  have ht : (descWord (a, b)).toNat = b * 65536 + a := by
    simp only [descWord]
    rw [show (BitVec.ofNat 16 b ++ BitVec.ofNat 16 a : BitVec (16 + 16)).toNat = _ from BitVec.toNat_append ..,
      BitVec.toNat_ofNat, BitVec.toNat_ofNat, Nat.mod_eq_of_lt ha, Nat.mod_eq_of_lt hb,
      ← Nat.shiftLeft_add_eq_or_of_lt ha, Nat.shiftLeft_eq]
  simp only [descStart, descEnd, BitVec.extractLsb'_toNat, ht, Nat.shiftRight_eq_div_pow]
  omega

end Sys2Proof.Machine
end

