-- ==== Sys2Proof/Laws/Operations.lean ====
section
/-! SUPPORT. For the declarative terms of Safety.lean, what they are in the model's own terms; where a bus
access goes; and for the five operations, once, what their effects can be. -/

namespace Sys2Proof.Machine

/-! ### The input of an operation -/

/-- The input sequence of R45 is what the completion step reads. -/
theorem inputIs_iff {m : Memory} {off len : Half} {input : List Byte} :
    inputIs m off len input ↔ rangeFits off len = true ∧ inputBytes m off len = some input := by
  rw [rangeFits_iff, inputBytes, readBytes_eq_some]
  constructor
  · rintro ⟨h1, h2, h3⟩
    refine ⟨h2, h1, fun j hj => ?_⟩
    have := h3 j (by omega)
    simpa [ibufAddr, Nat.add_assoc] using this
  · rintro ⟨h1, h2, h3⟩
    refine ⟨h2, h1, fun j hj => ?_⟩
    have := h3 j (by omega)
    simpa [ibufAddr, Nat.add_assoc] using this

/-- A bad range is one that fails the model's range check. -/
theorem rangeBad_iff {off len : Half} : rangeBad off len ↔ rangeFits off len = false := by
  rw [← Bool.not_eq_true, rangeFits_iff, rangeBad]
  omega

/-- A start is no hazard over a bad range or a written input, whatever its OP. -/
theorem inputReady_of {m : Memory} {off len : Half} (op : BitVec 4)
    (h : rangeBad off len ∨ ∃ input, inputIs m off len input) : inputReady m op off len = true := by
  rw [inputReady_iff]
  rcases h with h | ⟨i, h⟩
  · exact .inr (.inl (rangeBad_iff.1 h))
  · exact .inr (.inr ⟨i, (inputIs_iff.1 h).2⟩)

/-- An input has fewer than 65536 bytes. -/
theorem inputIs_length_lt {m : Memory} {off len : Half} {input : List Byte} (h : inputIs m off len input) :
    input.length < 65536 := by
  rw [h.1]
  exact len.isLt

/-- Bytes stored where an input range lies are that range's input. -/
theorem inputIs_writeBytes (m : Memory) {off len : Half} {bs : List Byte} (hlen : bs.length = len.toNat)
    (hf : off.toNat + len.toNat ≤ Config.ibufBytes) :
    inputIs (writeBytes m (ibufAddr off.toNat) bs) off len bs := by
  refine ⟨hlen, hf, fun j hj => ?_⟩
  have := readByte_writeBytes_inside m (ibufAddr off.toNat) bs hj
  rwa [show ibufAddr off.toNat + j = ibufAddr (off.toNat + j) by simp [ibufAddr]; omega] at this

/-- A defined operation over its input: it starts, and its completion writes its effects. -/
theorem run_operation {s : State} {irqEn : Bool} {input : List Byte} (op : BitVec 4) (ho : op.toNat < 5)
    (hb : s.busy = false) (hi : inputIs s.mem s.inOff s.inLen input) :
    startStep op irqEn s = .next (s.started op irqEn) ∧
      blockTurn (s.started op irqEn) = .next ((s.started op irqEn).completed (operate op s.arg input)) := by
  obtain ⟨h1, h2⟩ := inputIs_iff.1 hi
  refine ⟨startStep_next _ hb (inputReady_of op (.inr ⟨_, hi⟩)), ?_⟩
  rw [blockTurn, if_pos (by rfl)]
  exact completion_operate ho h1 h2

/-- Everything the block's turn can do while an operation is in progress. -/
theorem blockTurn_busy_cases {s u : State} (hb : s.busy = true) (h : blockTurn s = .next u) :
    (5 ≤ s.opL.toNat ∧ u = s.completed (noEffects .badOp)) ∨
    (s.opL.toNat < 5 ∧ rangeFits s.inOffL s.inLenL = false ∧ u = s.completed (noEffects .badRange)) ∨
    (s.opL.toNat < 5 ∧ rangeFits s.inOffL s.inLenL = true ∧
      ∃ input, inputBytes s.mem s.inOffL s.inLenL = some input ∧
        u = s.completed (operate s.opL s.argL input)) := by
  rw [blockTurn, if_pos hb] at h
  exact completion_cases h

/-! ### Where a bus access goes -/

/-- A bus write of a register. -/
theorem busWrite_reg (r : Reg) (w : Word) (s : State) : busWrite (regOffset r) 4 w s = writeReg r w s := by
  simp [busWrite]

/-- A bus read of a register. -/
theorem busRead_reg (r : Reg) (s : State) : busRead (regOffset r) 4 s =
    if s.busy && isOutputReg r then .next (s.drew (Config.freeRead s.draws &&& regMask r))
    else .next (s.withReadData (regValue s r)) := by
  simp [busRead]

/-- An aligned access to existing bytes of OBUF reaches them (R64). -/
theorem locate_obuf {i size : Nat} (hs : size = 1 ∨ size = 2 ∨ size = 4) (ha : size ∣ i) (hh : i + size ≤ 260) :
    locate (0x20000 + i) size = some (.obuf i) := by
  have h0 : i % size = 0 := Nat.mod_eq_zero_of_dvd ha
  have h1 : ¬ 0x20000 + i < 0x100 := by omega
  have h2 : ¬ (0x10000 ≤ 0x20000 + i ∧ 0x20000 + i < 0x20000) := by omega
  have h3 : 0x20000 ≤ 0x20000 + i ∧ 0x20000 + i < 0x30000 := by omega
  have hw : bufferWidth size = true := by rcases hs with rfl | rfl | rfl <;> rfl
  rw [locate, if_neg h1, if_neg h2, if_pos h3]
  simp only [Nat.add_sub_cancel_left, hw, h0, Config.obufBytes, hh, decide_true, Bool.and_self, if_true]

/-- An access to an existing entry of FDESC reaches it (R65). -/
theorem locate_fdesc {k : Nat} (hk : k < Config.fdescEntries) :
    locate (0x40000 + 4 * k) 4 = some (.fdesc k) := by
  have hd := ibufBytes_domain
  have hk' : 3 * k + 3 ≤ Config.ibufBytes := by
    simp only [Config.fdescEntries] at hk
    omega
  have h1 : ¬ 0x40000 + 4 * k < 0x100 := by omega
  have h2 : ¬ (0x10000 ≤ 0x40000 + 4 * k ∧ 0x40000 + 4 * k < 0x20000) := by omega
  have h3 : ¬ (0x20000 ≤ 0x40000 + 4 * k ∧ 0x40000 + 4 * k < 0x30000) := by omega
  have h4 : 0x40000 ≤ 0x40000 + 4 * k ∧ 0x40000 + 4 * k < 0x60000 := by omega
  have h5 : (0x40000 + 4 * k - 0x40000) / 4 = k := by omega
  have h6 : (0x40000 + 4 * k - 0x40000) % 4 = 0 := by omega
  rw [locate, if_neg h1, if_neg h2, if_neg h3, if_pos h4]
  simp only [h5, h6, (fdescHolds_iff k).2 hk, decide_true, Bool.and_self, if_true]

/-! ### The operations -/

/-- The result codes each operation's own tests can give (R189). -/
theorem operate_codes (op : BitVec 4) (arg : Byte) (input : List Byte) :
    (op = 0 → (operate op arg input).code = .ok) ∧
    (op = 1 → (operate op arg input).code = .ok ∨ (operate op arg input).code = .encodingError) ∧
    (op = 2 → (operate op arg input).code = .ok ∨ (operate op arg input).code = .notFound ∨
      (operate op arg input).code = .incomplete) ∧
    (op = 3 → (operate op arg input).code = .ok) ∧
    (op = 4 → (operate op arg input).code = .ok ∨ (operate op arg input).code = .malformed) := by
  refine ⟨?_, ?_, ?_, ?_, ?_⟩ <;> rintro rfl
  · rfl
  · rw [operate_encodeCmd, encodeCmdEffects]
    split <;> simp
  · rw [operate_decodeRsp, decodeRspEffects]
    split
    · simp
    · split
      · simp [incompleteAt]
      · split <;> simp [incompleteAt, responseAt]
  · rfl
  · rw [operate_decodeFrame, decodeFrameEffects]
    split <;> simp

/-- OBUF takes at most 260 bytes from any operation (R47), and OUT_LEN is how many. -/
theorem operate_obuf {op : BitVec 4} (ho : op.toNat < 5) (arg : Byte) (input : List Byte) :
    (operate op arg input).obuf.length ≤ 260 ∧
      (operate op arg input).out.outLen.toNat = (operate op arg input).obuf.length := by
  rcases definedOp_cases ho with rfl | rfl | rfl | rfl | rfl
  · exact ⟨Nat.zero_le _, rfl⟩
  · rw [operate_encodeCmd, encodeCmdEffects]
    split
    · exact ⟨Nat.zero_le _, rfl⟩
    · exact ⟨by simp; omega, by simp; omega⟩
  · rw [operate_decodeRsp, decodeRspEffects]
    split
    · exact ⟨Nat.zero_le _, rfl⟩
    · rename_i i _
      split
      · exact ⟨Nat.zero_le _, rfl⟩
      · split
        · exact ⟨Nat.zero_le _, rfl⟩
        · have hlt := (byteAt input (i + 4)).isLt
          have hl : (responseAt input i).obuf.length = (byteAt input (i + 4)).toNat := by
            simp only [responseAt, slice, List.length_take, List.length_drop]
            omega
          rw [hl]
          refine ⟨by omega, ?_⟩
          simp only [responseAt, BitVec.toNat_setWidth]
          omega
  · exact ⟨Nat.zero_le _, rfl⟩
  · rw [operate_decodeFrame, decodeFrameEffects]
    split <;> exact ⟨Nat.zero_le _, rfl⟩

/-- FDESC takes at most a third as many entries as the input has bytes (R157), and FRAME_COUNT is how many. -/
theorem operate_fdesc {op : BitVec 4} (ho : op.toNat < 5) (arg : Byte) {input : List Byte}
    (hl : input.length < 65536) :
    3 * (operate op arg input).fdesc.length ≤ input.length ∧
      (operate op arg input).out.frameCount.toNat = (operate op arg input).fdesc.length := by
  rcases definedOp_cases ho with rfl | rfl | rfl | rfl | rfl
  · exact ⟨Nat.zero_le _, rfl⟩
  · rw [operate_encodeCmd, encodeCmdEffects]
    split <;> exact ⟨Nat.zero_le _, rfl⟩
  · rw [operate_decodeRsp, decodeRspEffects]
    split
    · exact ⟨Nat.zero_le _, rfl⟩
    · split
      · exact ⟨Nat.zero_le _, rfl⟩
      · split <;> exact ⟨Nat.zero_le _, rfl⟩
  · have hc := candidates_length_le input
    simp only [operate_extract, extractEffects, List.length_map, BitVec.toNat_ofNat]
    omega
  · rw [operate_decodeFrame, decodeFrameEffects]
    split <;> exact ⟨Nat.zero_le _, rfl⟩

/-- What an operation writes when it ends with an error: nothing but the marker's index of INCOMPLETE (R180). -/
theorem operate_error {op : BitVec 4} (ho : op.toNat < 5) (arg : Byte) (input : List Byte)
    (h : (operate op arg input).code ≠ .ok) :
    (operate op arg input).obuf = [] ∧ (operate op arg input).fdesc = [] ∧
      (operate op arg input).chkOk = false ∧
      (operate op arg input).out = { zeroOutputs with rspOffset := (operate op arg input).out.rspOffset } ∧
      ((operate op arg input).code ≠ .incomplete → (operate op arg input).out = zeroOutputs) := by
  revert h
  rcases definedOp_cases ho with rfl | rfl | rfl | rfl | rfl
  · exact fun h => absurd rfl h
  · rw [operate_encodeCmd, encodeCmdEffects]
    split
    · exact fun _ => ⟨rfl, rfl, rfl, rfl, fun _ => rfl⟩
    · exact fun h => absurd rfl h
  · rw [operate_decodeRsp, decodeRspEffects]
    split
    · exact fun _ => ⟨rfl, rfl, rfl, rfl, fun _ => rfl⟩
    · split
      · exact fun _ => ⟨rfl, rfl, rfl, rfl, fun h => absurd rfl h⟩
      · split
        · exact fun _ => ⟨rfl, rfl, rfl, rfl, fun h => absurd rfl h⟩
        · exact fun h => absurd rfl h
  · exact fun h => absurd rfl h
  · rw [operate_decodeFrame, decodeFrameEffects]
    split
    · exact fun _ => ⟨rfl, rfl, rfl, rfl, fun _ => rfl⟩
    · exact fun h => absurd rfl h

/-- Only EXTRACT moves the scan cursor (R49). -/
theorem operate_cursor {op : BitVec 4} (ho : op.toNat < 5) (h3 : op ≠ 3) (arg : Byte) (input : List Byte) :
    (operate op arg input).cursor = none := by
  rcases definedOp_cases ho with rfl | rfl | rfl | rfl | rfl
  · rfl
  · rw [operate_encodeCmd, encodeCmdEffects]
    split <;> rfl
  · rw [operate_decodeRsp, decodeRspEffects]
    split
    · rfl
    · split
      · rfl
      · split <;> rfl
  · exact absurd rfl h3
  · rw [operate_decodeFrame, decodeFrameEffects]
    split <;> rfl

/-- CHK_OK is 1 only from a DECODE_RSP that ends OK (R31). -/
theorem operate_chkOk {op : BitVec 4} (ho : op.toNat < 5) (arg : Byte) (input : List Byte)
    (h : (operate op arg input).chkOk = true) : op = 2 ∧ (operate op arg input).code = .ok := by
  revert h
  rcases definedOp_cases ho with rfl | rfl | rfl | rfl | rfl
  · exact fun h => by cases h
  · rw [operate_encodeCmd, encodeCmdEffects]
    split <;> exact fun h => by cases h
  · rw [operate_decodeRsp, decodeRspEffects]
    split
    · exact fun h => by cases h
    · split
      · exact fun h => by cases h
      · split
        · exact fun h => by cases h
        · exact fun _ => ⟨rfl, rfl⟩
  · exact fun h => by cases h
  · rw [operate_decodeFrame, decodeFrameEffects]
    split <;> exact fun h => by cases h

/-! ### The buffers after a completion -/

/-- A completion writes no byte of IBUF (R76). -/
theorem completed_ibuf (s : State) {e : Effects} (ho : e.obuf.length ≤ 260) {i : Nat}
    (hi : i < Config.ibufBytes) : readByte (s.completed e).mem (ibufAddr i) = readByte s.mem (ibufAddr i) := by
  have hd := ibufBytes_domain
  simp only [State.completed_mem, writeFdesc, writeObuf]
  rw [readByte_writeBytes_outside _ _ _ (by simp [ibufAddr, fdescAddr]; omega),
    readByte_writeBytes_outside _ _ _ (by simp [ibufAddr, obufAddr]; omega)]

/-- The OBUF bytes a completion writes (R47). -/
theorem completed_obuf (s : State) {e : Effects} (ho : e.obuf.length ≤ 260) {j : Nat} (hj : j < e.obuf.length) :
    readByte (s.completed e).mem (obufAddr j) = e.obuf[j]? := by
  simp only [State.completed_mem, writeFdesc, writeObuf]
  rw [readByte_writeBytes_outside _ _ _ (by simp [obufAddr, fdescAddr]; omega)]
  have := readByte_writeBytes_inside s.mem (obufAddr 0) e.obuf hj
  simpa [obufAddr] using this

/-- The FDESC entries a completion writes (R48). -/
theorem completed_fdesc (s : State) {e : Effects} {k : Nat} {w : Word} (h : e.fdesc[k]? = some w) :
    readDesc (s.completed e).mem k = some w := readDesc_writeFdesc _ h

/-- A completion leaves every byte but those alone (R47, R48). -/
theorem completed_other (s : State) {e : Effects} {a : Nat}
    (h1 : a < obufAddr 0 ∨ obufAddr e.obuf.length ≤ a)
    (h2 : a < fdescAddr 0 ∨ fdescAddr e.fdesc.length ≤ a) :
    readByte (s.completed e).mem a = readByte s.mem a := by
  simp only [State.completed_mem, writeFdesc, writeObuf]
  rw [readByte_writeBytes_outside _ _ _ (by simp [fdescAddr] at *; omega),
    readByte_writeBytes_outside _ _ _ (by simp [obufAddr] at *; omega)]

end Sys2Proof.Machine
end

