-- ==== Sys2Proof/Laws/PerInstr.lean ====
section
/-! SUPPORT. Statements made per instruction: how many bytes an instruction's encoding moves over the bus
(30_encoding.md R84, R85, R86, R93, R99). -/

namespace Sys2Proof.Laws

/-- The bytes that an event moves over the host bus (R99, R100); of a wait, those of one read of STATUS. -/
def EncodingSize.moved : Event → Nat
  | .access (.read _ size) => size
  | .access (.write _ size _) => size
  | .bytes _ bs => bs.length
  | .wait => 4
  | .blockTurn => 0
  | .reset => 0

/-- The bytes of a row: one register write, `5 + L`, `6 + L`, or 20 (R84, R85, R86, R93). -/
def EncodingSize.ofRow : Instr → Nat
  | .checksum _ => 4
  | .encodeCmd _ => 4
  | .decodeRsp _ => 4
  | .extract _ => 4
  | .decodeFrame _ => 4
  | .reservedOp5 _ => 4
  | .reservedOp6_7 _ _ => 4
  | .reservedOp8_15 _ _ => 4
  | .ackDone => 4
  | .cmdFrame _ _ payload => 5 + payload.length
  | .rspFrame _ _ _ payload _ => 6 + payload.length
  | .streamFrame _ _ _ => 20

/-- A well-formed instruction's encoding moves its row's bytes, never more than the 261 that IBUF always
holds (R8). -/
def EncodingSize.Statement (i : Instr) : Prop :=
  wellFormed i = true →
    EncodingSize.moved (encode i) = EncodingSize.ofRow i ∧ EncodingSize.ofRow i ≤ 261

theorem EncodingSize.checksum (irqEn : Bool) : EncodingSize.Statement (.checksum irqEn) :=
  fun _ => ⟨rfl, Nat.le_of_ble_eq_true rfl⟩

theorem EncodingSize.encodeCmd (irqEn : Bool) : EncodingSize.Statement (.encodeCmd irqEn) :=
  fun _ => ⟨rfl, Nat.le_of_ble_eq_true rfl⟩

theorem EncodingSize.decodeRsp (irqEn : Bool) : EncodingSize.Statement (.decodeRsp irqEn) :=
  fun _ => ⟨rfl, Nat.le_of_ble_eq_true rfl⟩

theorem EncodingSize.extract (irqEn : Bool) : EncodingSize.Statement (.extract irqEn) :=
  fun _ => ⟨rfl, Nat.le_of_ble_eq_true rfl⟩

theorem EncodingSize.decodeFrame (irqEn : Bool) : EncodingSize.Statement (.decodeFrame irqEn) :=
  fun _ => ⟨rfl, Nat.le_of_ble_eq_true rfl⟩

theorem EncodingSize.reservedOp5 (irqEn : Bool) : EncodingSize.Statement (.reservedOp5 irqEn) :=
  fun _ => ⟨rfl, Nat.le_of_ble_eq_true rfl⟩

theorem EncodingSize.reservedOp6_7 (lowOp : BitVec 1) (irqEn : Bool) :
    EncodingSize.Statement (.reservedOp6_7 lowOp irqEn) := fun _ => ⟨rfl, Nat.le_of_ble_eq_true rfl⟩

theorem EncodingSize.reservedOp8_15 (lowOp : BitVec 3) (irqEn : Bool) :
    EncodingSize.Statement (.reservedOp8_15 lowOp irqEn) := fun _ => ⟨rfl, Nat.le_of_ble_eq_true rfl⟩

theorem EncodingSize.ackDone : EncodingSize.Statement .ackDone := fun _ => ⟨rfl, Nat.le_of_ble_eq_true rfl⟩

theorem EncodingSize.cmdFrame (i : Nat) (cmd : Byte) (payload : List Byte) :
    EncodingSize.Statement (.cmdFrame i cmd payload) := by
  intro h
  simp only [wellFormed, payloadFits, decide_eq_true_eq] at h
  exact ⟨commandFrame_length cmd payload, by simp only [EncodingSize.ofRow]; omega⟩

theorem EncodingSize.rspFrame (i : Nat) (status cmd : Byte) (payload : List Byte) (chk : Byte) :
    EncodingSize.Statement (.rspFrame i status cmd payload chk) := by
  intro h
  simp only [wellFormed, payloadFits, decide_eq_true_eq] at h
  exact ⟨responseFrame_length status cmd payload chk, by simp only [EncodingSize.ofRow]; omega⟩

theorem EncodingSize.streamFrame (i : Nat) (digital : Byte) (an : Channels) :
    EncodingSize.Statement (.streamFrame i digital an) := fun _ => ⟨rfl, Nat.le_of_ble_eq_true rfl⟩

end Sys2Proof.Laws
end

