-- ==== Sys2Proof/Laws/Program.lean ====
section
/-! SUPPORT. The host's programs: what a `bytes` line encodes as, the accesses of a list of events, and the
step that one of its writes takes (30_encoding.md R98 to R100). -/

namespace Sys2Proof.Machine

@[simp] theorem byteWrites_length (i : Nat) (bs : List Byte) : (byteWrites i bs).length = bs.length := by
  induction bs generalizing i with
  | nil => rfl
  | cons b bs ih => simp [byteWrites, ih]

/-- The j-th access of a `bytes` line writes its j-th byte at the j-th offset. -/
theorem byteWrites_getElem? (i : Nat) (bs : List Byte) (j : Nat) :
    (byteWrites i bs)[j]? = bs[j]?.map fun b => .write (ibufAddr (i + j)) 1 (b.setWidth 32) := by
  induction bs generalizing i j with
  | nil => rfl
  | cons b bs ih =>
    cases j with
    | zero => rfl
    | succ j => simpa [byteWrites, show i + 1 + j = i + (j + 1) by omega] using ih (i + 1) j

/-- The agenda of one program after another. -/
theorem programEvents_append (p q : List Line) : programEvents (p ++ q) = programEvents p ++ programEvents q := by
  induction p with
  | nil => rfl
  | cons l p ih => simp [programEvents, ih]

/-- Single accesses are their own encoding. -/
@[simp] theorem eventAccesses_map_access (as : List Access) (reads : List Nat) :
    eventAccesses (as.map .access) reads = as := by
  induction as with
  | nil => rfl
  | cons a as ih => simp [eventAccesses, ih]

@[simp] theorem steps_zero (s : State) : steps 0 s = .next s := rfl

@[simp] theorem steps_succ (n : Nat) (s : State) : steps (n + 1) s = andThen (step s) (steps n) := rfl

/-- The step of one write of a `bytes` line: idle, and the byte exists. -/
theorem step_byteWrite {i : Nat} {b : Byte} {rest : List Event} {s : State} (hb : s.busy = false)
    (hi : i + 1 ≤ Config.ibufBytes)
    (ha : s.agenda = .access (.write (ibufAddr i) 1 (b.setWidth 32)) :: rest) :
    step s = .next ((s.popped rest).withMem (writeByte s.mem (ibufAddr i) b)) := by
  have hd : decode (.access (.write (ibufAddr i) 1 (b.setWidth 32))) = .error .noOpcodeRow := by
    simp [decode, decodeAccess]
  have hl := locate_ibuf (i := i) (size := 1) rfl (Nat.mod_one i) hi
  simp [step, ha, hd, perform, busWrite, hl, hb, lanes, writeBytes]

end Sys2Proof.Machine
end

