-- ==== Sys2Proof/Tests/Slice0.lean ====
section
/-! SUPPORT. The model's own tests. Expected values come from 95_test_vectors.md (its ids are named) or are
worked out from the encoding tables of 30_encoding.md; then, for each obligation that has hypotheses, a
concrete state and operands that meet them, at the boundaries of its clauses. -/

namespace Sys2Proof.Tests

open Sys2Proof.Machine

/-! ### Helpers -/

/-- Idle after reset, with `bs` written from IBUF[0] on and named by IN_OFF and IN_LEN. -/
def idleWith (bs : List Byte) : State :=
  { State.reset with inLen := BitVec.ofNat 16 bs.length, mem := writeBytes [] (ibufAddr 0) bs }

/-- The same with operation `op` in progress over `bs`. -/
def busyWith (op : BitVec 4) (bs : List Byte) : State :=
  { idleWith bs with busy := true, op := op, opL := op, inLenL := BitVec.ofNat 16 bs.length }

/-- The next state of a step, where there is one. -/
def after (r : Result) : Option State :=
  match r with
  | .next s => some s
  | .fault _ => none
  | .refused _ => none

/-- Reference frame F1. -/
def frameF1 : List Byte :=
  [0x7A, 0x7B, 0xA5, 0x00, 0x00, 0x01, 0x00, 0xFF, 0xFF, 0x34, 0x12, 0x00, 0x80, 0xFF, 0x00, 0x00, 0xFF, 0xFF, 0x7F, 0x7C]

/-- What reference frame F1 decodes to. -/
def channelsF1 : Channels := ⟨0x0000, 0x0001, 0xFFFF, 0x1234, 0x8000, 0x00FF, 0xFF00, 0x7FFF⟩

/-- The input of `idleWith`. -/
theorem idleWith_input {bs : List Byte} (h : bs.length ≤ 261) :
    inputIs (idleWith bs).mem (idleWith bs).inOff (idleWith bs).inLen bs := by
  have hd := ibufBytes_domain
  have hl : (BitVec.ofNat 16 bs.length).toNat = bs.length := by
    rw [BitVec.toNat_ofNat]
    omega
  refine inputIs_writeBytes [] (off := 0) (len := BitVec.ofNat 16 bs.length) hl.symm ?_
  rw [hl, show (0 : Half).toNat = 0 from rfl]
  omega

/-- The input of `busyWith`. -/
theorem busyWith_input (op : BitVec 4) {bs : List Byte} (h : bs.length ≤ 261) :
    inputIs (busyWith op bs).mem (busyWith op bs).inOffL (busyWith op bs).inLenL bs := idleWith_input h

/-- The completion of a defined operation of `busyWith`. -/
theorem busyWith_turn {op : BitVec 4} {bs : List Byte} (ho : op.toNat < 5) (h : bs.length ≤ 261) :
    blockTurn (busyWith op bs) = .next ((busyWith op bs).completed (operate op 0 bs)) := by
  obtain ⟨h1, h2⟩ := inputIs_iff.1 (busyWith_input op h)
  rw [blockTurn, if_pos (by rfl)]
  exact completion_operate ho h1 h2

/-- The state after that completion. -/
def doneWith (op : BitVec 4) (bs : List Byte) : State := (busyWith op bs).completed (operate op 0 bs)

/-- A range that reaches past any IBUF (TC11). -/
theorem farRange_bad : rangeBad 0xFFFF 2 := by
  have := ibufBytes_domain
  rw [rangeBad, show (0xFFFF : Half).toNat = 65535 from rfl, show (2 : Half).toNat = 2 from rfl]
  omega

/-- CHECKSUM in progress over that range. -/
def farBusy : State := { State.reset with busy := true, inOffL := 0xFFFF, inLenL := 2 }

/-! ### WellFormed: the one check, a payload over 255 bytes -/

theorem test_wellFormed_refuses_long_command : wellFormed (.cmdFrame 0 0x10 (List.replicate 256 0)) = false := by
  rw [wellFormed, payloadFits, List.length_replicate]
  rfl

theorem test_wellFormed_refuses_long_response :
    wellFormed (.rspFrame 0 0x00 0x10 (List.replicate 256 0) 0x00) = false := by
  rw [wellFormed, payloadFits, List.length_replicate]
  rfl

theorem test_wellFormed_accepts_longest_payload : wellFormed (.cmdFrame 0 0x10 (List.replicate 255 0)) = true := by
  rw [wellFormed, payloadFits, List.length_replicate]
  rfl

/-! ### Decode: words written out from R23, R29, R81, R82, R86, R93 and R94 -/

theorem test_decode_checksum : decodeTableWord 32 0b00000000000000000000000000000001 = some (.checksum false) := by
  decide

/-- TS4: the reserved bits 3:2 of a CTRL write are ignored. -/
theorem test_decode_checksum_reserved_bits : decodeTableWord 32 0x0000000D = some (.checksum false) := by decide

theorem test_decode_encodeCmd : decodeTableWord 32 0b00000000000000000000000000010011 = some (.encodeCmd true) := by
  decide

theorem test_decode_decodeRsp : decodeTableWord 32 0b00000000000000000000000000100001 = some (.decodeRsp false) := by
  decide

theorem test_decode_extract : decodeTableWord 32 0b00000000000000000000000000110011 = some (.extract true) := by
  decide

theorem test_decode_decodeFrame : decodeTableWord 32 0b00000000000000000000000001000001 = some (.decodeFrame false) := by
  decide

theorem test_decode_reservedOp5 : decodeTableWord 32 0b00000000000000000000000001010001 = some (.reservedOp5 false) := by
  decide

theorem test_decode_reservedOp6_7 :
    decodeTableWord 32 0x00000061 = some (.reservedOp6_7 0 false) ∧
    decodeTableWord 32 0x00000073 = some (.reservedOp6_7 1 true) := by decide

theorem test_decode_reservedOp8_15 :
    decodeTableWord 32 0x00000081 = some (.reservedOp8_15 0 false) ∧
    decodeTableWord 32 0x00000091 = some (.reservedOp8_15 1 false) ∧
    decodeTableWord 32 0x000000F3 = some (.reservedOp8_15 7 true) := by decide

theorem test_decode_ackDone : decode (.access (.write 0x04 4 0x00000002)) = .ok .ackDone := by decide

/-- W1, corrected: command 0x01 with payload 0A. -/
theorem test_decode_cmdFrame :
    decode (.bytes 0 [0x55, 0xAA, 0x01, 0x01, 0x0A, 0x0A]) = .ok (.cmdFrame 0 0x01 [0x0A]) := by decide

/-- The misprinted checksum 0E of the source is not a command frame (90_conflicts.md C1). -/
theorem test_decode_cmdFrame_bad_checksum :
    decode (.bytes 0 [0x55, 0xAA, 0x01, 0x01, 0x0A, 0x0E]) = .error .badChecksum := by decide

/-- W3: a response frame with a wrong checksum byte is still a response frame. -/
theorem test_decode_rspFrame :
    decode (.bytes 0 [0x55, 0xAB, 0x02, 0x05, 0x03, 0x11, 0x22, 0x33, 0x05]) =
      .ok (.rspFrame 0 0x02 0x05 [0x11, 0x22, 0x33] 0x05) := by decide

theorem test_decode_streamFrame : decode (.bytes 3 frameF1) = .ok (.streamFrame 3 0xA5 channelsF1) := by decide

theorem test_decode_rejects_by_name :
    decode (.access (.write 0x00 4 0x00000052)) = .error .startBitClear ∧
    decode (.access (.write 0x04 4 0x000001F1)) = .error .ackBitClear ∧
    decode (.access (.write 0x08 4 0x00000001)) = .error .noOpcodeRow ∧
    decode (.bytes 0 [0x55, 0xAC, 0x00]) = .error .noMarker ∧
    decode (.bytes 0 (frameF1.take 19)) = .error .badLength ∧
    decode (.bytes 0 (frameF1.take 19 ++ [0x7D])) = .error .badEndSentinel ∧
    decode .wait = .error .noInstruction := by decide

/-! ### One step of each instruction, and of its completion -/

/-- The start step of R95: BUSY set, the operands latched, DONE cleared. -/
theorem test_start_latches :
    (after (exec (.encodeCmd true) { State.reset with arg := 0x10, done := true })).map
      (fun t => (t.busy, t.done, t.irqEn, t.op, t.opL, t.argL)) = some (true, false, true, 1, 1, 0x10) := by decide

/-- TC6. -/
theorem test_checksum : (after (blockTurn (busyWith 0 [0x12, 0x34, 0x56, 0x78]))).map
    (fun t => (t.result, t.out.chkResult)) = some (.ok, 0x08) := by decide

/-- TC11: BAD_RANGE whatever IBUF_BYTES is. -/
theorem test_checksum_badRange : (after (blockTurn farBusy)).map statusWord = some 0x00000072 := by
  rw [blockTurn, if_pos (show farBusy.busy = true from rfl),
    completion_badRange (by decide) (rangeBad_iff.1 farRange_bad)]
  decide

/-- TE5. -/
theorem test_encodeCmd : (after (blockTurn { busyWith 1 [0x55, 0xAA] with argL := 0x02 })).map
    (fun t => (t.result, t.out.outLen, t.out.chkResult, readBytes t.mem (obufAddr 0) 7)) =
      some (.ok, 7, 0xFF, some [0x55, 0xAA, 0x02, 0x02, 0x55, 0xAA, 0xFF]) := by decide

/-- TD12: a checksum mismatch is the flag CHK_OK = 0. -/
theorem test_decodeRsp_mismatch :
    (after (blockTurn (busyWith 2 [0xFF, 0x55, 0xAB, 0x00, 0x07, 0x01, 0x5A, 0x5D]))).map
      (fun t => (statusWord t, t.out.rspHdr, t.out.rspChk, readByte t.mem (obufAddr 0))) =
        some (0x00000012, 0x010700, 0x5C5D, some 0x5A) := by decide

/-- TD15: only the first marker counts. -/
theorem test_decodeRsp_first_marker :
    (after (blockTurn (busyWith 2 [0x55, 0xAB, 0x00, 0x01, 0x10, 0x55, 0xAB, 0x00, 0x07, 0x00, 0x07]))).map
      (fun t => (t.result, t.out.rspOffset, t.out.rspHdr)) = some (.incomplete, 0, 0) := by decide

/-- TX5: stray end sentinels are ignored. -/
theorem test_extract : (after (blockTurn (busyWith 3 ([0x7C, 0x7C] ++ frameF1)))).map
    (fun t => (t.out.frameCount, t.out.extCursor, readDesc t.mem 0)) = some (1, 22, some 0x00150002) := by decide

/-- TX11, then the tail of TX6: a start sentinel inside a candidate starts nothing. -/
theorem test_extract_inner_start : (after (blockTurn (busyWith 3 [0x7A, 0x7B, 0x7A, 0x7B, 0x7C, 0x7A, 0x7B, 0x01]))).map
    (fun t => (t.out.frameCount, t.out.extCursor, t.scanCursor, readDesc t.mem 0)) =
      some (1, 5, 5, some 0x00040000) := by decide

/-- TF1. -/
theorem test_decodeFrame : (after (blockTurn (busyWith 4 frameF1))).map
    (fun t => (t.result, t.out.telemDigital, t.out.an)) = some (.ok, 0xA5, channelsF1) := by decide

/-- TF6. -/
theorem test_decodeFrame_malformed : (after (blockTurn (busyWith 4 (frameF1.take 19 ++ [0x7D])))).map
    (fun t => (statusWord t, t.out)) = some (0x00000052, zeroOutputs) := by decide

/-- TS2: OP 5. -/
theorem test_reservedOp5 : (after (andThen (exec (.reservedOp5 false) State.reset) blockTurn)).map statusWord =
    some 0x00000062 := by decide

/-- OP 7. -/
theorem test_reservedOp6_7 : (after (andThen (exec (.reservedOp6_7 1 false) State.reset) blockTurn)).map
    (fun t => (statusWord t, ctrlWord t)) = some (0x00000062, 0x00000070) := by decide

/-- TS3: OP 15. -/
theorem test_reservedOp8_15 : (after (andThen (exec (.reservedOp8_15 7 false) State.reset) blockTurn)).map
    (fun t => (statusWord t, ctrlWord t)) = some (0x00000062, 0x000000F0) := by decide

/-- TS6: the acknowledge clears DONE and irq, and keeps RESULT. -/
theorem test_ackDone : (after (exec .ackDone { doneWith 0 [] with irqEn := true })).map
    (fun t => (statusWord t, irq t)) = some (0x00000010, false) := by decide

/-- W9: get device info, stored in stream order. -/
theorem test_cmdFrame : (after (exec (.cmdFrame 2 0x07 []) State.reset)).map
    (fun t => (readBytes t.mem (ibufAddr 2) 5, t.busy)) = some (some [0x55, 0xAA, 0x07, 0x00, 0x07], false) := by
  decide

/-- TD10's frame. -/
theorem test_rspFrame : (after (exec (.rspFrame 0 0x00 0x07 [] 0x07) State.reset)).map
    (fun t => readBytes t.mem (ibufAddr 0) 6) = some (some [0x55, 0xAB, 0x00, 0x07, 0x00, 0x07]) := by decide

/-- F1, each sample low byte first. -/
theorem test_streamFrame : (after (exec (.streamFrame 1 0xA5 channelsF1) State.reset)).map
    (fun t => readBytes t.mem (ibufAddr 1) 20) = some (some frameF1) := by decide

/-- The word of P4's first line: DE AD BE EF in IBUF[0..3]. -/
theorem test_busWrite_lanes : (after (busWrite 0x10000 4 0xEFBEADDE State.reset)).map
    (fun t => readBytes t.mem (ibufAddr 0) 4) = some (some [0xDE, 0xAD, 0xBE, 0xEF]) := by decide

/-- TS10: a STATUS write cannot reach BUSY, RESULT or CHK_OK. -/
theorem test_status_write_ignored : busWrite 0x04 4 0x000001F1 (doneWith 0 []) = .next (doneWith 0 []) := rfl

/-- What the host asks of a table word: it runs as the first instruction after reset. -/
theorem test_placed_word_runs : step (State.reset.withFetchWord 32 0x00000051) =
    exec (.reservedOp5 false) State.reset := rfl

/-! ### Witnesses: concrete states and operands that meet each obligation's hypotheses -/

theorem witness_DecodeAfterEncodeIsIdentity :
    wellFormed .ackDone = true ∧ wellFormed (.cmdFrame 0 0x07 []) = true ∧
    wellFormed (.rspFrame 0 0x00 0x07 [0x5A] 0x00) = true ∧
    wellFormed (.cmdFrame 0 0x10 (List.replicate 255 0)) = true :=
  ⟨rfl, rfl, rfl, test_wellFormed_accepts_longest_payload⟩

theorem witness_DecodedEventIsItsEncoding :
    decode (.access (.write 0x00 4 0xFFFFFF0D)) = .ok (.checksum false) ∧
    decode (.access (.write 0x04 4 0xFFFFFFFF)) = .ok .ackDone ∧
    decode (.bytes 9 [0x55, 0xAA, 0x07, 0x00, 0x07]) = .ok (.cmdFrame 9 0x07 []) := by decide

theorem witness_EveryStartWriteMatchesOneRow :
    (0xFFFFFFFF : Word).getLsbD 0 = true ∧ (0xFFFFFFFE : Word).getLsbD 0 = false := by decide

/-- Reset with one event on the agenda. -/
def withEvent (e : Event) : State := { State.reset with agenda := [e] }

theorem witness_ProgramLinesEncodeAsTheirAccesses : [(0x0A : Byte), 0x0B][1]? = some 0x0B := rfl

theorem witness_StepRunsTheDecodedInstruction :
    (withEvent (.access (.write 0x00 4 0x31))).agenda = .access (.write 0x00 4 0x31) :: [] ∧
    decode (.access (.write 0x00 4 0x31)) = .ok (.extract false) := ⟨rfl, rfl⟩

/-- The wait's three cases: DONE = 1; BUSY = 1; neither. -/
theorem witness_StepPerformsTheHostsEvent :
    (withEvent (.access (.read 0x04 4))).agenda = .access (.read 0x04 4) :: [] ∧
    (withEvent (.access (.write 0x08 4 1))).agenda = .access (.write 0x08 4 1) :: [] ∧
    (withEvent (.bytes 0 [0x55])).agenda = .bytes 0 [0x55] :: [] ∧
    ({ withEvent .wait with done := true }.agenda = .wait :: [] ∧ { withEvent .wait with done := true }.done = true) ∧
    ({ withEvent .wait with busy := true }.agenda = .wait :: [] ∧ { withEvent .wait with busy := true }.done = false ∧
      { withEvent .wait with busy := true }.busy = true) ∧
    ((withEvent .wait).agenda = .wait :: [] ∧ (withEvent .wait).done = false ∧ (withEvent .wait).busy = false) ∧
    (withEvent .blockTurn).agenda = .blockTurn :: [] ∧ (withEvent .reset).agenda = .reset :: [] ∧
    State.reset.agenda = [] := ⟨rfl, rfl, rfl, ⟨rfl, rfl⟩, ⟨rfl, rfl, rfl⟩, ⟨rfl, rfl, rfl⟩, rfl, rfl, rfl⟩

theorem witness_PlacedWordIsRunByTheNextStep : decodeTableWord 32 0x00000051 = some (.reservedOp5 false) := by decide

theorem witness_InstructionIsItsBusWrite :
    decode (.access (.write 0x00 4 0x00000021)) = .ok (.decodeRsp false) ∧
    decode (.access (.write 0x04 4 0x00000002)) = .ok .ackDone := by decide

/-- Idle, with an input range out of bounds. -/
def farIdle : State := { State.reset with inOff := 0xFFFF, inLen := 2 }

/-- Idle, with an empty input range at the very end of IBUF (TC10). -/
def endIdle : State := { State.reset with inOff := BitVec.ofNat 16 Config.ibufBytes }

theorem endIdle_inOff : endIdle.inOff.toNat = Config.ibufBytes := by
  have := ibufBytes_domain
  rw [endIdle, BitVec.toNat_ofNat]
  omega

theorem endIdle_input : inputIs endIdle.mem endIdle.inOff endIdle.inLen [] := by
  refine ⟨rfl, ?_, fun j hj => absurd hj (Nat.not_lt_zero j)⟩
  rw [endIdle_inOff]
  exact Nat.le_refl _

theorem witness_CtrlStartWritePerformsTheStartStep :
    ((0x51 : Word).getLsbD 0 = true ∧ State.reset.busy = false ∧ 5 ≤ ((0x51 : Word).extractLsb' 4 4).toNat) ∧
    ((0x01 : Word).getLsbD 0 = true ∧ farIdle.busy = false ∧ rangeBad farIdle.inOff farIdle.inLen) ∧
    ((0x43 : Word).getLsbD 0 = true ∧ endIdle.busy = false ∧
      ∃ input, inputIs endIdle.mem endIdle.inOff endIdle.inLen input) :=
  ⟨by decide, ⟨by decide, rfl, farRange_bad⟩, by decide, rfl, [], endIdle_input⟩

theorem witness_DefinedOperationsStart :
    ∀ op ∈ [(Instr.checksum true, (0 : BitVec 4)), (.encodeCmd true, 1), (.decodeRsp true, 2), (.extract true, 3),
      (.decodeFrame true, 4)],
    op ∈ [(Instr.checksum true, (0 : BitVec 4)), (.encodeCmd true, 1), (.decodeRsp true, 2), (.extract true, 3),
      (.decodeFrame true, 4)] ∧
    (farIdle.busy = false ∧ rangeBad farIdle.inOff farIdle.inLen) ∧
    (endIdle.busy = false ∧ ∃ input, inputIs endIdle.mem endIdle.inOff endIdle.inLen input) :=
  fun _ h => ⟨h, ⟨rfl, farRange_bad⟩, rfl, [], endIdle_input⟩

theorem witness_ReservedOperationsEndInBadOp :
    State.reset.busy = false ∧ (Instr.reservedOp5 true = .reservedOp5 true ∧ (5 : BitVec 4) = 5) ∧
    (∃ low, Instr.reservedOp6_7 1 true = .reservedOp6_7 low true ∧ (7 : BitVec 4) = 3#3 ++ low) ∧
    (∃ low, Instr.reservedOp8_15 0 true = .reservedOp8_15 low true ∧ (8 : BitVec 4) = 1#1 ++ low) :=
  ⟨rfl, ⟨rfl, rfl⟩, ⟨1, rfl, by decide⟩, ⟨0, rfl, by decide⟩⟩

theorem witness_StartWhileBusyIsRefused :
    ((busyWith 0 []).busy = true ∧ (0x11 : Word).getLsbD 0 = true) ∧ (0x52 : Word).getLsbD 0 = false := by decide

/-- Idle, with IBUF[0] named as the input and never written. -/
def unwrittenIdle : State := { State.reset with inLen := 1 }

theorem witness_StartOverUnwrittenInputIsRefused :
    Instr.checksum true ∈ [Instr.checksum true, .encodeCmd true, .decodeRsp true, .extract true, .decodeFrame true] ∧
    unwrittenIdle.busy = false ∧ unwrittenIdle.inOff.toNat + unwrittenIdle.inLen.toNat ≤ Config.ibufBytes ∧
    0 < unwrittenIdle.inLen.toNat ∧ readByte unwrittenIdle.mem (ibufAddr (unwrittenIdle.inOff.toNat + 0)) = none := by
  have := ibufBytes_domain
  refine ⟨by decide, rfl, ?_, by decide, rfl⟩
  show (0 : Half).toNat + (1 : Half).toNat ≤ _
  rw [show (0 : Half).toNat = 0 from rfl, show (1 : Half).toNat = 1 from rfl]
  omega

theorem witness_ChecksumComputesTheXorFold :
    ((idleWith [0x12, 0x34]).busy = false ∧
      inputIs (idleWith [0x12, 0x34]).mem (idleWith [0x12, 0x34]).inOff (idleWith [0x12, 0x34]).inLen [0x12, 0x34]) ∧
    (endIdle.busy = false ∧ inputIs endIdle.mem endIdle.inOff endIdle.inLen []) :=
  ⟨⟨rfl, idleWith_input (by decide)⟩, rfl, endIdle_input⟩

theorem witness_ChecksumAlgebra :
    [(0x01 : Byte), 0x02].Perm [0x02, 0x01] ∧ [(0x05 : Byte), 0x07, 0x05].count 0x05 % 2 = 0 ∧
    (0x01 : Byte) ≠ 0x02 := by decide

theorem witness_EncodeCmdBuildsTheFrame :
    (idleWith (List.replicate 255 0xAB)).busy = false ∧
    inputIs (idleWith (List.replicate 255 0xAB)).mem (idleWith (List.replicate 255 0xAB)).inOff
      (idleWith (List.replicate 255 0xAB)).inLen (List.replicate 255 0xAB) ∧
    (List.replicate 255 (0xAB : Byte)).length ≤ 255 := by
  refine ⟨rfl, idleWith_input ?_, ?_⟩ <;> rw [List.length_replicate] <;> decide

theorem witness_EncodeCmdRejectsLongPayload :
    (idleWith (List.replicate 256 0)).busy = false ∧
    inputIs (idleWith (List.replicate 256 0)).mem (idleWith (List.replicate 256 0)).inOff
      (idleWith (List.replicate 256 0)).inLen (List.replicate 256 0) ∧
    255 < (List.replicate 256 (0 : Byte)).length := by
  refine ⟨rfl, idleWith_input ?_, ?_⟩ <;> rw [List.length_replicate] <;> decide

theorem witness_EncodedFrameChecksumsToZero :
    (busyWith 1 [0x0A]).busy = true ∧ (busyWith 1 [0x0A]).opL = 1 ∧
    blockTurn (busyWith 1 [0x0A]) = .next (doneWith 1 [0x0A]) ∧ (doneWith 1 [0x0A]).result = .ok :=
  ⟨rfl, rfl, busyWith_turn (by decide) (by decide), rfl⟩

theorem witness_EncodedFrameIsOneCommandFrame :
    (idleWith [0x0A]).busy = false ∧
    inputIs (idleWith [0x0A]).mem (idleWith [0x0A]).inOff (idleWith [0x0A]).inLen [0x0A] ∧
    [(0x0A : Byte)].length ≤ 255 := ⟨rfl, idleWith_input (by decide), by decide⟩

theorem witness_DecodeRspWithoutMarkerIsNotFound :
    (idleWith [0xAB, 0x55]).busy = false ∧
    inputIs (idleWith [0xAB, 0x55]).mem (idleWith [0xAB, 0x55]).inOff (idleWith [0xAB, 0x55]).inLen [0xAB, 0x55] ∧
    ∀ j, ¬ pairAt [0xAB, 0x55] 0x55 0xAB j :=
  ⟨rfl, idleWith_input (by decide), fun j => (find2_eq_none_iff (start := 0)).1 (by decide) j (Nat.zero_le j)⟩

/-- TD7 and TD8: one byte short of the header, and one byte short of the body. -/
theorem witness_DecodeRspShortFrameIsIncomplete :
    ((idleWith [0x55, 0xAB, 0x00, 0x01]).busy = false ∧
      inputIs (idleWith [0x55, 0xAB, 0x00, 0x01]).mem 0 4 [0x55, 0xAB, 0x00, 0x01] ∧
      firstPair [0x55, 0xAB, 0x00, 0x01] 0 0x55 0xAB 0 ∧ [(0x55 : Byte), 0xAB, 0x00, 0x01].length - 0 < 5) ∧
    ((idleWith [0x55, 0xAB, 0x00, 0x01, 0x00]).busy = false ∧
      inputIs (idleWith [0x55, 0xAB, 0x00, 0x01, 0x00]).mem 0 5 [0x55, 0xAB, 0x00, 0x01, 0x00] ∧
      firstPair [0x55, 0xAB, 0x00, 0x01, 0x00] 0 0x55 0xAB 0 ∧
      ∃ len : Byte, [(0x55 : Byte), 0xAB, 0x00, 0x01, 0x00][0 + 4]? = some len ∧
        [(0x55 : Byte), 0xAB, 0x00, 0x01, 0x00].length - 0 < 6 + len.toNat) :=
  ⟨⟨rfl, idleWith_input (by decide), find2_eq_some_iff.1 (by decide), by decide⟩,
    rfl, idleWith_input (by decide), find2_eq_some_iff.1 (by decide), 0x00, rfl, by decide⟩

/-- TD12. -/
theorem witness_DecodeRspDecodesTheFirstFrame :
    (idleWith [0xFF, 0x55, 0xAB, 0x00, 0x07, 0x01, 0x5A, 0x5D]).busy = false ∧
    [(0x5A : Byte)].length = (0x01 : Byte).toNat ∧
    inputIs (idleWith [0xFF, 0x55, 0xAB, 0x00, 0x07, 0x01, 0x5A, 0x5D]).mem 0 8
      ([0xFF] ++ [0x55, 0xAB, 0x00, 0x07, 0x01] ++ [0x5A] ++ [0x5D] ++ []) ∧
    ∀ j, ¬ pairAt [0xFF] 0x55 0xAB j :=
  ⟨rfl, rfl, idleWith_input (by decide), fun j => (find2_eq_none_iff (start := 0)).1 (by decide) j (Nat.zero_le j)⟩

/-- Idle, with room named for the longest response frame. -/
def longestIdle : State := { State.reset with inLen := 261 }

theorem witness_StoredResponseFrameIsDecoded :
    longestIdle.busy = false ∧ (List.replicate 255 (0 : Byte)).length ≤ 255 ∧
    longestIdle.inLen.toNat = 6 + (List.replicate 255 (0 : Byte)).length ∧
    longestIdle.inOff.toNat + longestIdle.inLen.toNat ≤ Config.ibufBytes := by
  have := ibufBytes_domain
  rw [List.length_replicate]
  refine ⟨rfl, by decide, rfl, ?_⟩
  show (0 : Half).toNat + (261 : Half).toNat ≤ _
  rw [show (0 : Half).toNat = 0 from rfl, show (261 : Half).toNat = 261 from rfl]
  omega

theorem witness_ExtractFindsExactlyTheCandidates :
    (idleWith frameF1).busy = false ∧
    inputIs (idleWith frameF1).mem (idleWith frameF1).inOff (idleWith frameF1).inLen frameF1 :=
  ⟨rfl, idleWith_input (by decide)⟩

/-- Frame F1, then the 3-byte candidate of TX7. -/
def twoCandidates : List Byte := frameF1 ++ [0x7A, 0x7B, 0x7C]

theorem witness_ExtractedRangesRise :
    (busyWith 3 twoCandidates).busy = true ∧ (busyWith 3 twoCandidates).opL = 3 ∧
    blockTurn (busyWith 3 twoCandidates) = .next (doneWith 3 twoCandidates) ∧
    (doneWith 3 twoCandidates).result = .ok ∧ 0 < (doneWith 3 twoCandidates).out.frameCount.toNat ∧
    0 < 1 ∧ 1 < (doneWith 3 twoCandidates).out.frameCount.toNat :=
  ⟨rfl, rfl, busyWith_turn (by decide) (by decide), rfl, by decide, by decide, by decide⟩

/-- As many candidates as fit: one in three bytes. -/
theorem witness_FrameCountFitsTheTable :
    (busyWith 3 [0x7A, 0x7B, 0x7C]).busy = true ∧ (busyWith 3 [0x7A, 0x7B, 0x7C]).opL = 3 ∧
    blockTurn (busyWith 3 [0x7A, 0x7B, 0x7C]) = .next (doneWith 3 [0x7A, 0x7B, 0x7C]) ∧
    (doneWith 3 [0x7A, 0x7B, 0x7C]).result = .ok ∧ (doneWith 3 [0x7A, 0x7B, 0x7C]).out.frameCount = 1 :=
  ⟨rfl, rfl, busyWith_turn (by decide) (by decide), rfl, by decide⟩

theorem witness_ExtractReturnsEachWholeFrame :
    (∀ f ∈ [((0xA5 : Byte), channelsF1)], (0x7C : Byte) ∉ f.1 :: sampleBytes f.2) ∧
    (idleWith frameF1).busy = false ∧
    inputIs (idleWith frameF1).mem (idleWith frameF1).inOff (idleWith frameF1).inLen
      ([((0xA5 : Byte), channelsF1)].flatMap fun f => streamFrame f.1 f.2) := by
  have h : ([((0xA5 : Byte), channelsF1)].flatMap fun f => streamFrame f.1 f.2) = frameF1 := by decide
  rw [h]
  exact ⟨by decide, rfl, idleWith_input (by decide)⟩

/-- A candidate of 20 bytes and one of 3, each then decoded. -/
theorem witness_CandidateDecodesExactlyWhenTwentyLong :
    (busyWith 3 twoCandidates).busy = true ∧ (busyWith 3 twoCandidates).opL = 3 ∧
    inputIs (busyWith 3 twoCandidates).mem (busyWith 3 twoCandidates).inOffL (busyWith 3 twoCandidates).inLenL
      twoCandidates ∧
    blockTurn (busyWith 3 twoCandidates) = .next (doneWith 3 twoCandidates) ∧
    1 < (doneWith 3 twoCandidates).out.frameCount.toNat ∧
    (∀ f ∈ [slice twoCandidates 0 19, slice twoCandidates 20 22],
      (busyWith 4 f).busy = true ∧ (busyWith 4 f).opL = 4 ∧
      inputIs (busyWith 4 f).mem (busyWith 4 f).inOffL (busyWith 4 f).inLenL f ∧
      blockTurn (busyWith 4 f) = .next (doneWith 4 f)) := by
  have hl : ∀ f ∈ [slice twoCandidates 0 19, slice twoCandidates 20 22], f.length ≤ 261 := by decide
  exact ⟨rfl, rfl, busyWith_input 3 (by decide), busyWith_turn (by decide) (by decide), by decide,
    fun f hf => ⟨rfl, rfl, busyWith_input 4 (hl f hf), busyWith_turn (by decide) (hl f hf)⟩⟩

theorem witness_DecodeFrameReadsTelemetry :
    (idleWith frameF1).busy = false ∧
    inputIs (idleWith frameF1).mem (idleWith frameF1).inOff (idleWith frameF1).inLen frameF1 ∧
    frameF1.length = 20 ∧ frameF1[0]? = some 0x7A ∧ frameF1[1]? = some 0x7B ∧ frameF1[19]? = some 0x7C :=
  ⟨rfl, idleWith_input (by decide), rfl, rfl, rfl, rfl⟩

/-- TF4, TF7, TF8 and TF6: each of the four failures alone. -/
theorem witness_DecodeFrameRejectsMalformed :
    (∀ f ∈ [frameF1.take 19, 0x7B :: frameF1.drop 1, 0x7A :: 0x7A :: frameF1.drop 2, frameF1.take 19 ++ [0x7D]],
      (idleWith f).busy = false ∧ inputIs (idleWith f).mem (idleWith f).inOff (idleWith f).inLen f) ∧
    (frameF1.take 19).length ≠ 20 ∧ (0x7B :: frameF1.drop 1)[0]? ≠ some 0x7A ∧
    (0x7A :: 0x7A :: frameF1.drop 2)[1]? ≠ some 0x7B ∧ (frameF1.take 19 ++ [0x7D]).getLast? ≠ some 0x7C := by
  have hl : ∀ f ∈ [frameF1.take 19, 0x7B :: frameF1.drop 1, 0x7A :: 0x7A :: frameF1.drop 2,
      frameF1.take 19 ++ [0x7D]], f.length ≤ 261 := by decide
  exact ⟨fun f hf => ⟨rfl, idleWith_input (hl f hf)⟩, by decide, by decide, by decide, by decide⟩

/-- Idle, with the last 20 bytes of IBUF named as the input. -/
def lastFrameIdle : State :=
  { State.reset with inOff := BitVec.ofNat 16 (Config.ibufBytes - 20), inLen := 20 }

theorem witness_StoredStreamFrameIsDecoded :
    lastFrameIdle.busy = false ∧ lastFrameIdle.inLen = 20 ∧ lastFrameIdle.inOff.toNat + 20 ≤ Config.ibufBytes := by
  have := ibufBytes_domain
  refine ⟨rfl, rfl, ?_⟩
  show (BitVec.ofNat 16 (Config.ibufBytes - 20)).toNat + 20 ≤ _
  rw [BitVec.toNat_ofNat]
  omega

/-- CHECKSUM in progress over an empty range at the very end of IBUF. -/
def endBusy : State := { endIdle with busy := true, inOffL := endIdle.inOff }

/-- The same with one byte, so that the range reaches one byte past the end. -/
def pastBusy : State := { endBusy with inLenL := 1 }

/-- Both sides of the bound: a range of one byte past the end, and an empty one at it. -/
theorem witness_RangePastIbufIsBadRange :
    (endBusy.busy = true ∧ endBusy.opL.toNat < 5 ∧ endBusy.inOffL.toNat + endBusy.inLenL.toNat ≤ Config.ibufBytes ∧
      blockTurn endBusy = .next (endBusy.completed (operate 0 0 []))) ∧
    (pastBusy.busy = true ∧ pastBusy.opL.toNat < 5 ∧
      Config.ibufBytes < pastBusy.inOffL.toNat + pastBusy.inLenL.toNat) := by
  have h0 : endBusy.inLenL.toNat = 0 := rfl
  have h1 : endBusy.inOffL.toNat = Config.ibufBytes := endIdle_inOff
  have h2 : inputIs endBusy.mem endBusy.inOffL endBusy.inLenL [] := endIdle_input
  refine ⟨⟨rfl, by decide, by omega, ?_⟩, ?_⟩
  · obtain ⟨h3, h4⟩ := inputIs_iff.1 h2
    rw [blockTurn, if_pos (by rfl)]
    exact completion_operate (by decide) h3 h4
  · refine ⟨rfl, by decide, ?_⟩
    show Config.ibufBytes < endBusy.inOffL.toNat + (1 : Half).toNat
    rw [h1, show (1 : Half).toNat = 1 from rfl]
    omega

theorem witness_ReservedLatchIsBadOp :
    ((busyWith 5 []).busy = true ∧ 5 ≤ (busyWith 5 []).opL.toNat) ∧
    ((busyWith 15 []).busy = true ∧ 5 ≤ (busyWith 15 []).opL.toNat) := by decide

/-- A completion of each operation, the reserved ones among them. -/
theorem witness_completions :
    (∀ op : BitVec 4, op.toNat < 5 → (busyWith op []).busy = true ∧ (busyWith op []).opL = op ∧
      blockTurn (busyWith op []) = .next (doneWith op [])) ∧
    (∀ op : BitVec 4, 5 ≤ op.toNat → (busyWith op []).busy = true ∧ (busyWith op []).opL = op ∧
      blockTurn (busyWith op []) = .next ((busyWith op []).completed (noEffects .badOp))) :=
  ⟨fun _ h => ⟨rfl, rfl, busyWith_turn h (by decide)⟩,
    fun op h => ⟨rfl, rfl, by rw [blockTurn, if_pos (by rfl)]; exact completion_badOp h⟩⟩

theorem witness_OperationsEndOnlyInTheirResults :
    ((busyWith 2 []).busy = true ∧ blockTurn (busyWith 2 []) = .next (doneWith 2 []) ∧ (busyWith 2 []).opL = 2) ∧
    ((2 : BitVec 4), ResultCode.ok, true) ∈ [((0 : BitVec 4), ResultCode.ok, false), (0, .badRange, false),
      (1, .ok, false), (1, .encodingError, false), (1, .badRange, false), (2, .ok, false), (2, .ok, true),
      (2, .notFound, false), (2, .incomplete, false), (2, .badRange, false), (3, .ok, false), (3, .badRange, false),
      (4, .ok, false), (4, .malformed, false), (4, .badRange, false)] ∧ 5 ≤ (5 : BitVec 4).toNat :=
  ⟨⟨rfl, busyWith_turn (by decide) (by decide), rfl⟩, by decide, by decide⟩

/-- TD10's frame, whose checksum matches. -/
theorem witness_CompletionLeavesNoStaleOutput :
    (busyWith 2 [0x55, 0xAB, 0x00, 0x07, 0x00, 0x07]).busy = true ∧
    blockTurn (busyWith 2 [0x55, 0xAB, 0x00, 0x07, 0x00, 0x07]) =
      .next (doneWith 2 [0x55, 0xAB, 0x00, 0x07, 0x00, 0x07]) ∧
    (doneWith 2 [0x55, 0xAB, 0x00, 0x07, 0x00, 0x07]).chkOk = true :=
  ⟨rfl, busyWith_turn (by decide) (by decide), by decide⟩

/-- An INCOMPLETE and a MALFORMED completion. -/
theorem witness_CompletionFrame :
    ((busyWith 2 [0x55, 0xAB]).busy = true ∧ blockTurn (busyWith 2 [0x55, 0xAB]) = .next (doneWith 2 [0x55, 0xAB]) ∧
      (doneWith 2 [0x55, 0xAB]).result = .incomplete) ∧
    ((busyWith 4 []).busy = true ∧ blockTurn (busyWith 4 []) = .next (doneWith 4 []) ∧
      (doneWith 4 []).result ≠ .ok ∧ (doneWith 4 []).result ≠ .incomplete ∧ (busyWith 4 []).opL ≠ 3) ∧
    0 < Config.ibufBytes :=
  ⟨⟨rfl, busyWith_turn (by decide) (by decide), by decide⟩,
    ⟨rfl, busyWith_turn (by decide) (by decide), by decide, by decide, by decide⟩,
    by have := ibufBytes_domain; omega⟩

/-- A state that differs from `busyWith 1 [0x0A]` in what the operation does not use. -/
def otherBusy : State :=
  { busyWith 1 [0x0A] with op := 9, arg := 7, inOff := 5, result := .malformed, draws := 3 }

theorem witness_ResultDependsOnlyOnItsInput :
    (busyWith 1 [0x0A]).busy = true ∧ otherBusy.busy = true ∧ (busyWith 1 [0x0A]).opL = otherBusy.opL ∧
    (busyWith 1 [0x0A]).inOffL = otherBusy.inOffL ∧ (busyWith 1 [0x0A]).inLenL = otherBusy.inLenL ∧
    (busyWith 1 [0x0A]).argL = otherBusy.argL ∧
    (∀ j, j < (busyWith 1 [0x0A]).inLenL.toNat →
      readByte (busyWith 1 [0x0A]).mem (ibufAddr ((busyWith 1 [0x0A]).inOffL.toNat + j)) =
        readByte otherBusy.mem (ibufAddr ((busyWith 1 [0x0A]).inOffL.toNat + j))) ∧
    blockTurn (busyWith 1 [0x0A]) = .next (doneWith 1 [0x0A]) := by
  exact ⟨rfl, rfl, rfl, rfl, rfl, rfl, fun _ _ => rfl, busyWith_turn (by decide) (by decide)⟩

theorem witness_HostWritesDoNotReachTheOperation :
    (busyWith 1 [0x0A]).busy = true ∧
    busWrite 0x10 4 0x07 (busyWith 1 [0x0A]) = .next { busyWith 1 [0x0A] with arg := 0x07 } ∧
    blockTurn (busyWith 1 [0x0A]) = .next (doneWith 1 [0x0A]) :=
  ⟨rfl, rfl, busyWith_turn (by decide) (by decide)⟩

theorem witness_DoneIsSetAndClearedAsStated :
    ((busyWith 0 []).busy = true ∧ blockTurn (busyWith 0 []) = .next (doneWith 0 [])) ∧
    startStep 5 true State.reset = .next (State.reset.started 5 true) ∧
    (0x00000002 : Word).getLsbD 1 = true ∧ (0x000001F1 : Word).getLsbD 1 = false :=
  ⟨⟨rfl, busyWith_turn (by decide) (by decide)⟩, rfl, by decide, by decide⟩

theorem witness_IrqIsRaisedAndClearedAsStated :
    ((busyWith 0 []).busy = true ∧ blockTurn (busyWith 0 []) = .next (doneWith 0 [])) ∧
    ((doneWith 0 []).done = true ∧ (0x00000002 : Word).getLsbD 0 = false ∧ (0x00000002 : Word).getLsbD 1 = true) ∧
    startStep 5 true State.reset = .next (State.reset.started 5 true) ∧
    ((0x00000000 : Word).getLsbD 0 = false ∧ (0x00000000 : Word).getLsbD 1 = false) :=
  ⟨⟨rfl, busyWith_turn (by decide) (by decide)⟩, by decide, rfl, by decide⟩

theorem witness_RegisterWritesReadBack : (0xFFFFFFFE : Word).getLsbD 0 = false := by decide

/-- The last word and the last byte of OBUF, the first and the 87th entry of FDESC. -/
theorem witness_WritesToReadOnlyAreIgnored :
    (4 ∣ 256 ∧ 256 + 4 ≤ 260) ∧ (1 ∣ 259 ∧ 259 + 1 ≤ 260) ∧ 0 < Config.fdescEntries ∧ 86 < Config.fdescEntries := by
  have := ibufBytes_domain
  refine ⟨by decide, by decide, ?_, ?_⟩ <;> rw [Config.fdescEntries] <;> omega

/-- The very last byte of IBUF, and the last aligned word that every IBUF has. -/
theorem witness_IbufWriteStoresItsLanes :
    State.reset.busy = false ∧ (1 ∣ Config.ibufBytes - 1 ∧ Config.ibufBytes - 1 + 1 ≤ Config.ibufBytes) ∧
    (4 ∣ 256 ∧ 256 + 4 ≤ Config.ibufBytes) := by
  have := ibufBytes_domain
  exact ⟨rfl, ⟨one_dvd _, by omega⟩, by decide, by omega⟩

/-- Written words, halves and bytes; an unwritten last byte of a half, and the very last byte of IBUF. -/
theorem witness_IbufWordReadIsItsBytes :
    (4 ∣ 0 ∧ 0 + 4 ≤ Config.ibufBytes ∧ readByte (idleWith [0xDE, 0xAD, 0xBE, 0xEF]).mem (ibufAddr 0) = some 0xDE ∧
      readByte (idleWith [0xDE, 0xAD, 0xBE, 0xEF]).mem (ibufAddr (0 + 1)) = some 0xAD ∧
      readByte (idleWith [0xDE, 0xAD, 0xBE, 0xEF]).mem (ibufAddr (0 + 2)) = some 0xBE ∧
      readByte (idleWith [0xDE, 0xAD, 0xBE, 0xEF]).mem (ibufAddr (0 + 3)) = some 0xEF) ∧
    (2 ∣ 2 ∧ 2 + 2 ≤ Config.ibufBytes ∧ readByte (idleWith [0xDE, 0xAD, 0xBE, 0xEF]).mem (ibufAddr 2) = some 0xBE ∧
      readByte (idleWith [0xDE, 0xAD, 0xBE, 0xEF]).mem (ibufAddr (2 + 1)) = some 0xEF) ∧
    (3 < Config.ibufBytes ∧ readByte (busyWith 0 [0xDE, 0xAD, 0xBE, 0xEF]).mem (ibufAddr 3) = some 0xEF) ∧
    (2 ∣ 2 ∧ 2 + 2 ≤ Config.ibufBytes ∧ 1 < 2 ∧ readByte (busyWith 0 [0xDE, 0xAD, 0xBE]).mem (ibufAddr (2 + 1)) = none) ∧
    (1 ∣ Config.ibufBytes - 1 ∧ Config.ibufBytes - 1 + 1 ≤ Config.ibufBytes ∧
      readByte State.reset.mem (ibufAddr (Config.ibufBytes - 1 + 0)) = none) ∧
    (State.reset.busy = false ∧ Config.ibufBytes - 1 < Config.ibufBytes) := by
  have := ibufBytes_domain
  exact ⟨⟨by decide, by omega, by decide, by decide, by decide, by decide⟩, ⟨by decide, by omega, by decide, by decide⟩,
    ⟨by omega, by decide⟩, ⟨by decide, by omega, by decide, by decide⟩, ⟨one_dvd _, by omega, rfl⟩, rfl, by omega⟩

theorem witness_IbufWriteWhileBusyIsRefused :
    (busyWith 0 []).busy = true ∧ 2 ∣ 258 ∧ 258 + 2 ≤ Config.ibufBytes := by
  have := ibufBytes_domain
  exact ⟨rfl, by decide, by omega⟩

theorem witness_HostReadsHaveNoSideEffect :
    busRead 0x04 4 State.reset = .next { State.reset with readData := statusWord State.reset } ∧
    State.reset.busy = false ∧
    busRead 0x14 4 (busyWith 0 []) = .next { busyWith 0 [] with
      readData := Config.freeRead 0 &&& regMask .outLen, draws := 1 } := ⟨rfl, rfl, rfl⟩

theorem witness_BusyReadsOfOutputsAreFree :
    (busyWith 0 []).busy = true ∧ (2 ∣ 258 ∧ 258 + 2 ≤ 260) ∧ 0 < Config.fdescEntries :=
  ⟨rfl, by decide, witness_WritesToReadOnlyAreIgnored.2.2.1⟩

/-- Outputs of an ENCODE_CMD and of an EXTRACT, and an OBUF and an FDESC byte that nothing has written. -/
theorem witness_IdleReadsReturnTheOutputs :
    ((doneWith 1 [0x0A]).busy = false ∧ (2 ∣ 4 ∧ 4 + 2 ≤ 260) ∧
      readBytes (doneWith 1 [0x0A]).mem (0x20000 + 4) 2 = some [0x0A, 0x0B]) ∧
    ((doneWith 3 frameF1).busy = false ∧ 0 < Config.fdescEntries ∧
      readDesc (doneWith 3 frameF1).mem 0 = some 0x00130000) ∧
    (State.reset.busy = false ∧ (1 ∣ 259 ∧ 259 + 1 ≤ 260) ∧ 0 < 1 ∧
      readByte State.reset.mem (0x20000 + 259 + 0) = none) ∧
    (State.reset.busy = false ∧ 0 < Config.fdescEntries ∧ 3 < 4 ∧
      readByte State.reset.mem (0x40000 + 4 * 0 + 3) = none) :=
  ⟨⟨rfl, by decide, by decide⟩, ⟨rfl, witness_WritesToReadOnlyAreIgnored.2.2.1, by decide⟩,
    ⟨rfl, by decide, by decide, rfl⟩, rfl, witness_WritesToReadOnlyAreIgnored.2.2.1, by decide, rfl⟩

/-- Each of the three formats, where IBUF has room. -/
theorem witness_StoredFramesAreTheirBytes :
    (∃ (cmd : Byte) (p : List Byte), p.length ≤ 255 ∧ Instr.cmdFrame 0 0x07 [] = .cmdFrame 0 cmd p ∧
      [(0x55 : Byte), 0xAA, 0x07, 0x00, 0x07] =
        [0x55, 0xAA, cmd, BitVec.ofNat 8 p.length] ++ p ++ [checksum (cmd :: BitVec.ofNat 8 p.length :: p)]) ∧
    (∃ (status cmd chk : Byte) (p : List Byte), p.length ≤ 255 ∧
      Instr.rspFrame 0 0x02 0x05 [0x11] 0x99 = .rspFrame 0 status cmd p chk ∧
      [(0x55 : Byte), 0xAB, 0x02, 0x05, 0x01, 0x11, 0x99] =
        [0x55, 0xAB, status, cmd, BitVec.ofNat 8 p.length] ++ p ++ [chk]) ∧
    (∃ (digital : Byte) (c : Channels), Instr.streamFrame 0 0xA5 channelsF1 = .streamFrame 0 digital c ∧
      frameF1.length = 20 ∧ frameF1[0]? = some 0x7A ∧ frameF1[1]? = some 0x7B ∧ frameF1[2]? = some digital ∧
      frameF1[19]? = some 0x7C ∧
      ∀ n : Fin 8, frameF1[3 + 2 * n.val]? = some ((channelOf c n).extractLsb' 0 8) ∧
        frameF1[4 + 2 * n.val]? = some ((channelOf c n).extractLsb' 8 8)) ∧
    State.reset.busy = false ∧ 0 + frameF1.length ≤ Config.ibufBytes := by
  have := ibufBytes_domain
  refine ⟨⟨0x07, [], by decide, rfl, by decide⟩, ⟨0x02, 0x05, 0x99, [0x11], by decide, rfl, by decide⟩,
    ⟨0xA5, channelsF1, rfl, by decide, by decide, by decide, by decide, by decide, by decide⟩, rfl, ?_⟩
  rw [show frameF1.length = 20 from rfl]
  omega

/-- Stored while busy at IBUF[0]; and one byte too far up while idle. -/
theorem witness_FrameThatCannotBeStoredIsRefused :
    (∃ digital c, Instr.streamFrame 0 0xA5 channelsF1 = .streamFrame 0 digital c) ∧
    ((busyWith 0 []).busy = true ∧ 0 < Config.ibufBytes) ∧
    (State.reset.busy = false ∧ ∀ k bs, encode (.streamFrame (Config.ibufBytes - 19) 0xA5 channelsF1) = .bytes k bs →
      Config.ibufBytes < Config.ibufBytes - 19 + bs.length) := by
  have := ibufBytes_domain
  refine ⟨⟨_, _, rfl⟩, ⟨rfl, by omega⟩, rfl, ?_⟩
  intro k bs h
  simp only [encode, Event.bytes.injEq] at h
  rw [← h.2, streamFrame_length]
  omega

theorem witness_ResetIsIdleAndAcceptsAStart : (0x000000F1 : Word).getLsbD 0 = true := by decide

theorem witness_ResetAbandonsTheOperation : (busyWith 0 []).busy = true := rfl

/-- CHECKSUM of an empty input in progress, the host waiting for it: a state that meets the invariant. -/
theorem waiting_inv (agenda : List Event) : Inv { busyWith 0 [] with agenda := agenda } where
  canonical := rfl
  mapped := fun _ h => by cases h
  handshake := fun _ => rfl
  inputWritten := fun _ => inputReady_iff.2 (.inr (.inr ⟨[], rfl⟩))
  outLenBound := Nat.zero_le _
  obufWritten := fun i h => absurd h (Nat.not_lt_zero i)
  frameCountBound := Nat.zero_le _
  fdescWritten := fun k h => absurd h (Nat.not_lt_zero k)
  chkOkMeansOk := fun h => by cases h
  doneMeansResult := fun h => by cases h
  errorOutputs := fun _ => rfl

theorem witness_EveryStepKeepsTheInvariant :
    Inv { busyWith 0 [] with agenda := [] } ∧ step (busyWith 0 []) = .next (doneWith 0 []) :=
  ⟨waiting_inv [], (step_idle rfl).trans (busyWith_turn (by decide) (by decide))⟩

theorem witness_OperationInProgressCompletes :
    Inv { busyWith 0 [] with agenda := [] } ∧ (busyWith 0 []).busy = true ∧ (busyWith 0 []).agenda = [] :=
  ⟨waiting_inv [], rfl, rfl⟩

theorem witness_WaitEndsAfterTheCompletion :
    Inv { busyWith 0 [] with agenda := [.wait, .reset] } ∧
    ({ busyWith 0 [] with agenda := [.wait, .reset] } : State).busy = true ∧
    ({ busyWith 0 [] with agenda := [.wait, .reset] } : State).agenda = .wait :: [.reset] :=
  ⟨waiting_inv _, rfl, rfl⟩

/-- Idle after a DECODE_RSP with one payload byte. -/
def payloadState : State :=
  { State.reset with
    mem := writeBytes [] (obufAddr 0) [0x5A]
    out := { zeroOutputs with outLen := 1 }
    result := .ok }

theorem payloadState_inv : Inv payloadState where
  canonical := rfl
  mapped := fun a ha => by
    right; left
    by_cases hx : a < obufAddr 0 ∨ obufAddr 0 + [(0x5A : Byte)].length ≤ a
    · have h0 : readByte payloadState.mem a = none := readByte_writeBytes_outside [] _ _ hx
      rw [h0] at ha
      cases ha
    · simp only [obufAddr, List.length_singleton] at hx
      rw [Config.obufBytes]
      omega
  handshake := fun h => by cases h
  inputWritten := fun h => by cases h
  outLenBound := by decide
  obufWritten := fun i hi => by
    have h1 : payloadState.out.outLen.toNat = 1 := rfl
    obtain rfl : i = 0 := by omega
    rfl
  frameCountBound := Nat.zero_le _
  fdescWritten := fun k h => absurd h (Nat.not_lt_zero k)
  chkOkMeansOk := fun h => by cases h
  doneMeansResult := fun h => by cases h
  errorOutputs := fun h => absurd rfl h

/-- Idle after an EXTRACT that found one range. -/
def rangeState : State :=
  { State.reset with
    mem := writeFdesc [] [0x00130000]
    out := { zeroOutputs with frameCount := 1 }
    result := .ok }

theorem rangeState_inv : Inv rangeState where
  canonical := rfl
  mapped := fun a ha => by
    have hd := ibufBytes_domain
    right; right
    by_cases hx : a < fdescAddr 0 ∨ fdescAddr 0 + (descBytes [0x00130000]).length ≤ a
    · have h0 : readByte rangeState.mem a = none := readByte_writeBytes_outside [] _ _ hx
      rw [h0] at ha
      cases ha
    · rw [descBytes_length] at hx
      simp only [fdescAddr, List.length_singleton] at hx
      rw [Config.fdescEntries]
      omega
  handshake := fun h => by cases h
  inputWritten := fun h => by cases h
  outLenBound := Nat.zero_le _
  obufWritten := fun i h => absurd h (Nat.not_lt_zero i)
  frameCountBound := by
    have hd := ibufBytes_domain
    have h1 : rangeState.out.frameCount.toNat = 1 := rfl
    rw [h1, Config.fdescEntries]
    omega
  fdescWritten := fun k hk => by
    have h1 : rangeState.out.frameCount.toNat = 1 := rfl
    obtain rfl : k = 0 := by omega
    rfl
  chkOkMeansOk := fun h => by cases h
  doneMeansResult := fun h => by cases h
  errorOutputs := fun h => absurd rfl h

theorem witness_OutputsAreReadableOnceIdle :
    (Inv payloadState ∧ payloadState.busy = false ∧ 0 < payloadState.out.outLen.toNat) ∧
    (Inv rangeState ∧ rangeState.busy = false ∧ 0 < rangeState.out.frameCount.toNat) :=
  ⟨⟨payloadState_inv, rfl, by decide⟩, ⟨rangeState_inv, rfl, by decide⟩⟩

end Sys2Proof.Tests
end

section
/-! Proofs of the statements about the state's registers (10_state.md): DONE's life cycle (R29). -/

namespace Sys2Proof.Machine

/-! ### The block's turn while busy -/

/-- While busy the block's turn is the completion step: one atomic write of some effects (R72, R96). -/
theorem blockTurn_completed {s u : State} (hb : s.busy = true) (h : blockTurn s = .next u) :
    ∃ e, u = s.completed e := by
  rcases blockTurn_cases h with ⟨hidle, -⟩ | ⟨-, hc⟩
  · rw [hb] at hidle
    cases hidle
  · exact completion_completed hc

/-! ### Writes of STATUS -/

/-- A STATUS write with bit 1 = 1 acknowledges DONE, whatever its other bits (R27, R29). -/
theorem busWrite_status_acknowledged {w : Word} (s : State) (h : w.getLsbD 1 = true) :
    busWrite 0x04 4 w s = .next s.acknowledged := by
  have hreg : busWrite 0x04 4 w s = writeReg .status w s := busWrite_reg .status w s
  rw [hreg, writeReg, if_pos h]

/-- A STATUS write with bit 1 = 0 changes nothing (R27, R29). -/
theorem busWrite_status_unchanged {w : Word} (s : State) (h : w.getLsbD 1 = false) :
    busWrite 0x04 4 w s = .next s := by
  have hreg : busWrite 0x04 4 w s = writeReg .status w s := busWrite_reg .status w s
  rw [hreg, writeReg, if_neg (Bool.eq_false_iff.1 h)]

/-! ### DONE -/

/-- A completion sets DONE (R29). -/
theorem blockTurn_sets_done {s u : State} (hb : s.busy = true) (h : blockTurn s = .next u) :
    u.done = true := by
  obtain ⟨e, rfl⟩ := blockTurn_completed hb h
  exact s.completed_done e

/-- The start step clears DONE (R29). -/
theorem startStep_clears_done {op : BitVec 4} {irqEn : Bool} {s t : State}
    (h : startStep op irqEn s = .next t) : t.done = false := by
  obtain ⟨-, -, rfl⟩ := startStep_eq_next.1 h
  exact s.started_done op irqEn

/-- Settles O40: each way R29 names to set, clear or keep DONE is one lemma about the step that does it. -/
theorem doneIsSetAndClearedAsStated : Obligations.DoneIsSetAndClearedAsStated := by
  unfold Obligations.DoneIsSetAndClearedAsStated
  refine ⟨?completion, ?start, ?ackDone, ?statusAck, ?statusKeep, ?reset, ?initial⟩
  case completion => exact fun _ _ hb h => blockTurn_sets_done hb h
  case start => exact fun _ _ _ _ h => startStep_clears_done h
  case ackDone => exact exec_ackDone
  case statusAck => exact fun s _ h => busWrite_status_acknowledged s h
  case statusKeep => exact fun s _ h => busWrite_status_unchanged s h
  case reset => exact State.afterReset_done
  case initial => rfl

end Sys2Proof.Machine
end

section
/-! Proofs of the statements about the memory map (20_memory.md): where an access goes and when it is a bus error
(R61 to R66), and what an IBUF write stores and a read returns (R63, R67). -/

namespace Sys2Proof.Machine

/-! ### Where an access goes -/

/-- The widths that IBUF and OBUF accept (R63, R64). -/
theorem bufferWidth_iff {size : Nat} : bufferWidth size = true ↔ size = 1 ∨ size = 2 ∨ size = 4 := by
  simp only [bufferWidth, Bool.or_eq_true, beq_iff_eq, or_assoc]

/-- A register is found only at its own offset (R22). -/
theorem regAt_eq_some {offset : Nat} {r : Reg} (h : regAt offset = some r) : offset = regOffset r := by
  unfold regAt at h
  split at h <;> cases h <;> rfl

/-- An aligned access to existing bytes of IBUF reaches them, in the statements' terms (R63). -/
theorem locate_ibuf_aligned {i size : Nat} (hs : size = 1 ∨ size = 2 ∨ size = 4) (ha : size ∣ i)
    (hh : i + size ≤ Config.ibufBytes) : locate (ibufAddr i) size = some (.ibuf i) :=
  locate_ibuf (bufferWidth_iff.2 hs) (Nat.mod_eq_zero_of_dvd ha) hh

/-- An access that the map allows reaches a location (R61 to R65). -/
theorem locate_of_mappedAccess {offset size : Nat} (h : mappedAccess offset size) :
    ∃ l, locate offset size = some l := by
  rcases h with ⟨rfl, r, rfl⟩ | ⟨i, rfl, hs, ha, hh⟩ | ⟨i, rfl, hs, ha, hh⟩ | ⟨k, rfl, rfl, hk⟩
  · exact ⟨_, locate_reg r⟩
  · exact ⟨_, locate_ibuf_aligned hs ha hh⟩
  · exact ⟨_, locate_obuf hs ha hh⟩
  · exact ⟨_, locate_fdesc hk⟩

/-- An access that reaches a location is one that the map allows: one case for each region of `locate` (R61 to R65). -/
theorem mappedAccess_of_locate {offset size : Nat} {l : Location} (h : locate offset size = some l) :
    mappedAccess offset size := by
  unfold locate at h
  split at h
  next =>
    obtain ⟨hsize, hreg⟩ := Option.ite_none_right_eq_some.1 h
    obtain ⟨r, hr, -⟩ := Option.map_eq_some_iff.1 hreg
    exact .inl ⟨hsize, r, regAt_eq_some hr⟩
  next =>
  split at h
  next hibuf =>
    obtain ⟨hmap, -⟩ := Option.ite_none_right_eq_some.1 h
    simp only [Bool.and_eq_true, decide_eq_true_eq, bufferWidth_iff, ibufHolds_iff] at hmap
    obtain ⟨⟨hs, ha⟩, hh⟩ := hmap
    exact .inr (.inl ⟨offset - 0x10000, by omega, hs, Nat.dvd_of_mod_eq_zero ha, hh⟩)
  next =>
  split at h
  next hobuf =>
    obtain ⟨hmap, -⟩ := Option.ite_none_right_eq_some.1 h
    simp only [Bool.and_eq_true, decide_eq_true_eq, bufferWidth_iff] at hmap
    obtain ⟨⟨hs, ha⟩, hh⟩ := hmap
    exact .inr (.inr (.inl ⟨offset - 0x20000, by omega, hs, Nat.dvd_of_mod_eq_zero ha, hh⟩))
  next =>
  split at h
  next hfdesc =>
    obtain ⟨hmap, -⟩ := Option.ite_none_right_eq_some.1 h
    simp only [Bool.and_eq_true, decide_eq_true_eq, fdescHolds_iff] at hmap
    obtain ⟨⟨hs, ha⟩, hk⟩ := hmap
    exact .inr (.inr (.inr ⟨(offset - 0x40000) / 4, by omega, hs, hk⟩))
  next => cases h

/-- An access goes nowhere exactly when the map does not allow it (R66). -/
theorem locate_eq_none_iff {offset size : Nat} : locate offset size = none ↔ ¬ mappedAccess offset size := by
  rw [Option.eq_none_iff_forall_ne_some]
  constructor
  · intro hnone hmap
    obtain ⟨l, hl⟩ := locate_of_mappedAccess hmap
    exact hnone l hl
  · exact fun hmap _ hl => hmap (mappedAccess_of_locate hl)

/-! ### Bus errors -/

/-- A read of buffer bytes is never a bus error: its one refusal is that of R218. -/
theorem readBuffer_ne_busError (a size : Nat) (s : State) : readBuffer a size s ≠ .refused .busError := by
  unfold readBuffer
  split <;> nofun

/-- A start step is never a bus error: its refusals are those of R216 and R218. -/
theorem startStep_ne_busError (op : BitVec 4) (irqEn : Bool) (s : State) :
    startStep op irqEn s ≠ .refused .busError := by
  unfold startStep
  split
  · nofun
  · split <;> nofun

/-- A register write is never a bus error: only a start can be refused at all. -/
theorem writeReg_ne_busError (r : Reg) (v : Word) (s : State) : writeReg r v s ≠ .refused .busError := by
  cases r with
  | ctrl =>
    simp only [writeReg]
    split
    · exact startStep_ne_busError _ _ s
    · nofun
  | status =>
    simp only [writeReg]
    split <;> nofun
  | _ => nofun

/-- A host read is a bus error exactly where it reaches nothing (R66). -/
theorem busRead_busError_iff {offset size : Nat} {s : State} :
    busRead offset size s = .refused .busError ↔ locate offset size = none := by
  unfold busRead
  cases locate offset size with
  | none => simp
  | some l =>
    cases l with
    | reg r => dsimp only; split <;> simp
    | ibuf i => simp [readBuffer_ne_busError]
    | obuf i => dsimp only; split <;> simp [readBuffer_ne_busError]
    | fdesc k => dsimp only; split <;> simp [readBuffer_ne_busError]

/-- A host write is a bus error exactly where it reaches nothing (R66). -/
theorem busWrite_busError_iff {offset size : Nat} {data : Word} {s : State} :
    busWrite offset size data s = .refused .busError ↔ locate offset size = none := by
  unfold busWrite
  cases locate offset size with
  | none => simp
  | some l =>
    cases l with
    | reg r => simp [writeReg_ne_busError]
    | ibuf i => dsimp only; split <;> simp
    | obuf i => simp
    | fdesc k => simp

/-- Settles O48: a read and a write are bus errors where `locate` answers nothing, which is off the map. -/
theorem busErrorsAreExactlyTheUnmappedAccesses : Obligations.BusErrorsAreExactlyTheUnmappedAccesses := by
  unfold Obligations.BusErrorsAreExactlyTheUnmappedAccesses
  intro s offset size data
  exact ⟨busRead_busError_iff.trans locate_eq_none_iff, busWrite_busError_iff.trans locate_eq_none_iff⟩

/-! ### IBUF writes and reads -/

/-- A read of buffer bytes that are all written returns them in little-endian order (R67, R69). -/
theorem readBuffer_written {a size : Nat} {s : State} {bs : List Byte} (h : readBytes s.mem a size = some bs) :
    readBuffer a size s = .next (s.withReadData (ofLanes bs)) := by
  simp only [readBuffer, h]

/-- An aligned read of existing bytes of IBUF is a read of those bytes, busy or not (R63, R217). -/
theorem busRead_ibuf {i size : Nat} (s : State) (hs : size = 1 ∨ size = 2 ∨ size = 4) (ha : size ∣ i)
    (hh : i + size ≤ Config.ibufBytes) : busRead (ibufAddr i) size s = readBuffer (ibufAddr i) size s := by
  simp only [busRead, locate_ibuf_aligned hs ha hh]

/-- An aligned write to existing bytes of IBUF while idle stores its data lanes (R63). -/
theorem busWrite_ibuf_idle {i size : Nat} {s : State} (data : Word) (hb : s.busy = false)
    (hs : size = 1 ∨ size = 2 ∨ size = 4) (ha : size ∣ i) (hh : i + size ≤ Config.ibufBytes) :
    busWrite (ibufAddr i) size data s =
      .next (s.withMem (writeBytes s.mem (ibufAddr i) (lanes size data))) := by
  simp only [busWrite, locate_ibuf_aligned hs ha hh, hb, Bool.false_eq_true, if_false]

/-- IBUF indices and offsets advance together (R61). -/
theorem ibufAddr_add (i j : Nat) : ibufAddr (i + j) = ibufAddr i + j := (Nat.add_assoc 0x10000 i j).symm

/-- Stored lanes, byte by byte: lane `j` stands `j` bytes after the first (R67). -/
theorem readByte_writeBytes_lanes (m : Memory) (a : Nat) (w : Word) {size j : Nat} (hj : j < size) :
    readByte (writeBytes m a (lanes size w)) (a + j) = some (w.extractLsb' (8 * j) 8) := by
  rw [readByte_writeBytes_inside m a (lanes size w) (by rwa [lanes_length]), lanes_getElem? w hj]

/-- Stored lanes read back as the bits of the word that they hold (R67). -/
theorem readBuffer_lanes {s : State} {a size : Nat} {m : Memory} (w : Word)
    (hm : s.mem = writeBytes m a (lanes size w)) :
    readBuffer a size s = .next (s.withReadData (w &&& BitVec.ofNat 32 (2 ^ (8 * size) - 1))) := by
  have hread : readBytes s.mem a size = some (lanes size w) := by
    simpa only [hm, lanes_length] using readBytes_writeBytes_same m a (lanes size w)
  rw [readBuffer_written hread, ofLanes_lanes]

/-- Settles O45: the write stores its lanes, which read back byte by byte and, by the same access, as a word. -/
theorem ibufWriteStoresItsLanes : Obligations.IbufWriteStoresItsLanes := by
  unfold Obligations.IbufWriteStoresItsLanes
  intro s i size data hb hs ha hh
  refine ⟨writeBytes s.mem (ibufAddr i) (lanes size data), busWrite_ibuf_idle data hb hs ha hh,
    ?lanes, ?frame, ?readBack⟩
  case lanes =>
    intro j hj
    rw [ibufAddr_add]
    exact readByte_writeBytes_lanes s.mem (ibufAddr i) data hj
  case frame =>
    intro a hout
    rw [ibufAddr_add] at hout
    exact readByte_writeBytes_outside _ _ _ (by rwa [lanes_length])
  case readBack =>
    exact (busRead_ibuf _ hs ha hh).trans (readBuffer_lanes data rfl)

end Sys2Proof.Machine
end

section
/-! Proofs of the statements about the encoding (30_encoding.md): the start step of a CTRL write (R95). -/

namespace Sys2Proof.Machine

/-! ### The start step of a CTRL write -/

/-- A CTRL write with bit 0 = 1 is a start of the word's OP and IRQ_EN, busy or not (R24, R93). -/
theorem busWrite_ctrl_start {w : Word} (s : State) (h : w.getLsbD 0 = true) :
    busWrite 0x00 4 w s = startStep (w.extractLsb' 4 4) (w.getLsbD 1) s := by
  have hreg : busWrite 0x00 4 w s = writeReg .ctrl w s := busWrite_reg .ctrl w s
  rw [hreg, writeReg, if_pos h]

/-- A reserved OP, a bad range or a written input: none of them is the hazard of R218. -/
theorem inputReady_of_reserved_or {m : Memory} {op : BitVec 4} {off len : Half}
    (h : 5 ≤ op.toNat ∨ rangeBad off len ∨ ∃ input, inputIs m off len input) :
    inputReady m op off len = true := by
  rcases h with hreserved | hrange
  · exact inputReady_iff.2 (.inl hreserved)
  · exact inputReady_of op hrange

/-- Settles O10: the write is a start step, which an idle state over a ready input takes to `State.started`; that is
the state the statement writes out field by field. -/
theorem ctrlStartWritePerformsTheStartStep : Obligations.CtrlStartWritePerformsTheStartStep := by
  unfold Obligations.CtrlStartWritePerformsTheStartStep
  intro s w hstart hidle hinput
  calc busWrite 0x00 4 w s
      = startStep (w.extractLsb' 4 4) (w.getLsbD 1) s := busWrite_ctrl_start s hstart
    _ = .next (s.started (w.extractLsb' 4 4) (w.getLsbD 1)) :=
        startStep_next _ hidle (inputReady_of_reserved_or hinput)

end Sys2Proof.Machine
end

section
/-! Proofs of the statements about the checksum (40_checksum.md): the algebra of the XOR fold (R111). -/

namespace Sys2Proof

/-! ### The algebra of the checksum -/

/-- The seed 0 leaves a single byte as it is. -/
theorem checksum_singleton (b : Byte) : checksum [b] = b := by
  rw [checksum_cons, checksum_nil]
  exact BitVec.xor_zero

/-- The fold does not depend on the order: a permuted sequence has the same checksum. -/
theorem checksum_perm {s t : List Byte} (h : s.Perm t) : checksum s = checksum t := h.foldl_eq 0

/-- Two halves of equal copies cancel. -/
theorem checksum_replicate_even (b : Byte) {n : Nat} (h : n % 2 = 0) : checksum (List.replicate n b) = 0 := by
  obtain ⟨k, rfl⟩ : Even n := Nat.even_iff.2 h
  rw [List.replicate_add, checksum_append, BitVec.xor_self]
  rfl

/-- Up to order, a sequence is the occurrences of `b` followed by its other bytes. -/
theorem replicate_count_append_filter_ne_perm (b : Byte) (s : List Byte) :
    (List.replicate (s.count b) b ++ s.filter fun c => c ≠ b).Perm s := by
  simpa [← List.filter_beq, beq_eq_decide] using List.filter_append_perm (· == b) s

/-- The even number of copies of `b`, moved to the front, fold to 0 and leave the other bytes' checksum. -/
theorem checksum_filter_ne_of_count_even {s : List Byte} {b : Byte} (h : s.count b % 2 = 0) :
    checksum s = checksum (s.filter fun c => c ≠ b) := by
  calc checksum s
      = checksum (List.replicate (s.count b) b ++ s.filter fun c => c ≠ b) :=
        (checksum_perm (replicate_count_append_filter_ne_perm b s)).symm
    _ = checksum (List.replicate (s.count b) b) ^^^ checksum (s.filter fun c => c ≠ b) := checksum_append _ _
    _ = checksum (s.filter fun c => c ≠ b) := by rw [checksum_replicate_even b h]; exact BitVec.zero_xor

/-- XOR with the bytes on either side is injective, so the checksum determines the byte between them. -/
theorem checksum_replace_eq_iff {s t : List Byte} {b c : Byte} :
    checksum (s ++ [b] ++ t) = checksum (s ++ [c] ++ t) ↔ b = c := by
  simp only [checksum_append, checksum_singleton, BitVec.xor_left_inj, BitVec.xor_right_inj]

/-- The mask flipped in both bytes meets itself in the fold and cancels. -/
theorem checksum_flip_two (s t u : List Byte) (b c d : Byte) :
    checksum (s ++ [b ^^^ d] ++ t ++ [c ^^^ d] ++ u) = checksum (s ++ [b] ++ t ++ [c] ++ u) := by
  calc checksum (s ++ [b ^^^ d] ++ t ++ [c ^^^ d] ++ u)
      = checksum (s ++ [b] ++ t ++ [c] ++ u) ^^^ (d ^^^ d) := by
        simp only [checksum_append, checksum_singleton]
        ac_rfl
    _ = checksum (s ++ [b] ++ t ++ [c] ++ u) := by rw [BitVec.xor_self, BitVec.xor_zero]

/-- Settles O16: each property of R111 is one lemma about the fold. -/
theorem checksumAlgebra : Obligations.ChecksumAlgebra := by
  unfold Obligations.ChecksumAlgebra
  exact ⟨checksum_nil, checksum_singleton, checksum_append, fun _ _ => checksum_perm, checksum_self_append,
    fun _ _ => checksum_filter_ne_of_count_even, fun _ _ _ _ => checksum_replace_eq_iff.not.2, checksum_flip_two⟩

end Sys2Proof
end

section
/-! Proofs of the statements about the command codec (41_command_codec.md): ENCODE_CMD (R120 to R122) and
DECODE_RSP (R123 to R130). -/

namespace Sys2Proof

/-! ### Reading a sequence by index -/

/-- A byte read by index is the byte at that index, where there is one. -/
theorem byteAt_of_getElem? {s : List Byte} {j : Nat} {b : Byte} (h : s[j]? = some b) : byteAt s j = b := by
  rw [byteAt, List.getD_eq_getElem?_getD, h, Option.getD_some]

/-- An index past a prefix reads the rest. -/
theorem byteAt_append_add (s t : List Byte) (k : Nat) : byteAt (s ++ t) (s.length + k) = byteAt t k := by
  simp only [byteAt, List.getD_eq_getElem?_getD, List.getElem?_append_right (Nat.le_add_right _ _),
    Nat.add_sub_cancel_left]

/-- A slice past a prefix is a slice of the rest. -/
theorem slice_append_add (s t : List Byte) (a b : Nat) :
    slice (s ++ t) (s.length + a) (s.length + b) = slice t a b := by
  rw [slice, slice, List.drop_length_add_append, show s.length + b + 1 - (s.length + a) = b + 1 - a by omega]

/-- At any width, a high part next to a low byte is the byte or'ed with the high part shifted over it. -/
theorem setWidth_append_byte {w : Nat} (v : Nat) (hi : BitVec w) (lo : Byte) :
    (hi ++ lo).setWidth v = lo.setWidth v ||| (hi.setWidth v <<< 8) := by
  apply BitVec.eq_of_getLsbD_eq
  intro i hv
  rw [BitVec.getLsbD_setWidth, BitVec.getLsbD_append, BitVec.getLsbD_or, BitVec.getLsbD_shiftLeft,
    BitVec.getLsbD_setWidth, BitVec.getLsbD_setWidth]
  by_cases hlow : i < 8
  · simp [hlow, hv]
  · simp [hlow, hv, BitVec.getLsbD_of_ge lo i (Nat.not_lt.1 hlow), Nat.lt_of_le_of_lt (Nat.sub_le i 8) hv]

/-- Two bytes side by side, in the layout of RSP_CHK (R38). -/
theorem append_two_bytes (b1 b0 : Byte) : b1 ++ b0 = b0.setWidth 16 ||| (b1.setWidth 16 <<< 8) := by
  rw [← setWidth_append_byte, BitVec.setWidth_eq]

/-- Three bytes side by side, in the layout of RSP_HDR (R37). -/
theorem append_three_bytes (b2 b1 b0 : Byte) :
    b2 ++ b1 ++ b0 = b0.setWidth 24 ||| (b1.setWidth 24 <<< 8) ||| (b2.setWidth 24 <<< 16) := by
  calc b2 ++ b1 ++ b0
      = b0.setWidth 24 ||| ((b2 ++ b1).setWidth 24 <<< 8) := by rw [← setWidth_append_byte, BitVec.setWidth_eq]
    _ = b0.setWidth 24 ||| (b1.setWidth 24 <<< 8) ||| (b2.setWidth 24 <<< 16) := by
      rw [setWidth_append_byte, BitVec.shiftLeft_or_distrib, ← BitVec.shiftLeft_add, BitVec.or_assoc]

end Sys2Proof

namespace Sys2Proof.Machine

/-! ### A whole operation -/

/-- A defined operation over its input, from idle: it starts, and the block's next turn writes its effects over the
latched state, field by field (R95, R96). -/
theorem operation_ends {s : State} {irqEn : Bool} {input : List Byte} {e : Effects} (op : BitVec 4)
    (ho : op.toNat < 5) (hb : s.busy = false) (hi : inputIs s.mem s.inOff s.inLen input)
    (he : operate op s.arg input = e) :
    ∃ t, startStep op irqEn s = .next t ∧
      blockTurn t = .next { latched s op irqEn with
        busy := false, done := true, result := e.code, chkOk := e.chkOk, out := e.out,
        mem := writeFdesc (writeObuf s.mem e.obuf) e.fdesc, scanCursor := e.cursor.getD s.scanCursor } := by
  obtain ⟨hstart, hturn⟩ := run_operation (irqEn := irqEn) op ho hb hi
  rw [he] at hturn
  exact ⟨_, hstart, hturn⟩

/-- The OBUF bytes that a completion writes read back, from any index on (R47). -/
theorem readBytes_completed_obuf (s : State) {e : Effects} (ho : e.obuf.length ≤ 260) {k n : Nat}
    (hn : k + n = e.obuf.length) : readBytes (s.completed e).mem (obufAddr k) n = some (e.obuf.drop k) := by
  rw [readBytes_eq_some]
  refine ⟨by rw [List.length_drop]; omega, fun j hj => ?_⟩
  have hread := completed_obuf s ho (j := k + j) (by omega)
  rwa [List.getElem?_drop, obufAddr, Nat.add_assoc]

/-! ### ENCODE_CMD -/

/-- A payload over 255 bytes is an ENCODING_ERROR (R121). -/
theorem encodeCmdEffects_long {cmd : Byte} {payload : List Byte} (h : 255 < payload.length) :
    encodeCmdEffects cmd payload = noEffects .encodingError := if_pos h

/-- ENCODE_CMD ends OK only with a payload of at most 255 bytes, whose frame it writes (R120, R121). -/
theorem encodeCmdEffects_ok {cmd : Byte} {payload : List Byte} (h : (encodeCmdEffects cmd payload).code = .ok) :
    payload.length ≤ 255 ∧ (encodeCmdEffects cmd payload).obuf = commandFrame cmd payload := by
  by_cases hlong : 255 < payload.length
  · rw [encodeCmdEffects_long hlong] at h
    cases h
  · exact ⟨Nat.not_lt.1 hlong, by rw [encodeCmdEffects, if_neg hlong]⟩

/-- A command frame after its marker folds to 0: its last byte is the fold of the others (R81, R111). -/
theorem checksum_commandFrame_drop_two (cmd : Byte) (payload : List Byte) :
    checksum ((commandFrame cmd payload).drop 2) = 0 :=
  checksum_self_append ([cmd, lengthByte payload] ++ payload)

/-- Settles O18: the long payload's effects are those of ENCODING_ERROR. -/
theorem encodeCmdRejectsLongPayload : Obligations.EncodeCmdRejectsLongPayload := by
  unfold Obligations.EncodeCmdRejectsLongPayload
  intro s irqEn payload hidle hinput hlong
  exact operation_ends 1 (by decide) hidle hinput (encodeCmdEffects_long hlong)

/-- A turn of the block that ends ENCODE_CMD with OK has written a command frame. -/
theorem blockTurn_encodeCmd_ok {s u : State} (hb : s.busy = true) (hop : s.opL = 1) (h : blockTurn s = .next u)
    (hok : u.result = .ok) : ∃ payload, payload.length ≤ 255 ∧
      u = s.completed (encodeCmdEffects s.argL payload) ∧
      (encodeCmdEffects s.argL payload).obuf = commandFrame s.argL payload := by
  rcases blockTurn_busy_cases hb h with ⟨-, rfl⟩ | ⟨-, -, rfl⟩ | ⟨-, -, payload, -, rfl⟩
  · cases hok
  · cases hok
  · rw [hop, operate_encodeCmd] at hok ⊢
    obtain ⟨hlen, hframe⟩ := encodeCmdEffects_ok hok
    exact ⟨payload, hlen, rfl, hframe⟩

/-- Settles O19: OBUF holds a command frame, OUT_LEN its length, and the frame after its marker folds to 0. -/
theorem encodedFrameChecksumsToZero : Obligations.EncodedFrameChecksumsToZero := by
  unfold Obligations.EncodedFrameChecksumsToZero
  intro s u hbusy hop hturn hok
  obtain ⟨payload, hlen, rfl, hframe⟩ := blockTurn_encodeCmd_ok hbusy hop hturn hok
  obtain ⟨hfits, houtLen⟩ := operate_obuf (op := 1) (by decide) s.argL payload
  rw [operate_encodeCmd] at hfits houtLen
  have hcount : (encodeCmdEffects s.argL payload).obuf.length = 5 + payload.length := by
    rw [hframe, commandFrame_length]
  refine ⟨payload.length, (commandFrame s.argL payload).drop 2, houtLen.trans hcount, ?_,
    checksum_commandFrame_drop_two _ _⟩
  rw [← hframe]
  exact readBytes_completed_obuf s hfits (by omega)

/-! ### DECODE_RSP -/

/-- No marker in the input: NOT_FOUND (R125). -/
theorem decodeRspEffects_notFound {input : List Byte} (h : ∀ j, ¬ pairAt input 0x55 0xAB j) :
    decodeRspEffects input = noEffects .notFound := by
  rw [decodeRspEffects, find2_eq_none_iff.2 fun j _ => h j]

/-- With its first marker at `i`, the input is told apart by the bytes from `i` on: fewer than a header, fewer than
the header's length byte asks for, or a whole frame (R126, R127, R128). -/
theorem decodeRspEffects_marker {input : List Byte} {i : Nat} (h : firstPair input 0 0x55 0xAB i) :
    decodeRspEffects input =
      if input.length - i < 5 ∨ input.length - i < 6 + (byteAt input (i + 4)).toNat then incompleteAt i
      else responseAt input i := by
  rw [decodeRspEffects, find2_eq_some_iff.2 h, ite_or]
  simp only [Nat.add_right_comm 5 _ 1]

/-- Settles O21: the effects are those of NOT_FOUND. -/
theorem decodeRspWithoutMarkerIsNotFound : Obligations.DecodeRspWithoutMarkerIsNotFound := by
  unfold Obligations.DecodeRspWithoutMarkerIsNotFound
  intro s irqEn input hidle hinput hnone
  exact operation_ends 2 (by decide) hidle hinput (decodeRspEffects_notFound hnone)

/-- Settles O22: a short header and a short body take the same branch. -/
theorem decodeRspShortFrameIsIncomplete : Obligations.DecodeRspShortFrameIsIncomplete := by
  unfold Obligations.DecodeRspShortFrameIsIncomplete
  intro s irqEn input i hidle hinput hmarker hshort
  have heffects : decodeRspEffects input = incompleteAt i := by
    rw [decodeRspEffects_marker hmarker, if_pos]
    exact hshort.imp_right fun ⟨len, hlen, hbody⟩ => by rwa [byteAt_of_getElem? hlen]
  exact operation_ends 2 (by decide) hidle hinput heffects

/-- A pair of two different bytes after a prefix without such a pair is the first one: none can straddle the prefix's
end, where the pair's own first byte stands second (R124). -/
theorem firstPair_append {before rest : List Byte} {b0 b1 : Byte} (hne : b0 ≠ b1)
    (h : ∀ j, ¬ pairAt before b0 b1 j) : firstPair (before ++ b0 :: b1 :: rest) 0 b0 b1 before.length := by
  refine ⟨Nat.zero_le _, ⟨by simp, by simp⟩, fun k _ hk => ?_⟩
  rintro ⟨h0, h1⟩
  rw [List.getElem?_append_left hk] at h0
  rcases Nat.lt_or_eq_of_le (Nat.succ_le_of_lt hk) with hinside | hend
  · rw [List.getElem?_append_left hinside] at h1
    exact h k ⟨h0, h1⟩
  · rw [show k + 1 = before.length from hend] at h1
    exact hne (by simpa using h1)

/-- What DECODE_RSP writes for a response frame whose marker is at `offset`, with the fields of RSP_HDR and RSP_CHK at
their bits (R37, R38, R128, R130). -/
def responseEffects (status cmd : Byte) (payload : List Byte) (received : Byte) (offset : Nat) : Effects :=
  let computed := responseChecksum status cmd payload
  { noEffects .ok with
    out := { zeroOutputs with
      outLen := (lengthByte payload).setWidth 16
      rspHdr := status.setWidth 24 ||| (cmd.setWidth 24 <<< 8) ||| ((lengthByte payload).setWidth 24 <<< 16)
      rspChk := received.setWidth 16 ||| (computed.setWidth 16 <<< 8)
      rspOffset := BitVec.ofNat 16 offset }
    chkOk := computed == received
    obuf := payload }

section

variable {payload : List Byte} (h : payload.length ≤ 255) (status cmd received : Byte) (after : List Byte)

include h

/-- The payload of a response frame, as DECODE_RSP slices it out by the length byte (R128). -/
theorem slice_responseFrame : slice (responseFrame status cmd payload received ++ after) 5
    (4 + (lengthByte payload).toNat) = payload := by
  rw [lengthByte_toNat (decide_eq_true h), slice, show 4 + payload.length + 1 - 5 = payload.length by omega,
    responseFrame, List.append_assoc, List.append_assoc]
  exact List.take_left

/-- The checksum byte of a response frame, as DECODE_RSP finds it by the length byte (R128). -/
theorem byteAt_responseFrame_checksum : byteAt (responseFrame status cmd payload received ++ after)
    (5 + (lengthByte payload).toNat) = received := by
  rw [lengthByte_toNat (decide_eq_true h), responseFrame, List.append_assoc, List.append_assoc]
  exact (byteAt_append_add [0x55, 0xAB, status, cmd, lengthByte payload] (payload ++ ([received] ++ after))
    payload.length).trans (byteAt_append_add payload ([received] ++ after) 0)

/-- A whole response frame at the marker's index is decoded, whatever stands before and after it (R128, R130). -/
theorem responseAt_responseFrame (before : List Byte) :
    responseAt (before ++ (responseFrame status cmd payload received ++ after)) before.length =
      responseEffects status cmd payload received before.length := by
  have hstatus : byteAt (responseFrame status cmd payload received ++ after) 2 = status := rfl
  have hcmd : byteAt (responseFrame status cmd payload received ++ after) 3 = cmd := rfl
  have hlen : byteAt (responseFrame status cmd payload received ++ after) 4 = lengthByte payload := rfl
  simp only [responseAt, Nat.add_assoc, byteAt_append_add, slice_append_add, hstatus, hcmd, hlen,
    slice_responseFrame h, byteAt_responseFrame_checksum h]
  rw [append_three_bytes, append_two_bytes]
  rfl

/-- DECODE_RSP decodes the first response frame, whatever stands before and after it (R124, R128, R130). -/
theorem decodeRspEffects_responseFrame {before : List Byte} (hnone : ∀ j, ¬ pairAt before 0x55 0xAB j) :
    decodeRspEffects (before ++ (responseFrame status cmd payload received ++ after)) =
      responseEffects status cmd payload received before.length := by
  have hlen : byteAt (before ++ (responseFrame status cmd payload received ++ after)) (before.length + 4) =
      lengthByte payload := byteAt_append_add before (responseFrame status cmd payload received ++ after) 4
  have hmarker : firstPair (before ++ (responseFrame status cmd payload received ++ after)) 0 0x55 0xAB before.length :=
    firstPair_append (by decide) hnone
  rw [decodeRspEffects_marker hmarker, if_neg, responseAt_responseFrame h]
  rw [hlen, lengthByte_toNat (decide_eq_true h), List.length_append, List.length_append, responseFrame_length]
  omega

end

/-- Settles O23: the frame's effects are those of `decodeRspEffects_responseFrame`, and a completion stores the payload
in OBUF and nothing else. -/
theorem decodeRspDecodesTheFirstFrame : Obligations.DecodeRspDecodesTheFirstFrame := by
  unfold Obligations.DecodeRspDecodesTheFirstFrame
  intro s irqEn before payload after status cmd len received hidle hlen hinput hnone
  have hfits : payload.length ≤ 255 := by have := len.isLt; omega
  obtain rfl : len = lengthByte payload := by rw [lengthByte, hlen, BitVec.ofNat_toNat, BitVec.setWidth_eq]
  have hsplit : before ++ [0x55, 0xAB, status, cmd, lengthByte payload] ++ payload ++ [received] ++ after =
      before ++ (responseFrame status cmd payload received ++ after) := by
    simp only [responseFrame, List.append_assoc]
  rw [hsplit] at hinput
  obtain ⟨t, hstart, hturn⟩ := operation_ends (irqEn := irqEn) 2 (by decide) hidle hinput
    (decodeRspEffects_responseFrame hfits status cmd received after hnone)
  refine ⟨t, writeObuf s.mem payload, hstart, hturn, ?payload, ?frame⟩
  case payload => exact fun j hj => readByte_writeBytes_inside s.mem (obufAddr 0) payload hj
  case frame => exact fun a ha => readByte_writeBytes_outside s.mem (obufAddr 0) payload ha

end Sys2Proof.Machine
end

section
/-! Proofs of the statements about the telemetry stream (42_stream.md): EXTRACT (R150 to R157) and DECODE_FRAME
(R160 to R165). -/

namespace Sys2Proof

/-! ### Bytes, slices and descriptors -/

/-- An index inside a sequence holds the byte that `byteAt` reads there. -/
theorem getElem?_eq_some_byteAt {s : List Byte} {j : Nat} (h : j < s.length) : s[j]? = some (byteAt s j) := by
  rw [byteAt, List.getD_eq_getElem _ _ h, List.getElem?_eq_getElem h]

/-- Inside a sequence, comparing the byte read by index is comparing the byte at that index. -/
theorem byteAt_eq_iff {s : List Byte} {j : Nat} {b : Byte} (h : j < s.length) : byteAt s j = b ↔ s[j]? = some b := by
  rw [getElem?_eq_some_byteAt h, Option.some.injEq]

/-- A slice reads the sequence from its first index on. -/
theorem slice_getElem? (s : List Byte) {a b j : Nat} (h : j < b + 1 - a) : (slice s a b)[j]? = s[a + j]? := by
  rw [slice, List.getElem?_take_of_lt h, List.getElem?_drop]

/-- The last byte of a slice is the one at its last index. -/
theorem slice_getLast? {s : List Byte} {a b : Nat} (hab : a ≤ b) (hb : b < s.length) :
    (slice s a b).getLast? = s[b]? := by
  rw [List.getLast?_eq_getElem?, slice_length s a b hb, slice_getElem? s (by omega),
    show a + (b + 1 - a - 1) = b by omega]

/-- The channels of a frame, by number (R43, R87). -/
theorem channelOf_samplesOf (f : List Byte) (i : Fin 8) : channelOf (samplesOf f) i = sampleAt f i.val := by
  fin_cases i <;> rfl

end Sys2Proof

namespace Sys2Proof.Machine

/-- A descriptor is its START or'ed with its END shifted over it (R48). -/
theorem descWord_eq_or {r : Nat × Nat} (h1 : r.1 < 65536) (h2 : r.2 < 65536) :
    descWord r = BitVec.ofNat 32 r.1 ||| (BitVec.ofNat 32 r.2 <<< 16) := by
  rw [descWord, BitVec.append_def, BitVec.shiftLeftZeroExtend_eq, BitVec.setWidth'_eq, BitVec.or_comm,
    BitVec.setWidth_ofNat_of_le_of_lt (by decide) h1, BitVec.setWidth_ofNat_of_le_of_lt (by decide) h2]

/-! ### A turn of the block over a written input -/

/-- The block's turn with a defined operation in progress over its input writes the operation's effects (R96). -/
theorem blockTurn_operate {s : State} {input : List Byte} (hb : s.busy = true) (ho : s.opL.toNat < 5)
    (hi : inputIs s.mem s.inOffL s.inLenL input) :
    blockTurn s = .next (s.completed (operate s.opL s.argL input)) := by
  obtain ⟨hfits, hread⟩ := inputIs_iff.1 hi
  rw [blockTurn, if_pos hb, completion_operate ho hfits hread]

/-! ### The candidates of EXTRACT -/

/-- What R151 and R152 make of one candidate: a range of the input of 3 bytes or more that opens with the start
sentinel and closes at the first end sentinel after it. -/
structure IsCandidate (input : List Byte) (r : Nat × Nat) : Prop where
  /-- START to END is 3 bytes or more -/
  long : r.1 + 2 ≤ r.2
  /-- END is an index of the input -/
  inside : r.2 < input.length
  /-- the start sentinel stands at START -/
  opens : pairAt input 0x7A 0x7B r.1
  /-- the end sentinel stands at END -/
  closes : input[r.2]? = some 0x7C
  /-- and nowhere between -/
  inner : ∀ j, r.1 + 2 ≤ j → j < r.2 → input[j]? ≠ some 0x7C

/-- Each range EXTRACT reports is a candidate. -/
theorem candidates_isCandidate {input : List Byte} {k : Nat} {r : Nat × Nat} (h : (candidates input).1[k]? = some r) :
    IsCandidate input r := by
  obtain ⟨-, -, hranges, -⟩ := scan_ranges (candidates_scan input)
  obtain ⟨-, hlong, hinside, hopens, hcloses, hinner⟩ := hranges k r h
  exact ⟨hlong, hinside, hopens, hcloses, hinner⟩

/-- A later candidate starts after an earlier one's end (R155). -/
theorem candidates_rise {input : List Byte} {k k' : Nat} {r r' : Nat × Nat} (hk : k < k')
    (h : (candidates input).1[k]? = some r) (h' : (candidates input).1[k']? = some r') : r.2 < r'.1 := by
  obtain ⟨-, -, -, hrise⟩ := scan_ranges (candidates_scan input)
  exact hrise k k' r r' hk h h'

/-- A candidate of an input has bounds that fit a descriptor's fields. -/
theorem IsCandidate.fits {input : List Byte} {r : Nat × Nat} (h : IsCandidate input r) (hl : input.length < 65536) :
    r.1 < 65536 ∧ r.2 < 65536 := by
  have hlong := h.long
  have hinside := h.inside
  omega

/-! ### EXTRACT -/

/-- FRAME_COUNT counts the candidates (R153). -/
theorem extractEffects_frameCount {input : List Byte} (hl : input.length < 65536) :
    (extractEffects input).out.frameCount.toNat = (candidates input).1.length := by
  have hcount := candidates_length_le input
  rw [extractEffects, BitVec.toNat_ofNat]
  omega

/-- The candidate that a completed EXTRACT reports in an entry below FRAME_COUNT (R153). -/
theorem extract_entry (s : State) {input : List Byte} (hl : input.length < 65536) {k : Nat}
    (hk : k < (extractEffects input).out.frameCount.toNat) :
    ∃ r, (candidates input).1[k]? = some r ∧
      readDesc (s.completed (extractEffects input)).mem k = some (descWord r) ∧
      descStart (descWord r) = r.1 ∧ descEnd (descWord r) = r.2 := by
  rw [extractEffects_frameCount hl] at hk
  have hr := List.getElem?_eq_getElem hk
  obtain ⟨hstart, hend⟩ := (candidates_isCandidate hr).fits hl
  refine ⟨_, hr, completed_fdesc s ?_, descWord_fields hstart hend⟩
  rw [extractEffects, List.getElem?_map, hr, Option.map_some]

/-- A turn of the block that ends EXTRACT with OK has scanned a written input. -/
theorem blockTurn_extract_ok {s u : State} (hb : s.busy = true) (hop : s.opL = 3) (h : blockTurn s = .next u)
    (hok : u.result = .ok) : ∃ input, inputIs s.mem s.inOffL s.inLenL input ∧
      u = s.completed (extractEffects input) := by
  rcases blockTurn_busy_cases hb h with ⟨-, rfl⟩ | ⟨-, -, rfl⟩ | ⟨-, hfits, input, hread, rfl⟩
  · cases hok
  · cases hok
  · exact ⟨input, inputIs_iff.2 ⟨hfits, hread⟩, by rw [hop, operate_extract]⟩

/-- Settles O25: the model's loop runs the scan relation, and its completion stores the candidates' descriptors in FDESC
and nothing else. -/
theorem extractFindsExactlyTheCandidates : Obligations.ExtractFindsExactlyTheCandidates := by
  unfold Obligations.ExtractFindsExactlyTheCandidates
  intro s irqEn input hidle hinput
  obtain ⟨hstart, hturn⟩ := run_operation (irqEn := irqEn) 3 (by decide) hidle hinput
  refine ⟨s.started 3 irqEn, writeFdesc s.mem ((candidates input).1.map descWord), (candidates input).1,
    (candidates input).2, hstart, rfl, candidates_scan input, hturn, ?entries, ?frame⟩
  case entries =>
    intro k r hr
    obtain ⟨h1, h2⟩ := (candidates_isCandidate hr).fits (inputIs_length_lt hinput)
    rw [← descWord_eq_or h1 h2]
    exact readDesc_writeFdesc s.mem (by rw [List.getElem?_map, hr, Option.map_some])
  case frame =>
    intro a ha
    refine readByte_writeBytes_outside s.mem (fdescAddr 0) _ ?_
    rw [descBytes_length, List.length_map]
    simpa [fdescAddr] using ha

/-- Settles O26: the entries below FRAME_COUNT are the scan's candidates, each at least 3 bytes long, which rise. -/
theorem extractedRangesRise : Obligations.ExtractedRangesRise := by
  unfold Obligations.ExtractedRangesRise
  intro s u hbusy hop hturn hok k hk
  obtain ⟨input, hinput, rfl⟩ := blockTurn_extract_ok hbusy hop hturn hok
  have hl := inputIs_length_lt hinput
  obtain ⟨r, hr, hread, hstart, hend⟩ := extract_entry s hl hk
  have hlong := (candidates_isCandidate hr).long
  refine ⟨descWord r, hread, by omega, fun k' hkk hk' => ?_⟩
  obtain ⟨r', hr', hread', hstart', -⟩ := extract_entry s hl hk'
  refine ⟨descWord r', hread', ?_⟩
  rw [hend, hstart']
  exact candidates_rise hkk hr hr'

/-- Settles O27: the candidates take 3 bytes or more each of an input that lies in IBUF. -/
theorem frameCountFitsTheTable : Obligations.FrameCountFitsTheTable := by
  unfold Obligations.FrameCountFitsTheTable
  intro s u hbusy hop hturn hok
  obtain ⟨input, hinput, rfl⟩ := blockTurn_extract_ok hbusy hop hturn hok
  have hcount : 3 * (candidates input).1.length ≤ input.length := candidates_length_le input
  rw [State.completed_out, extractEffects_frameCount (inputIs_length_lt hinput), Config.fdescEntries]
  obtain ⟨hlen, hfits, -⟩ := hinput
  omega

/-! ### DECODE_FRAME -/

/-- The four tests of R161 on a range, by the bytes that stand in it. -/
def frameShaped (f : List Byte) : Prop :=
  f.length = 20 ∧ f[0]? = some 0x7A ∧ f[1]? = some 0x7B ∧ f.getLast? = some 0x7C

/-- The last byte of 20 is the one at index 19. -/
theorem frameShaped_iff {f : List Byte} :
    frameShaped f ↔ f.length = 20 ∧ f[0]? = some 0x7A ∧ f[1]? = some 0x7B ∧ f[19]? = some 0x7C := by
  refine and_congr_right fun hlen => ?_
  rw [List.getLast?_eq_getElem?, hlen]

/-- The operation's tests are those of R161. -/
theorem frameShaped_iff_byteAt {f : List Byte} :
    frameShaped f ↔ f.length = 20 ∧ byteAt f 0 = 0x7A ∧ byteAt f 1 = 0x7B ∧ byteAt f 19 = 0x7C := by
  rw [frameShaped_iff]
  refine and_congr_right fun hlen => ?_
  rw [byteAt_eq_iff (by omega), byteAt_eq_iff (by omega), byteAt_eq_iff (by omega)]

/-- A range that passes the four tests is decoded (R162). -/
theorem decodeFrameEffects_shaped {f : List Byte} (h : frameShaped f) :
    decodeFrameEffects f = { noEffects .ok with
      out := { zeroOutputs with telemDigital := byteAt f 2, an := samplesOf f } } := by
  obtain ⟨hlen, h0, h1, h19⟩ := frameShaped_iff_byteAt.1 h
  rw [decodeFrameEffects, if_neg]
  simp [hlen, h0, h1, h19]

/-- A range that fails one of the four tests is MALFORMED (R161, R164). -/
theorem decodeFrameEffects_malformed {f : List Byte} (h : ¬ frameShaped f) :
    decodeFrameEffects f = noEffects .malformed := by
  rw [decodeFrameEffects, if_pos]
  rw [frameShaped_iff_byteAt] at h
  tauto

/-- DECODE_FRAME ends OK exactly when the range passes the four tests. -/
theorem decodeFrameEffects_code_ok_iff {f : List Byte} : (decodeFrameEffects f).code = .ok ↔ frameShaped f := by
  by_cases h : frameShaped f
  · rw [decodeFrameEffects_shaped h]
    exact iff_of_true rfl h
  · rw [decodeFrameEffects_malformed h]
    exact iff_of_false (fun hok => by cases hok) h

/-- Settles O30: the frame passes the four tests, and each channel is the little-endian value of its two bytes. -/
theorem decodeFrameReadsTelemetry : Obligations.DecodeFrameReadsTelemetry := by
  unfold Obligations.DecodeFrameReadsTelemetry
  intro s irqEn f hidle hinput hlen h0 h1 h19
  obtain ⟨hstart, hturn⟩ := run_operation (irqEn := irqEn) 4 (by decide) hidle hinput
  rw [operate_decodeFrame, decodeFrameEffects_shaped (frameShaped_iff.2 ⟨hlen, h0, h1, h19⟩)] at hturn
  refine ⟨s.started 4 irqEn, byteAt f 2, samplesOf f, hstart, rfl, getElem?_eq_some_byteAt (by omega),
    fun i => ?_, hturn⟩
  refine ⟨_, _, getElem?_eq_some_byteAt (by omega), getElem?_eq_some_byteAt (by omega), ?_⟩
  rw [channelOf_samplesOf, sampleAt, le16_toNat]

/-- Settles O31: each failure is a failure of the four tests. -/
theorem decodeFrameRejectsMalformed : Obligations.DecodeFrameRejectsMalformed := by
  unfold Obligations.DecodeFrameRejectsMalformed
  intro s irqEn f hidle hinput hfail
  have hshape : ¬ frameShaped f := by
    rintro ⟨hlen, h0, h1, hlast⟩
    rcases hfail with h | h | h | h <;> contradiction
  exact operation_ends 4 (by decide) hidle hinput (decodeFrameEffects_malformed hshape)

/-! ### DECODE_FRAME of a candidate -/

section

variable {input : List Byte} {r : Nat × Nat} (h : IsCandidate input r)

include h

/-- A candidate's bytes pass the three sentinel tests of DECODE_FRAME (R165). -/
theorem IsCandidate.slice_sentinels : (slice input r.1 r.2)[0]? = some 0x7A ∧ (slice input r.1 r.2)[1]? = some 0x7B ∧
    (slice input r.1 r.2).getLast? = some 0x7C := by
  have hlong := h.long
  obtain ⟨hfirst, hsecond⟩ := h.opens
  refine ⟨?_, ?_, ?_⟩
  · rw [slice_getElem? input (by omega), Nat.add_zero, hfirst]
  · rw [slice_getElem? input (by omega), hsecond]
  · rw [slice_getLast? (by omega) h.inside, h.closes]

/-- So only its length decides whether a candidate is decoded (R165). -/
theorem IsCandidate.frameShaped_slice_iff : frameShaped (slice input r.1 r.2) ↔ (slice input r.1 r.2).length = 20 :=
  and_iff_left h.slice_sentinels

/-- A candidate has no end sentinel from index 2 to its last byte but one (R165). -/
theorem IsCandidate.slice_inner {j : Nat} (h2 : 2 ≤ j) (hj : j + 1 < (slice input r.1 r.2).length) :
    (slice input r.1 r.2)[j]? ≠ some 0x7C := by
  rw [slice_length _ _ _ h.inside] at hj
  rw [slice_getElem? input (by omega)]
  exact h.inner _ (by omega) (by omega)

end

/-- Settles O29: an entry below FRAME_COUNT is a candidate of the scan, and of DECODE_FRAME's four tests such a
candidate can fail only the one on its length. -/
theorem candidateDecodesExactlyWhenTwentyLong : Obligations.CandidateDecodesExactlyWhenTwentyLong := by
  unfold Obligations.CandidateDecodesExactlyWhenTwentyLong
  intro s u input k hbusy hop hinput hturn hk
  rw [blockTurn_operate hbusy (by rw [hop]; decide) hinput, hop, operate_extract] at hturn
  obtain rfl := Host.Outcome.next.inj hturn
  obtain ⟨r, hr, hread, hstart, hend⟩ := extract_entry s (inputIs_length_lt hinput) hk
  have hcandidate := candidates_isCandidate hr
  refine ⟨descWord r, hread, ?_⟩
  rw [hstart, hend]
  refine ⟨hcandidate.slice_sentinels, ?decode, fun j h2 hj => hcandidate.slice_inner h2 hj⟩
  case decode =>
    intro v w hbusy' hop' hinput' hturn'
    rw [blockTurn_operate hbusy' (by rw [hop']; decide) hinput', hop', operate_decodeFrame] at hturn'
    obtain rfl := Host.Outcome.next.inj hturn'
    rw [State.completed_result, decodeFrameEffects_code_ok_iff, hcandidate.frameShaped_slice_iff]

end Sys2Proof.Machine
end

section
/-! Proofs of the statements about the result codes and the interrupt (60_exceptions.md): BAD_OP and BAD_RANGE (R187,
R188), which operation can end with which result (R189), and the life cycle of `irq` (R193). -/

namespace Sys2Proof.Machine

/-! ### The two errors before the operation -/

/-- The block's turn with a reserved operation in progress is BAD_OP, whatever its range and the buffers (R187). -/
theorem blockTurn_badOp {s : State} (hb : s.busy = true) (h : 5 ≤ s.opL.toNat) :
    blockTurn s = .next (s.completed (noEffects .badOp)) := by
  rw [blockTurn, if_pos hb, completion_badOp h]

/-- The block's turn with a defined operation in progress over a bad range is BAD_RANGE, whatever the buffers (R188). -/
theorem blockTurn_badRange {s : State} (hb : s.busy = true) (ho : s.opL.toNat < 5)
    (hr : rangeBad s.inOffL s.inLenL) : blockTurn s = .next (s.completed (noEffects .badRange)) := by
  rw [blockTurn, if_pos hb, completion_badRange ho (rangeBad_iff.1 hr)]

/-- Settles O34: `noEffects` writes only BAD_OP and zeroes, which is the state the statement writes out. -/
theorem reservedLatchIsBadOp : Obligations.ReservedLatchIsBadOp := by
  unfold Obligations.ReservedLatchIsBadOp
  exact fun _ hbusy hop => blockTurn_badOp hbusy hop

/-! ### The results of an operation -/

/-- The results of R189's table that an operation's own tests can give: its row without BAD_OP and BAD_RANGE. -/
def ownResults (op : BitVec 4) : List ResultCode :=
  match op.toNat with
  | 0 => [.ok]
  | 1 => [.ok, .encodingError]
  | 2 => [.ok, .notFound, .incomplete]
  | 3 => [.ok]
  | 4 => [.ok, .malformed]
  | _ => []

/-- BAD_RANGE is no operation's own result. -/
theorem badRange_not_mem_ownResults (op : BitVec 4) : ResultCode.badRange ∉ ownResults op := by
  revert op
  decide

/-- A defined operation over its input ends with one of its own results. -/
theorem operate_code_mem_ownResults {op : BitVec 4} (ho : op.toNat < 5) (arg : Byte) (input : List Byte) :
    (operate op arg input).code ∈ ownResults op := by
  obtain ⟨hchecksum, hencode, hdecodeRsp, hextract, hdecodeFrame⟩ := operate_codes op arg input
  rcases definedOp_cases ho with rfl | rfl | rfl | rfl | rfl
  · exact List.mem_singleton.2 (hchecksum rfl)
  · exact List.mem_pair.2 (hencode rfl)
  · exact List.mem_cons.2 ((hdecodeRsp rfl).imp_right List.mem_pair.2)
  · exact List.mem_singleton.2 (hextract rfl)
  · exact List.mem_pair.2 (hdecodeFrame rfl)

/-- A turn of the block that ends a defined operation ends it with BAD_RANGE, over a bad range, or with one of the
operation's own results, over a range that fits (R188, R190). -/
theorem blockTurn_defined_result {s u : State} (hb : s.busy = true) (ho : s.opL.toNat < 5) (h : blockTurn s = .next u) :
    (rangeBad s.inOffL s.inLenL ∧ u.result = .badRange) ∨
    (¬ rangeBad s.inOffL s.inLenL ∧ u.result ∈ ownResults s.opL) := by
  rcases blockTurn_busy_cases hb h with ⟨hreserved, -⟩ | ⟨-, hbad, rfl⟩ | ⟨-, hfits, input, -, rfl⟩
  · omega
  · exact .inl ⟨rangeBad_iff.2 hbad, rfl⟩
  · refine .inr ⟨fun hbad => ?_, operate_code_mem_ownResults ho _ input⟩
    rw [rangeBad_iff.1 hbad] at hfits
    cases hfits

/-- Settles O33: past IBUF the completion is BAD_RANGE; within it the result is one of the operation's own. -/
theorem rangePastIbufIsBadRange : Obligations.RangePastIbufIsBadRange := by
  unfold Obligations.RangePastIbufIsBadRange
  intro s hbusy hop
  refine ⟨fun hpast => blockTurn_badRange hbusy hop hpast, fun hfits u hturn hresult => ?_⟩
  rcases blockTurn_defined_result hbusy hop hturn with ⟨hbad, -⟩ | ⟨-, hown⟩
  · exact Nat.not_lt.2 hfits hbad
  · rw [hresult] at hown
    exact badRange_not_mem_ownResults s.opL hown

/-- A turn of the block that ends a defined operation ends it with a result of its row of R189's table. -/
theorem blockTurn_defined_result_mem {s u : State} (hb : s.busy = true) (ho : s.opL.toNat < 5)
    (h : blockTurn s = .next u) : u.result ∈ ownResults s.opL ++ [.badRange] := by
  rcases blockTurn_defined_result hb ho h with ⟨-, hbad⟩ | ⟨-, hown⟩
  · exact List.mem_append_right _ (List.mem_singleton.2 hbad)
  · exact List.mem_append_left _ hown

/-- A reserved operation ends with BAD_OP (R187). -/
theorem blockTurn_reserved_result {s u : State} (hb : s.busy = true) (ho : 5 ≤ s.opL.toNat)
    (h : blockTurn s = .next u) : u.result = .badOp := by
  rw [blockTurn_badOp hb ho] at h
  cases h
  rfl

/-! ### Each result of the table happens -/

/-- Some completion of operation `op` ends with this RESULT and this CHK_OK. -/
def canEnd (op : BitVec 4) (code : ResultCode) (chkOk : Bool) : Prop :=
  ∃ s u : State, s.busy = true ∧ s.opL = op ∧ blockTurn s = .next u ∧ u.result = code ∧ u.chkOk = chkOk

/-- Operation `op` in progress over `input`, which stands at the start of IBUF. -/
def inProgressOver (op : BitVec 4) (input : List Byte) : State :=
  { State.reset with
    busy := true, opL := op, inLenL := BitVec.ofNat 16 input.length, mem := writeBytes [] (ibufAddr 0) input }

/-- A stored input is the operation's input wherever IBUF surely holds it (R8). -/
theorem inProgressOver_input (op : BitVec 4) {input : List Byte} (h : input.length ≤ 261) :
    inputIs (inProgressOver op input).mem (inProgressOver op input).inOffL (inProgressOver op input).inLenL input := by
  have hdomain := ibufBytes_domain
  have hlen : (BitVec.ofNat 16 input.length).toNat = input.length := by
    rw [BitVec.toNat_ofNat]
    omega
  refine inputIs_writeBytes [] (off := 0) (len := BitVec.ofNat 16 input.length) hlen.symm ?_
  rw [hlen, show (0 : Half).toNat = 0 from rfl]
  omega

/-- A defined operation can end with what it makes of any input that IBUF surely holds. -/
theorem canEnd_operate {op : BitVec 4} {code : ResultCode} {chkOk : Bool} (input : List Byte) (ho : op.toNat < 5)
    (hlen : input.length ≤ 261) (hcode : (operate op 0 input).code = code)
    (hchk : (operate op 0 input).chkOk = chkOk) : canEnd op code chkOk :=
  ⟨inProgressOver op input, _, rfl, rfl, blockTurn_operate rfl ho (inProgressOver_input op hlen), hcode, hchk⟩

/-- A defined operation can end with BAD_RANGE: no IBUF holds 65536 bytes (R8). -/
theorem canEnd_badRange {op : BitVec 4} (ho : op.toNat < 5) : canEnd op .badRange false := by
  have hdomain := ibufBytes_domain
  have hbad : rangeBad 0xFFFF 1 := Nat.lt_of_le_of_lt hdomain.2 (by decide)
  exact ⟨{ State.reset with busy := true, opL := op, inOffL := 0xFFFF, inLenL := 1 }, _, rfl, rfl,
    blockTurn_badRange rfl ho hbad, rfl, rfl⟩

/-- A reserved operation can end with BAD_OP. -/
theorem canEnd_badOp {op : BitVec 4} (h : 5 ≤ op.toNat) : canEnd op .badOp false :=
  ⟨inProgressOver op [], _, rfl, rfl, blockTurn_badOp rfl h, rfl, rfl⟩

/-- ENCODE_CMD of 256 bytes is an ENCODING_ERROR (R121). -/
theorem canEnd_encodeCmd_encodingError : canEnd 1 .encodingError false := by
  have hlen : (List.replicate 256 (0 : Byte)).length = 256 := List.length_replicate
  have heffects : operate 1 0 (List.replicate 256 0) = noEffects .encodingError := encodeCmdEffects_long (by omega)
  exact canEnd_operate (List.replicate 256 0) (by decide) (by omega) (congrArg Effects.code heffects)
    (congrArg Effects.chkOk heffects)

/-- Settles O35: a turn of the block ends an operation with a result of its row of R189's table, and each entry of the
table is what the operation makes of the input given here. -/
theorem operationsEndOnlyInTheirResults : Obligations.OperationsEndOnlyInTheirResults := by
  unfold Obligations.OperationsEndOnlyInTheirResults
  refine ⟨?only, ?each, ?reserved⟩
  case only =>
    intro s u hbusy hturn
    have hmem : ∀ op : BitVec 4, op.toNat < 5 → s.opL = op → u.result ∈ ownResults op ++ [.badRange] := by
      rintro _ hop rfl
      exact blockTurn_defined_result_mem hbusy hop hturn
    exact ⟨hmem 0 (by decide), hmem 1 (by decide), hmem 2 (by decide), hmem 3 (by decide), hmem 4 (by decide),
      fun hop => blockTurn_reserved_result hbusy hop hturn⟩
  case each =>
    intro op code chkOk hentry
    change canEnd op code chkOk
    simp only [List.mem_cons, List.not_mem_nil, or_false, Prod.mk.injEq] at hentry
    rcases hentry with ⟨rfl, rfl, rfl⟩ | ⟨rfl, rfl, rfl⟩ | ⟨rfl, rfl, rfl⟩ | ⟨rfl, rfl, rfl⟩ | ⟨rfl, rfl, rfl⟩ |
      ⟨rfl, rfl, rfl⟩ | ⟨rfl, rfl, rfl⟩ | ⟨rfl, rfl, rfl⟩ | ⟨rfl, rfl, rfl⟩ | ⟨rfl, rfl, rfl⟩ | ⟨rfl, rfl, rfl⟩ |
      ⟨rfl, rfl, rfl⟩ | ⟨rfl, rfl, rfl⟩ | ⟨rfl, rfl, rfl⟩ | ⟨rfl, rfl, rfl⟩
    -- CHECKSUM: OK, BAD_RANGE
    · exact canEnd_operate [] (by decide) (by decide) rfl rfl
    · exact canEnd_badRange (by decide)
    -- ENCODE_CMD: OK, ENCODING_ERROR, BAD_RANGE
    · exact canEnd_operate [] (by decide) (by decide) rfl rfl
    · exact canEnd_encodeCmd_encodingError
    · exact canEnd_badRange (by decide)
    -- DECODE_RSP: OK with CHK_OK 0 and 1, NOT_FOUND, INCOMPLETE, BAD_RANGE
    · exact canEnd_operate (responseFrame 0 0 [] 1) (by decide) (by decide) rfl rfl
    · exact canEnd_operate (responseFrame 0 0 [] 0) (by decide) (by decide) rfl rfl
    · exact canEnd_operate [] (by decide) (by decide) rfl rfl
    · exact canEnd_operate [0x55, 0xAB] (by decide) (by decide) rfl rfl
    · exact canEnd_badRange (by decide)
    -- EXTRACT: OK, BAD_RANGE
    · exact canEnd_operate [] (by decide) (by decide) rfl rfl
    · exact canEnd_badRange (by decide)
    -- DECODE_FRAME: OK, MALFORMED, BAD_RANGE
    · exact canEnd_operate (streamFrame 0 zeroChannels) (by decide) (by decide) rfl rfl
    · exact canEnd_operate [] (by decide) (by decide) rfl rfl
    · exact canEnd_badRange (by decide)
  case reserved =>
    intro op hop
    obtain ⟨s, u, hbusy, hopL, hturn, hresult, -⟩ := canEnd_badOp hop
    exact ⟨s, u, hbusy, hopL, hturn, hresult⟩

/-! ### The interrupt line -/

/-- With DONE = 0 the line is low, whatever IRQ_EN (R192). -/
theorem irq_of_not_done {s : State} (h : s.done = false) : irq s = false := by
  rw [irq, h, Bool.false_and]

/-- With DONE = 1 the line is IRQ_EN (R192). -/
theorem irq_of_done {s : State} (h : s.done = true) : irq s = s.irqEn := by
  rw [irq, h, Bool.true_and]

/-- A completion leaves IRQ_EN as it was (R97). -/
theorem blockTurn_irqEn {s u : State} (hb : s.busy = true) (h : blockTurn s = .next u) : u.irqEn = s.irqEn := by
  obtain ⟨e, rfl⟩ := blockTurn_completed hb h
  exact s.completed_irqEn e

/-- A CTRL write with bit 0 = 0 writes OP and IRQ_EN and starts nothing (R24, R25, R26). -/
theorem busWrite_ctrl_control {w : Word} (s : State) (h : w.getLsbD 0 = false) :
    busWrite 0x00 4 w s = .next (s.withControl (w.extractLsb' 4 4) (w.getLsbD 1)) := by
  have hreg : busWrite 0x00 4 w s = writeReg .ctrl w s := busWrite_reg .ctrl w s
  rw [hreg, writeReg, if_neg (Bool.eq_false_iff.1 h)]

/-- After such a write the line is `DONE & IRQ_EN` with DONE as before and the word's IRQ_EN (R192). -/
theorem irq_withControl (s : State) (op : BitVec 4) (irqEn : Bool) :
    irq (s.withControl op irqEn) = (s.done && irqEn) := rfl

/-- Settles O41: each way to raise the line or clear it is what the step does to DONE or to IRQ_EN. -/
theorem irqIsRaisedAndClearedAsStated : Obligations.IrqIsRaisedAndClearedAsStated := by
  unfold Obligations.IrqIsRaisedAndClearedAsStated
  refine ⟨?completion, ?enable, ?ackDone, ?start, ?reset, ?disable⟩
  case completion =>
    intro s u hbusy hturn
    rw [irq_of_done (blockTurn_sets_done hbusy hturn), blockTurn_irqEn hbusy hturn]
  case enable =>
    intro s w hdone hstart hirqEn
    exact ⟨_, busWrite_ctrl_control s hstart, by rw [irq_withControl, hdone, hirqEn, Bool.and_self]⟩
  case ackDone => exact fun s => ⟨_, exec_ackDone s, irq_of_not_done s.acknowledged_done⟩
  case start => exact fun _ _ _ _ h => irq_of_not_done (startStep_clears_done h)
  case reset => exact fun s => irq_of_not_done s.afterReset_done
  case disable =>
    intro s w hstart hirqEn
    exact ⟨_, busWrite_ctrl_control s hstart, by rw [irq_withControl, hirqEn, Bool.and_false]⟩

end Sys2Proof.Machine
end

section
/-! Proofs of the statements about reset and the hazards (70_reset_and_hazards.md): the state after reset (R210 to
R212), and what a busy block refuses (R215, R216). -/

namespace Sys2Proof

/-- Every channel of the zero channels is 0 (R43, R52). -/
theorem channelOf_zeroChannels (i : Fin 8) : channelOf zeroChannels i = 0 := by
  revert i
  decide

end Sys2Proof

namespace Sys2Proof.Machine

/-! ### Reset -/

/-- After reset every register reads as in the reset state: none shows what `afterReset` keeps (R210). -/
theorem regValue_afterReset (s : State) (r : Reg) : regValue s.afterReset r = regValue State.reset r := by
  cases r <;> rfl

/-- In the reset state every register reads 0: STATUS and CTRL as words of cleared fields, each input and output register
as its own zero field (R52, R212). -/
theorem regValue_reset (r : Reg) : regValue State.reset r = 0 := by
  cases r with
  | an i =>
    calc regValue State.reset (.an i) = (channelOf zeroChannels i).setWidth 32 := rfl
      _ = 0 := by rw [channelOf_zeroChannels]; rfl
  | _ => rfl

/-- A range of length 0 that starts inside IBUF or at its end has the empty input, whatever is written (R45, R50). -/
theorem inputIs_nil (m : Memory) {off : Half} (h : off.toNat ≤ Config.ibufBytes) : inputIs m off 0 [] :=
  ⟨rfl, h, nofun⟩

/-- After reset IN_LEN is 0, so no start meets an unwritten byte: its input is empty (R212, R218). -/
theorem inputReady_afterReset (s : State) (op : BitVec 4) :
    inputReady s.afterReset.mem op s.afterReset.inOff s.afterReset.inLen = true :=
  inputReady_of op (.inr ⟨[], inputIs_nil [] (Nat.zero_le _)⟩)

/-- Settles O54: the register and buffer values are those of the reset state; a start is accepted since the block is
then idle over an empty input. -/
theorem resetIsIdleAndAcceptsAStart : Obligations.ResetIsIdleAndAcceptsAStart := by
  unfold Obligations.ResetIsIdleAndAcceptsAStart
  intro s
  refine ⟨s.afterReset_busy, s.afterReset_done, s.afterReset_result, irq_of_not_done s.afterReset_done,
    ?registers, fun _ => rfl, ?start⟩
  case registers => exact fun r => (regValue_afterReset s r).trans (regValue_reset r)
  case start =>
    intro w hstart
    refine ⟨s.afterReset.started (w.extractLsb' 4 4) (w.getLsbD 1), ?_, State.started_busy ..⟩
    rw [busWrite_ctrl_start _ hstart]
    exact startStep_next _ s.afterReset_busy (inputReady_afterReset s _)

/-- With nothing in progress the block's turn changes nothing (R96, R200). -/
theorem blockTurn_idle {s : State} (h : s.busy = false) : blockTurn s = .next s := by
  rw [blockTurn, if_neg (Bool.eq_false_iff.1 h)]

/-- Settles O55: after reset BUSY is 0, so the block's turn has nothing to complete; the rest is the reset state's. -/
theorem resetAbandonsTheOperation : Obligations.ResetAbandonsTheOperation := by
  unfold Obligations.ResetAbandonsTheOperation
  intro s _
  exact ⟨blockTurn_idle s.afterReset_busy, s.afterReset_done, irq_of_not_done s.afterReset_done, s.afterReset_out,
    s.afterReset_chkOk, s.afterReset_result, s.afterReset_mem⟩

/-! ### Hazards while busy -/

/-- Settles O13: a word with bit 0 = 1 is a start step, which a busy block refuses; one with bit 0 = 0 writes OP and
IRQ_EN whatever BUSY. -/
theorem startWhileBusyIsRefused : Obligations.StartWhileBusyIsRefused := by
  unfold Obligations.StartWhileBusyIsRefused
  intro s w
  refine ⟨?start, ?control⟩
  case start =>
    intro hbusy hstart
    rw [busWrite_ctrl_start s hstart]
    exact startStep_busy _ _ hbusy
  case control => exact busWrite_ctrl_control s

/-- An aligned write to existing bytes of IBUF while busy is refused by name (R215). -/
theorem busWrite_ibuf_busy {i size : Nat} {s : State} (data : Word) (hb : s.busy = true)
    (hs : size = 1 ∨ size = 2 ∨ size = 4) (ha : size ∣ i) (hh : i + size ≤ Config.ibufBytes) :
    busWrite (ibufAddr i) size data s = .refused .ibufWriteWhileBusy := by
  simp only [busWrite, locate_ibuf_aligned hs ha hh, hb, if_true]

/-- Settles O47: the access reaches IBUF, and BUSY refuses it there. -/
theorem ibufWriteWhileBusyIsRefused : Obligations.IbufWriteWhileBusyIsRefused := by
  unfold Obligations.IbufWriteWhileBusyIsRefused
  exact fun _ _ _ data hbusy hs ha hh => busWrite_ibuf_busy data hbusy hs ha hh

end Sys2Proof.Machine
end

section
/-! Proofs of the statements about the encodings (30_encoding.md): the start words of CTRL (R93, R94), the wire formats
(R81, R82, R86), and the decoder against the encoder. -/

namespace Sys2Proof

/-! ### The layout of CTRL -/

/-- OP, IRQ_EN and START at their bits of CTRL, every other bit 0 (R23). -/
def ctrlLayout (op : BitVec 4) (irqEn start : Bool) : Word :=
  0#24 ++ op ++ 0#2 ++ BitVec.ofBool irqEn ++ BitVec.ofBool start

/-- CTRL bit by bit. -/
theorem ctrlLayout_getLsbD (op : BitVec 4) (irqEn start : Bool) (n : Nat) :
    (ctrlLayout op irqEn start).getLsbD n =
      if n = 0 then start else if n = 1 then irqEn else if 4 ≤ n ∧ n < 8 then op.getLsbD (n - 4) else false := by
  change BitVec.getLsbD (w := 24 + 4 + 2 + 1 + 1)
    (0#24 ++ op ++ 0#2 ++ BitVec.ofBool irqEn ++ BitVec.ofBool start) n = _
  simp only [BitVec.getLsbD_append]
  match n with
  | 0 | 1 => simp
  | 2 | 3 => rfl
  | n + 4 => 
    by_cases h : n < 4
    · simp [h, show n + 4 < 8 by omega]
    · simp [h, show ¬ n + 4 < 8 by omega]

/-- A word's fields laid out again are its bits under R93's mask `F3`. -/
theorem ctrlLayout_fields (w : Word) :
    ctrlLayout (w.extractLsb' 4 4) (w.getLsbD 1) (w.getLsbD 0) = w &&& 0x000000F3 := by
  apply BitVec.eq_of_getLsbD_eq
  intro i hi
  rw [ctrlLayout_getLsbD, BitVec.getLsbD_and]
  interval_cases i <;> simp

/-- The fields of a start word. -/
theorem startWord_fields (op : BitVec 4) (irqEn : Bool) : (startWord op irqEn).getLsbD 0 = true ∧
    (startWord op irqEn).getLsbD 1 = irqEn ∧ (startWord op irqEn).extractLsb' 4 4 = op := by
  revert op irqEn
  decide

/-- The start word of a word's OP and IRQ_EN is that word, where START = 1, with its ignored bits 0. -/
theorem startWord_of_fields {w : Word} (h : w.getLsbD 0 = true) :
    startWord (w.extractLsb' 4 4) (w.getLsbD 1) = w &&& 0x000000F3 := by
  rw [← ctrlLayout_fields, h]
  rfl

/-! ### The start instructions -/

/-- The instruction of a CTRL write with START = 1, by its OP and IRQ_EN (R93, R94). -/
def startInstr (op : BitVec 4) (irqEn : Bool) : Instr :=
  match op.toNat with
  | 0 => .checksum irqEn
  | 1 => .encodeCmd irqEn
  | 2 => .decodeRsp irqEn
  | 3 => .extract irqEn
  | 4 => .decodeFrame irqEn
  | 5 => .reservedOp5 irqEn
  | 6 => .reservedOp6_7 (op.extractLsb' 0 1) irqEn
  | 7 => .reservedOp6_7 (op.extractLsb' 0 1) irqEn
  | _ => .reservedOp8_15 (op.extractLsb' 0 3) irqEn

/-- An OP 011x is RESERVED_OP6_7 with its free bit. -/
theorem startInstr_reservedOp6_7 (low : BitVec 1) (irqEn : Bool) :
    startInstr (3#3 ++ low) irqEn = .reservedOp6_7 low irqEn := by
  revert low irqEn
  decide

/-- An OP 1xxx is RESERVED_OP8_15 with its free bits. -/
theorem startInstr_reservedOp8_15 (low : BitVec 3) (irqEn : Bool) :
    startInstr (1#1 ++ low) irqEn = .reservedOp8_15 low irqEn := by
  revert low irqEn
  decide

/-- Every start instruction is encoded as the start word of its OP and IRQ_EN. -/
theorem encode_startInstr (op : BitVec 4) (irqEn : Bool) : encode (startInstr op irqEn) = startEvent op irqEn := by
  revert op irqEn
  decide

/-- A start instruction has no payload to check. -/
theorem wellFormed_startInstr (op : BitVec 4) (irqEn : Bool) : wellFormed (startInstr op irqEn) = true := by
  revert op irqEn
  decide

/-- The low bits of a word's OP field are the word's own bits from bit 4 on. -/
theorem extractLsb'_opField (w : Word) {n : Nat} (h : n ≤ 4) :
    (w.extractLsb' 4 4).extractLsb' 0 n = w.extractLsb' 4 n := by
  apply BitVec.eq_of_getLsbD_eq
  intro i hi
  simp [hi, Nat.lt_of_lt_of_le hi h]

/-- A CTRL write with START = 1 is the start instruction of its OP and IRQ_EN fields, whatever its other bits. -/
theorem decodeCtrl_start {w : Word} (h : w.getLsbD 0 = true) :
    decodeCtrl w = .ok (startInstr (w.extractLsb' 4 4) (w.getLsbD 1)) := by
  simp only [decodeCtrl, h, Bool.true_eq_false, if_false, startInstr]
  rw [extractLsb'_opField w (by decide : 1 ≤ 4), extractLsb'_opField w (by decide : 3 ≤ 4)]
  generalize (w.extractLsb' 4 4).toNat = op
  match op with
  | 0 | 1 | 2 | 3 | 4 | 5 | 6 | 7 => rfl
  | _ + 8 => rfl

/-- A CTRL write with START = 0 is no instruction (R24). -/
theorem decodeCtrl_clear {w : Word} (h : w.getLsbD 0 = false) : decodeCtrl w = .error .startBitClear := by
  rw [decodeCtrl, if_pos h]

/-- The start event of an OP and IRQ_EN is decoded to their instruction. -/
theorem decode_startEvent (op : BitVec 4) (irqEn : Bool) :
    decode (startEvent op irqEn) = .ok (startInstr op irqEn) := by
  obtain ⟨hstart, hirqEn, hop⟩ := startWord_fields op irqEn
  have hdecode := decodeCtrl_start hstart
  rwa [hirqEn, hop] at hdecode

/-! ### The wire formats -/

/-- The middle of a sequence, by the index where it begins and the one where it ends. -/
theorem slice_middle (s t u : List Byte) {a b : Nat} (ha : a = s.length) (hb : b + 1 = s.length + t.length) :
    slice (s ++ (t ++ u)) a b = t := by
  rw [slice, ha, List.drop_left, hb, Nat.add_sub_cancel_left, List.take_left]

/-- The byte right after a sequence's first part. -/
theorem byteAt_middle (s t : List Byte) (b : Byte) {j : Nat} (h : j = s.length) : byteAt (s ++ b :: t) j = b := by
  rw [h]
  exact byteAt_append_add s (b :: t) 0

/-- A payload's length byte, where the payload has as many bytes as that byte says. -/
theorem lengthByte_of_length {p : List Byte} {len : Byte} (h : p.length = len.toNat) : lengthByte p = len := by
  rw [lengthByte, h, BitVec.ofNat_toNat, BitVec.setWidth_eq]

/-- A payload whose length a byte says fits in a frame (R83). -/
theorem payloadFits_of_length {p : List Byte} {len : Byte} (h : p.length = len.toNat) : payloadFits p = true := by
  have hlt := len.isLt
  simp only [payloadFits, decide_eq_true_eq]
  omega

/-- Bytes with a command frame's marker and length are decoded by their last byte alone: it is the checksum or not. -/
theorem decodeCmdFrame_of_length (i : Nat) (cmd k : Byte) {len : Byte} {p : List Byte} (h : p.length = len.toNat) :
    decodeCmdFrame i ([0x55, 0xAA, cmd, len] ++ (p ++ [k])) =
      if k = commandChecksum cmd p then .ok (.cmdFrame i cmd p) else .error .badChecksum := by
  have hlen : byteAt ([0x55, 0xAA, cmd, len] ++ (p ++ [k])) 3 = len := rfl
  have hlast : byteAt ([0x55, 0xAA, cmd, len] ++ (p ++ [k])) (4 + len.toNat) = k := by
    rw [← List.append_assoc]
    exact byteAt_middle _ [] k (by simp [h]; omega)
  have hcovered : slice ([0x55, 0xAA, cmd, len] ++ (p ++ [k])) 2 (3 + len.toNat) = [cmd, len] ++ p :=
    slice_middle [0x55, 0xAA] ([cmd, len] ++ p) [k] rfl (by simp [h]; omega)
  have hpayload : slice ([0x55, 0xAA, cmd, len] ++ (p ++ [k])) 4 (3 + len.toNat) = p :=
    slice_middle [0x55, 0xAA, cmd, len] p [k] rfl (by simp [h]; omega)
  have hall : ([0x55, 0xAA, cmd, len] ++ (p ++ [k])).length = 5 + len.toNat := by simp [h]; omega
  simp only [decodeCmdFrame, hlen, hlast, hcovered, hpayload, hall, ne_eq, not_true_eq_false, if_false, ite_not,
    commandChecksum, lengthByte_of_length h]
  rfl

/-- Bytes with a response frame's marker and length are decoded, whatever their last byte. -/
theorem decodeRspFrame_of_length (i : Nat) (status cmd k : Byte) {len : Byte} {p : List Byte}
    (h : p.length = len.toNat) : decodeRspFrame i ([0x55, 0xAB, status, cmd, len] ++ (p ++ [k])) = .ok (.rspFrame i status cmd p k) := by
  have hlen : byteAt ([0x55, 0xAB, status, cmd, len] ++ (p ++ [k])) 4 = len := rfl
  have hlast : byteAt ([0x55, 0xAB, status, cmd, len] ++ (p ++ [k])) (5 + len.toNat) = k := by
    rw [← List.append_assoc]
    exact byteAt_middle _ [] k (by simp [h]; omega)
  have hpayload : slice ([0x55, 0xAB, status, cmd, len] ++ (p ++ [k])) 5 (4 + len.toNat) = p :=
    slice_middle [0x55, 0xAB, status, cmd, len] p [k] rfl (by simp [h]; omega)
  have hall : ([0x55, 0xAB, status, cmd, len] ++ (p ++ [k])).length = 6 + len.toNat := by simp [h]; omega
  simp only [decodeRspFrame, hlen, hlast, hpayload, hall, ne_eq, not_true_eq_false, if_false]
  rfl

/-- A sequence is its bytes read by index. -/
theorem map_byteAt_range (s : List Byte) : (List.range s.length).map (byteAt s) = s := by
  apply List.ext_getElem?
  intro j
  by_cases h : j < s.length
  · rw [List.getElem?_map, List.getElem?_range h, Option.map_some, getElem?_eq_some_byteAt h]
  · rw [List.getElem?_eq_none (by simpa using h), List.getElem?_eq_none (by simpa using h)]

/-- A streaming frame's digital byte and samples laid out again, between its sentinels, are the frame (R86, R87). -/
theorem streamFrame_of_shaped {f : List Byte} (h : Machine.frameShaped f) :
    streamFrame (byteAt f 2) (samplesOf f) = f := by
  obtain ⟨hlen, h0, h1, h19⟩ := Machine.frameShaped_iff_byteAt.1 h
  calc streamFrame (byteAt f 2) (samplesOf f)
      = (List.range 20).map (byteAt f) := by
        simp [streamFrame, sampleBytes, samplesOf, sampleAt, List.range_succ, h0, h1, h19]
    _ = f := by rw [← hlen, map_byteAt_range]

/-- A command frame as its four-byte header, its payload and its checksum. -/
theorem commandFrame_eq (cmd : Byte) (p : List Byte) :
    commandFrame cmd p = [0x55, 0xAA, cmd, lengthByte p] ++ (p ++ [commandChecksum cmd p]) := by
  simp [commandFrame]

/-- A response frame as its five-byte header, its payload and its checksum byte. -/
theorem responseFrame_eq (status cmd : Byte) (p : List Byte) (k : Byte) :
    responseFrame status cmd p k = [0x55, 0xAB, status, cmd, lengthByte p] ++ (p ++ [k]) := by
  simp [responseFrame]

/-- A command frame is decoded to its own row (R81). -/
theorem decode_commandFrame (i : Nat) (cmd : Byte) {p : List Byte} (h : payloadFits p = true) :
    decode (.bytes i (commandFrame cmd p)) = .ok (.cmdFrame i cmd p) := by
  rw [commandFrame_eq]
  exact (decodeCmdFrame_of_length i cmd _ (lengthByte_toNat h).symm).trans (if_pos rfl)

/-- A response frame is decoded to its own row, whatever its checksum byte (R82). -/
theorem decode_responseFrame (i : Nat) (status cmd k : Byte) {p : List Byte} (h : payloadFits p = true) :
    decode (.bytes i (responseFrame status cmd p k)) = .ok (.rspFrame i status cmd p k) := by
  rw [responseFrame_eq]
  exact decodeRspFrame_of_length i status cmd k (lengthByte_toNat h).symm

/-- A streaming frame is decoded to its own row (R86). -/
theorem decode_streamFrame (i : Nat) (digital : Byte) (an : Channels) :
    decode (.bytes i (streamFrame digital an)) = .ok (.streamFrame i digital an) :=
  congrArg (fun c => Except.ok (Instr.streamFrame i digital c)) (samplesOf_streamFrame digital an)

/-! ### The decoder against the encoder -/

/-- Settles O1: a start word gives back its OP and IRQ_EN, and a frame its fields. -/
theorem decodeAfterEncodeIsIdentity : Obligations.DecodeAfterEncodeIsIdentity := by
  unfold Obligations.DecodeAfterEncodeIsIdentity
  intro i hwf
  cases i with
  | checksum irqEn => exact decode_startEvent 0 irqEn
  | encodeCmd irqEn => exact decode_startEvent 1 irqEn
  | decodeRsp irqEn => exact decode_startEvent 2 irqEn
  | extract irqEn => exact decode_startEvent 3 irqEn
  | decodeFrame irqEn => exact decode_startEvent 4 irqEn
  | reservedOp5 irqEn => exact decode_startEvent 5 irqEn
  | reservedOp6_7 low irqEn =>
    rw [← startInstr_reservedOp6_7, encode_startInstr]
    exact decode_startEvent _ irqEn
  | reservedOp8_15 low irqEn =>
    rw [← startInstr_reservedOp8_15, encode_startInstr]
    exact decode_startEvent _ irqEn
  | ackDone => rfl
  | cmdFrame k cmd payload => exact decode_commandFrame k cmd hwf
  | rspFrame k status cmd payload chk => exact decode_responseFrame k status cmd chk hwf
  | streamFrame k digital an => exact decode_streamFrame k digital an

/-- A sequence cut into its first bytes, its middle and its last byte. -/
theorem exists_head_middle_last {f : List Byte} {h n : Nat} (hlen : f.length = h + n + 1) :
    ∃ head p k, f = head ++ (p ++ [k]) ∧ head.length = h ∧ p.length = n := by
  rcases List.eq_nil_or_concat (f.drop h) with hnil | ⟨p, k, hpk⟩
  · have := List.drop_eq_nil_iff.1 hnil
    omega
  · rw [List.concat_eq_append] at hpk
    refine ⟨f.take h, p, k, by rw [← hpk, List.take_append_drop], List.length_take_of_le (by omega), ?_⟩
    have hdrop := congrArg List.length hpk
    simp only [List.length_drop, List.length_append, List.length_singleton] at hdrop
    omega

/-- What is decoded as a command frame is one (R81). -/
theorem decodeCmdFrame_eq_ok {i : Nat} {f : List Byte} {instr : Instr} (hmark : f.take 2 = [0x55, 0xAA])
    (h : decodeCmdFrame i f = .ok instr) :
    ∃ cmd p, payloadFits p = true ∧ instr = .cmdFrame i cmd p ∧ f = commandFrame cmd p := by
  have hlen : f.length = 4 + (byteAt f 3).toNat + 1 := by
    by_contra hne
    rw [decodeCmdFrame, if_pos (by omega)] at h
    cases h
  obtain ⟨head, p, k, rfl, hhead, hp⟩ := exists_head_middle_last hlen
  match head, hhead with
  | [b0, b1, cmd, len], _ =>
    replace hp : p.length = len.toNat := hp
    obtain ⟨rfl, rfl⟩ : b0 = 0x55 ∧ b1 = 0xAA := by simpa using hmark
    rw [decodeCmdFrame_of_length i cmd k hp] at h
    split at h
    · rename_i hk
      refine ⟨cmd, p, payloadFits_of_length hp, (Except.ok.inj h).symm, ?_⟩
      rw [commandFrame_eq, lengthByte_of_length hp, hk]
    · cases h

/-- What is decoded as a response frame is one (R82). -/
theorem decodeRspFrame_eq_ok {i : Nat} {f : List Byte} {instr : Instr} (hmark : f.take 2 = [0x55, 0xAB])
    (h : decodeRspFrame i f = .ok instr) :
    ∃ status cmd p k, payloadFits p = true ∧ instr = .rspFrame i status cmd p k ∧
      f = responseFrame status cmd p k := by
  have hlen : f.length = 5 + (byteAt f 4).toNat + 1 := by
    by_contra hne
    rw [decodeRspFrame, if_pos (by omega)] at h
    cases h
  obtain ⟨head, p, k, rfl, hhead, hp⟩ := exists_head_middle_last hlen
  match head, hhead with
  | [b0, b1, status, cmd, len], _ =>
    replace hp : p.length = len.toNat := hp
    obtain ⟨rfl, rfl⟩ : b0 = 0x55 ∧ b1 = 0xAB := by simpa using hmark
    rw [decodeRspFrame_of_length i status cmd k hp] at h
    refine ⟨status, cmd, p, k, payloadFits_of_length hp, (Except.ok.inj h).symm, ?_⟩
    rw [responseFrame_eq, lengthByte_of_length hp]

/-- What is decoded as a streaming frame is one (R86). -/
theorem decodeStreamFrame_eq_ok {i : Nat} {f : List Byte} {instr : Instr} (hmark : f.take 2 = [0x7A, 0x7B])
    (h : decodeStreamFrame i f = .ok instr) :
    ∃ digital an, instr = .streamFrame i digital an ∧ f = streamFrame digital an := by
  unfold decodeStreamFrame at h
  split at h
  · cases h
  · rename_i hlen
    split at h
    · cases h
    · rename_i hlast
      rw [not_not] at hlen hlast
      have hbyte : ∀ j, j < 2 → byteAt f j = byteAt (f.take 2) j := fun j hj => by
        simp [byteAt, List.getD_eq_getElem?_getD, hj]
      have hshape : Machine.frameShaped f := Machine.frameShaped_iff_byteAt.2
        ⟨hlen, by rw [hbyte 0 (by decide), hmark]; rfl, by rw [hbyte 1 (by decide), hmark]; rfl, hlast⟩
      exact ⟨_, _, (Except.ok.inj h).symm, (streamFrame_of_shaped hshape).symm⟩

/-- What is decoded from bytes is a well-formed row whose encoding is those bytes. -/
theorem decodeBytes_eq_ok {i : Nat} {f : List Byte} {instr : Instr} (h : decodeBytes i f = .ok instr) :
    wellFormed instr = true ∧ encode instr = .bytes i f := by
  unfold decodeBytes at h
  split at h
  · rename_i hmark
    obtain ⟨cmd, p, hfits, rfl, rfl⟩ := decodeCmdFrame_eq_ok hmark h
    exact ⟨hfits, rfl⟩
  split at h
  · rename_i hmark
    obtain ⟨status, cmd, p, k, hfits, rfl, rfl⟩ := decodeRspFrame_eq_ok hmark h
    exact ⟨hfits, rfl⟩
  split at h
  · rename_i hmark
    obtain ⟨digital, an, rfl, rfl⟩ := decodeStreamFrame_eq_ok hmark h
    exact ⟨rfl, rfl⟩
  · cases h

/-- Everything the decoder accepts: a CTRL write with START = 1, a STATUS write with bit 1 = 1, or the bytes that a
well-formed row is encoded as. -/
theorem decode_eq_ok {e : Event} {i : Instr} (h : decode e = .ok i) :
    (∃ w : Word, w.getLsbD 0 = true ∧ e = .access (.write 0x00 4 w) ∧
      i = startInstr (w.extractLsb' 4 4) (w.getLsbD 1)) ∨
    (∃ w : Word, w.getLsbD 1 = true ∧ e = .access (.write 0x04 4 w) ∧ i = .ackDone) ∨
    (∃ k bs, e = .bytes k bs ∧ wellFormed i = true ∧ encode i = e) := by
  cases e with
  | access a =>
    cases a with
    | read offset size => cases h
    | write offset size w =>
      simp only [decode, decodeAccess] at h
      split at h
      · rename_i hctrl
        obtain ⟨rfl, rfl⟩ := hctrl
        cases hstart : w.getLsbD 0
        · rw [decodeCtrl_clear hstart] at h
          cases h
        · rw [decodeCtrl_start hstart] at h
          exact .inl ⟨w, hstart, rfl, (Except.ok.inj h).symm⟩
      split at h
      · rename_i hstatus
        obtain ⟨rfl, rfl⟩ := hstatus
        unfold decodeStatus at h
        split at h
        · rename_i hack
          exact .inr (.inl ⟨w, hack, rfl, (Except.ok.inj h).symm⟩)
        · cases h
      · cases h
  | bytes k bs =>
    obtain ⟨hwf, hencode⟩ := decodeBytes_eq_ok h
    exact .inr (.inr ⟨k, bs, rfl, hwf, hencode⟩)
  | wait => cases h
  | blockTurn => cases h
  | reset => cases h

/-- A word whose bit 1 is 1, cut to that bit. -/
theorem and_two_of_getLsbD {w : Word} (h : w.getLsbD 1 = true) : w &&& 0x00000002 = 0x00000002 := by
  apply BitVec.eq_of_getLsbD_eq
  intro i hi
  rw [BitVec.getLsbD_and]
  interval_cases i <;> simp [h]

/-- Settles O2: each thing the decoder accepts is its encoding up to the bits that the two register writes ignore. -/
theorem decodedEventIsItsEncoding : Obligations.DecodedEventIsItsEncoding := by
  unfold Obligations.DecodedEventIsItsEncoding
  intro e i h
  rcases decode_eq_ok h with ⟨w, hstart, rfl, rfl⟩ | ⟨w, hack, rfl, rfl⟩ | ⟨k, bs, rfl, hwf, hencode⟩
  · refine ⟨wellFormed_startInstr _ _, .inr (.inl ⟨w, rfl, ?_⟩)⟩
    rw [encode_startInstr, startEvent, startWord_of_fields hstart]
    rfl
  · refine ⟨rfl, .inr (.inr ⟨w, rfl, ?_⟩)⟩
    rw [and_two_of_getLsbD hack]
    rfl
  · exact ⟨hwf, .inl ⟨k, bs, rfl, hencode⟩⟩

/-! ### The rows of CTRL -/

/-- Every row asks for START = 1, and for no bit that a start ignores (R93). -/
theorem ctrlRows_masks : ∀ r ∈ ctrlRows, r.mask.getLsbD 0 = true ∧ r.pattern.getLsbD 0 = true ∧
    0x000000F3 &&& r.mask = r.mask := by decide

/-- A start word matches the one row of its instruction (R94). -/
theorem filter_rowMatches_startWord (op : BitVec 4) (irqEn : Bool) :
    (ctrlRows.filter (rowMatches (startWord op irqEn))).map CtrlRow.mnemonic = [rowName (startInstr op irqEn)] := by
  revert op irqEn
  decide

/-- The bits that a start ignores decide no row's match. -/
theorem rowMatches_and {w : Word} {r : CtrlRow} (h : r ∈ ctrlRows) :
    rowMatches (w &&& 0x000000F3) r = rowMatches w r := by
  obtain ⟨-, -, hmask⟩ := ctrlRows_masks r h
  rw [rowMatches, rowMatches, BitVec.and_assoc, hmask]

/-- No row matches a word with START = 0 (R94). -/
theorem rowMatches_clear {w : Word} (h : w.getLsbD 0 = false) {r : CtrlRow} (hr : r ∈ ctrlRows) :
    rowMatches w r = false := by
  obtain ⟨hmask, hpattern, -⟩ := ctrlRows_masks r hr
  rw [rowMatches, beq_eq_false_iff_ne]
  intro heq
  have hbit := congrArg (fun v => BitVec.getLsbD v 0) heq
  simp only [BitVec.getLsbD_and, h, hpattern, Bool.false_and] at hbit
  cases hbit

/-- Settles O3: a word with START = 1 matches the rows of the start word of its fields, which is one row, that of its
instruction; every row asks for START = 1. -/
theorem everyStartWriteMatchesOneRow : Obligations.EveryStartWriteMatchesOneRow := by
  unfold Obligations.EveryStartWriteMatchesOneRow
  intro w
  refine ⟨fun hstart => ?start, fun hclear => ⟨?none, decodeCtrl_clear hclear⟩⟩
  case start =>
    have hrows : ctrlRows.filter (rowMatches w) =
        ctrlRows.filter (rowMatches (startWord (w.extractLsb' 4 4) (w.getLsbD 1))) := by
      rw [startWord_of_fields hstart]
      exact List.filter_congr fun r hr => (rowMatches_and hr).symm
    obtain ⟨r, hr, hname⟩ := List.map_eq_singleton_iff.1 (filter_rowMatches_startWord (w.extractLsb' 4 4) (w.getLsbD 1))
    exact ⟨r, _, hrows.trans hr, decodeCtrl_start hstart, hname.symm⟩
  case none => exact List.filter_eq_nil_iff.2 fun r hr => by rw [rowMatches_clear hclear hr]; exact Bool.false_ne_true

/-- Settles O4: each word and frame is a closed case of the decoder. -/
theorem specWordsDecodeToTheirRows : Obligations.SpecWordsDecodeToTheirRows := by
  unfold Obligations.SpecWordsDecodeToTheirRows
  decide

end Sys2Proof

namespace Sys2Proof.Machine

/-! ### The instructions on the bus -/

/-- A start event fixes its OP and IRQ_EN. -/
theorem startEvent_inj {op op' : BitVec 4} {irqEn irqEn' : Bool} (h : startEvent op irqEn = startEvent op' irqEn') :
    op = op' ∧ irqEn = irqEn' := by
  simp only [startEvent, Event.access.injEq, Access.write.injEq, true_and] at h
  obtain ⟨-, hirqEn, hop⟩ := startWord_fields op irqEn
  obtain ⟨-, hirqEn', hop'⟩ := startWord_fields op' irqEn'
  rw [h] at hop hirqEn
  exact ⟨hop.symm.trans hop', hirqEn.symm.trans hirqEn'⟩

/-- A row that is encoded as a start event is the start step of that OP and IRQ_EN (R95). -/
theorem exec_of_encode_start {i : Instr} {op : BitVec 4} {irqEn : Bool} (h : encode i = startEvent op irqEn)
    (s : State) : exec i s = startStep op irqEn s := by
  cases i with
  | ackDone => cases h
  | cmdFrame => cases h
  | rspFrame => cases h
  | streamFrame => cases h
  | _ =>
    obtain ⟨rfl, rfl⟩ := startEvent_inj h
    rfl

/-- A start instruction is the start step of its OP and IRQ_EN. -/
theorem exec_startInstr (op : BitVec 4) (irqEn : Bool) (s : State) :
    exec (startInstr op irqEn) s = startStep op irqEn s :=
  exec_of_encode_start (encode_startInstr op irqEn) s

/-- A row that is encoded as bytes stores them into IBUF (log entry 8). -/
theorem exec_of_encode_bytes {i : Instr} {k : Nat} {bs : List Byte} (h : encode i = .bytes k bs) (s : State) :
    exec i s = storeBytes k bs s := by
  cases i with
  | cmdFrame => cases h; rfl
  | rspFrame => cases h; rfl
  | streamFrame => cases h; rfl
  | _ => cases h

/-- Settles O9: a write that the decoder reads an instruction in is a start step or the acknowledge. -/
theorem instructionIsItsBusWrite : Obligations.InstructionIsItsBusWrite := by
  unfold Obligations.InstructionIsItsBusWrite
  intro offset w i s h
  rcases decode_eq_ok h with ⟨w', hstart, he, rfl⟩ | ⟨w', hack, he, rfl⟩ | ⟨k, bs, he, -⟩
  · cases he
    rw [exec_startInstr, busWrite_ctrl_start s hstart]
  · cases he
    rw [exec_ackDone, busWrite_status_acknowledged s hack]
  · cases he

/-- An instruction that the decoder reads in an event does what the host's event does. -/
theorem exec_eq_perform {e : Event} {i : Instr} (h : decode e = .ok i) (rest : List Event) (s : State) :
    exec i (s.popped rest) = perform e rest s := by
  rcases decode_eq_ok h with ⟨w, hstart, rfl, rfl⟩ | ⟨w, hack, rfl, rfl⟩ | ⟨k, bs, rfl, -, hencode⟩
  · exact instructionIsItsBusWrite _ w _ _ h
  · exact instructionIsItsBusWrite _ w _ _ h
  · exact exec_of_encode_bytes hencode _

/-! ### The step -/

/-- The step performs the agenda's first event, whether or not it is an instruction. -/
theorem step_performs {s : State} {e : Event} {rest : List Event} (h : s.agenda = e :: rest) :
    step s = perform e rest s := by
  cases hd : decode e with
  | ok i => rw [step_instr h hd, exec_eq_perform hd]
  | error r => exact step_event h hd

/-- The three cases of a wait: DONE ends it, BUSY lets the block take its turn, and otherwise it stands (R99). -/
theorem hostWait_cases (rest : List Event) (s : State) :
    (s.done = true → hostWait rest s = .next { s with agenda := rest, readData := statusWord s }) ∧
    (s.done = false → s.busy = true → hostWait rest s = blockTurn s) ∧
    (s.done = false → s.busy = false → hostWait rest s = .next s) := by
  refine ⟨fun hdone => ?_, fun hdone hbusy => ?_, fun hdone hbusy => ?_⟩
  · rw [hostWait, if_pos hdone]
    rfl
  · rw [hostWait, if_neg (Bool.eq_false_iff.1 hdone), if_pos hbusy, blockTurn, if_pos hbusy]
  · rw [hostWait, if_neg (Bool.eq_false_iff.1 hdone), if_neg (Bool.eq_false_iff.1 hbusy)]

/-- Settles O7: the step is `perform` of the first event, one case for each kind of event. -/
theorem stepPerformsTheHostsEvent : Obligations.StepPerformsTheHostsEvent := by
  unfold Obligations.StepPerformsTheHostsEvent
  intro s rest
  refine ⟨fun _ _ h => step_performs h, fun _ _ _ h => step_performs h, fun _ _ h => step_performs h, fun h => ?wait,
    fun h => step_performs h, fun h => step_performs h, step_idle⟩
  case wait =>
    rw [step_performs h]
    exact hostWait_cases rest s

/-- Settles O6: the step at an instruction. -/
theorem stepRunsTheDecodedInstruction : Obligations.StepRunsTheDecodedInstruction := by
  unfold Obligations.StepRunsTheDecodedInstruction
  exact fun _ _ _ _ ha hd => step_instr ha hd

/-- Settles O8: the placed word's event stands first in the agenda, and taking it leaves the state as it was. -/
theorem placedWordIsRunByTheNextStep : Obligations.PlacedWordIsRunByTheNextStep := by
  unfold Obligations.PlacedWordIsRunByTheNextStep
  intro s nbits w i h
  have hdecode : decode (tableEvent nbits w) = .ok i := by
    cases hd : decode (tableEvent nbits w) with
    | error r => rw [decodeTableWord, hd] at h; cases h
    | ok j => rw [decodeTableWord, hd] at h; cases h; rfl
  exact step_instr (s := s.withFetchWord nbits w) rfl hdecode

end Sys2Proof.Machine
end

section
/-! Proofs of the statements about the registers and the memory map (10_state.md section 3, 20_memory.md): STATUS and
CTRL as their fields, register writes and reads, and reads of IBUF, OBUF and FDESC. -/

namespace Sys2Proof.Machine

/-! ### STATUS and CTRL bit by bit -/

/-- STATUS bit by bit (R27). -/
theorem statusWord_getLsbD (s : State) (n : Nat) : (statusWord s).getLsbD n =
    if n = 0 then s.busy else if n = 1 then s.done
    else if 4 ≤ n ∧ n < 8 then (resultBits s.result).getLsbD (n - 4)
    else if n = 8 then s.chkOk else false := by
  change BitVec.getLsbD (w := 23 + 1 + 4 + 2 + 1 + 1) (0#23 ++ BitVec.ofBool s.chkOk ++ resultBits s.result ++ 0#2 ++
    BitVec.ofBool s.done ++ BitVec.ofBool s.busy) n = _
  simp only [BitVec.getLsbD_append]
  match n with
  | 0 | 1 => simp
  | 2 | 3 => rfl
  | n + 4 =>
    by_cases h : n < 4
    · simp [h, show n + 4 < 8 by omega]
    · by_cases h8 : n = 4
      · simp [h8]
      · simp [h, h8, show ¬ n + 4 < 8 by omega, show ¬ n - 4 = 0 by omega]

/-- CTRL reads as the layout of its fields, with START = 0 (R23, R24). -/
theorem ctrlWord_eq_ctrlLayout (s : State) : ctrlWord s = ctrlLayout s.op s.irqEn false := rfl

/-- The codes of R181 go up to 7. -/
theorem resultBits_le (code : ResultCode) : (resultBits code).toNat ≤ 7 := by
  cases code <;> decide

/-- Settles O42: the two words bit by bit, and the codes as `resultBits` lists them. -/
theorem statusAndCtrlReadAsTheirFields : Obligations.StatusAndCtrlReadAsTheirFields := by
  unfold Obligations.StatusAndCtrlReadAsTheirFields
  intro s
  refine ⟨statusWord_getLsbD s, fun n => ?ctrl, resultBits_le s.result, rfl, rfl, rfl, rfl, rfl, rfl, rfl, rfl⟩
  case ctrl =>
    rw [ctrlWord_eq_ctrlLayout, ctrlLayout_getLsbD]
    by_cases h : n = 0 <;> simp [h]

/-! ### Register writes -/

/-- A word cut to its low bits and widened again is the word under their mask. -/
theorem setWidth_setWidth_eq_and (w : Word) (k : Nat) :
    (w.setWidth k).setWidth 32 = w &&& BitVec.ofNat 32 (2 ^ k - 1) := by
  apply BitVec.eq_of_getLsbD_eq
  intro i hi
  rw [BitVec.getLsbD_and, BitVec.getLsbD_setWidth, BitVec.getLsbD_setWidth, BitVec.getLsbD_ofNat,
    Nat.testBit_two_pow_sub_one]
  simp [hi, Bool.and_comm]

/-- A read of a register that is no output answers its value, busy or not (R217). -/
theorem busRead_input_reg {r : Reg} (h : isOutputReg r = false) (s : State) :
    busRead (regOffset r) 4 s = .next (s.withReadData (regValue s r)) := by
  rw [busRead_reg, h, Bool.and_false, if_neg Bool.false_ne_true]

/-- CTRL as it reads after a write of a word with START = 0 (R23, R24, R44). -/
theorem ctrlLayout_control (w : Word) :
    ctrlLayout (w.extractLsb' 4 4) (w.getLsbD 1) false = w &&& 0x000000F2 := by
  apply BitVec.eq_of_getLsbD_eq
  intro i hi
  rw [ctrlLayout_getLsbD, BitVec.getLsbD_and]
  interval_cases i <;> simp

/-- Settles O43: each register's write, then its read, which answers the word cut to the register's own bits. -/
theorem registerWritesReadBack : Obligations.RegisterWritesReadBack := by
  unfold Obligations.RegisterWritesReadBack
  intro s w
  refine ⟨busWrite_reg .inOff w s, ?inOff, busWrite_reg .inLen w s, ?inLen, busWrite_reg .arg w s, ?arg,
    fun hclear => ⟨_, busWrite_ctrl_control s hclear, rfl, ?ctrl⟩⟩
  case inOff =>
    rw [← show (w.setWidth 16).setWidth 32 = w &&& 0x0000FFFF from setWidth_setWidth_eq_and w 16]
    exact busRead_input_reg (r := .inOff) rfl _
  case inLen =>
    rw [← show (w.setWidth 16).setWidth 32 = w &&& 0x0000FFFF from setWidth_setWidth_eq_and w 16]
    exact busRead_input_reg (r := .inLen) rfl _
  case arg =>
    rw [← show (w.setWidth 8).setWidth 32 = w &&& 0x000000FF from setWidth_setWidth_eq_and w 8]
    exact busRead_input_reg (r := .arg) rfl _
  case ctrl =>
    rw [← ctrlLayout_control w]
    exact busRead_input_reg (r := .ctrl) rfl _

/-- The output registers, in the order of their offsets (R22). -/
def outputRegs : List Reg :=
  [.outLen, .chkResult, .rspHdr, .rspChk, .rspOffset, .frameCount, .extCursor, .telemDigital,
   .an 0, .an 1, .an 2, .an 3, .an 4, .an 5, .an 6, .an 7]

/-- The registers whose value a read answers even while busy (R217). -/
def inputRegs : List Reg := [.ctrl, .status, .inOff, .inLen, .arg]

/-- R217's outputs are those registers. -/
theorem isOutputReg_of_mem : ∀ r ∈ outputRegs, isOutputReg r = true := by decide

/-- And none of the others. -/
theorem not_isOutputReg_of_mem : ∀ r ∈ inputRegs, isOutputReg r = false := by decide

/-- A write of an output register is ignored (R44). -/
theorem writeReg_output {r : Reg} (h : isOutputReg r = true) (w : Word) (s : State) : writeReg r w s = .next s := by
  cases r with
  | ctrl => cases h
  | status => cases h
  | inOff => cases h
  | inLen => cases h
  | arg => cases h
  | _ => rfl

/-- A write inside OBUF is ignored (R64). -/
theorem busWrite_obuf {i size : Nat} (w : Word) (s : State) (hs : size = 1 ∨ size = 2 ∨ size = 4) (ha : size ∣ i)
    (hh : i + size ≤ 260) : busWrite (0x20000 + i) size w s = .next s := by
  simp only [busWrite, locate_obuf hs ha hh]

/-- A write of an entry of FDESC is ignored (R65). -/
theorem busWrite_fdesc {k : Nat} (w : Word) (s : State) (hk : k < Config.fdescEntries) :
    busWrite (0x40000 + 4 * k) 4 w s = .next s := by
  simp only [busWrite, locate_fdesc hk]

/-- Settles O44: the read-only registers are the outputs, and neither they nor OBUF nor FDESC take a write. -/
theorem writesToReadOnlyAreIgnored : Obligations.WritesToReadOnlyAreIgnored := by
  unfold Obligations.WritesToReadOnlyAreIgnored
  intro s w
  refine ⟨fun offset hoffset => ?registers, fun _ _ hs ha hh => busWrite_obuf w s hs ha hh,
    fun _ hk => busWrite_fdesc w s hk⟩
  case registers =>
    obtain ⟨r, hr, rfl⟩ : ∃ r ∈ outputRegs, regOffset r = offset := List.mem_map.1 hoffset
    rw [busWrite_reg, writeReg_output (isOutputReg_of_mem r hr)]

/-! ### Reads of IBUF -/

/-- One byte in the lanes of a bus word (R67). -/
theorem ofLanes_one (b : Byte) : ofLanes [b] = b.setWidth 32 := by
  simp [ofLanes]

/-- Two bytes in the lanes of a bus word (R67). -/
theorem ofLanes_two (b0 b1 : Byte) : ofLanes [b0, b1] = b0.setWidth 32 ||| b1.setWidth 32 <<< 8 := by
  simp [ofLanes]

/-- Four bytes in the lanes of a bus word (R67). -/
theorem ofLanes_four (b0 b1 b2 b3 : Byte) : ofLanes [b0, b1, b2, b3] =
    b0.setWidth 32 ||| b1.setWidth 32 <<< 8 ||| b2.setWidth 32 <<< 16 ||| b3.setWidth 32 <<< 24 := by
  simp [ofLanes, BitVec.shiftLeft_or_distrib, ← BitVec.shiftLeft_add, BitVec.or_assoc]

/-- An aligned read of written bytes of IBUF returns them, busy or not (R63, R69, R217). -/
theorem busRead_ibuf_written {s : State} {i size : Nat} {bs : List Byte} (hs : size = 1 ∨ size = 2 ∨ size = 4)
    (ha : size ∣ i) (hh : i + size ≤ Config.ibufBytes) (h : readBytes s.mem (ibufAddr i) size = some bs) :
    busRead (0x10000 + i) size s = .next (s.withReadData (ofLanes bs)) :=
  (busRead_ibuf s hs ha hh).trans (readBuffer_written h)

/-- A read of buffer bytes that includes an unwritten one is refused (R218). -/
theorem readBuffer_unwritten {s : State} {a size j : Nat} (hj : j < size) (h : readByte s.mem (a + j) = none) :
    readBuffer a size s = .refused .unwrittenRead := by
  have hnone : readBytes s.mem a size = none := by
    rw [← Option.not_isSome_iff_eq_none, readBytes_isSome]
    intro hall
    have hsome := hall j hj
    rw [h] at hsome
    cases hsome
  simp only [readBuffer, hnone]

/-- Settles O46: a read is its bytes in their lanes, or the refusal of an unwritten one; a write of one lane stores one
byte. -/
theorem ibufWordReadIsItsBytes : Obligations.IbufWordReadIsItsBytes := by
  unfold Obligations.IbufWordReadIsItsBytes
  refine ⟨?four, ?two, ?one, ?unwritten, ?write⟩
  case four =>
    intro s i b0 b1 b2 b3 ha hh h0 h1 h2 h3
    have hread : readBytes s.mem (ibufAddr i) 4 = some [b0, b1, b2, b3] := by
      simp only [ibufAddr_add] at h1 h2 h3
      simp [readBytes, h0, h1, h2, h3]
    rw [busRead_ibuf_written (.inr (.inr rfl)) ha hh hread, ofLanes_four]
    rfl
  case two =>
    intro s i b0 b1 ha hh h0 h1
    have hread : readBytes s.mem (ibufAddr i) 2 = some [b0, b1] := by
      simp only [ibufAddr_add] at h1
      simp [readBytes, h0, h1]
    rw [busRead_ibuf_written (.inr (.inl rfl)) ha hh hread, ofLanes_two]
    rfl
  case one =>
    intro s i b hi h0
    have hread : readBytes s.mem (ibufAddr i) 1 = some [b] := by simp [readBytes, h0]
    rw [busRead_ibuf_written (.inl rfl) (Nat.one_dvd i) hi hread, ofLanes_one]
    rfl
  case unwritten =>
    intro s i size j hs ha hh hj hnone
    rw [ibufAddr_add] at hnone
    exact (busRead_ibuf s hs ha hh).trans (readBuffer_unwritten hj hnone)
  case write =>
    intro s j data hb hj
    refine ⟨_, busWrite_ibuf_idle data hb (.inl rfl) (Nat.one_dvd j) hj, fun a ha => ?_⟩
    exact readByte_writeBytes_outside _ _ _ (by rw [lanes_length]; omega)

/-! ### Reads of the outputs -/

/-- Settles O49: a read answers with what it read, and while busy may have drawn a free value. -/
theorem hostReadsHaveNoSideEffect : Obligations.HostReadsHaveNoSideEffect := by
  unfold Obligations.HostReadsHaveNoSideEffect
  intro s t offset size h
  obtain ⟨v, rfl | ⟨hbusy, rfl⟩⟩ := busRead_cases h
  · exact ⟨rfl, fun _ => rfl⟩
  · refine ⟨rfl, fun hidle => ?_⟩
    rw [hbusy] at hidle
    cases hidle

/-- While busy an output register reads as a free value (R217). -/
theorem busRead_output_reg_busy {r : Reg} {s : State} (h : isOutputReg r = true) (hb : s.busy = true) :
    busRead (regOffset r) 4 s = .next (s.drew (Config.freeRead s.draws &&& regMask r)) := by
  rw [busRead_reg, h, hb, Bool.and_true, if_pos rfl]

/-- While idle every register reads as its value. -/
theorem busRead_reg_idle {s : State} (hb : s.busy = false) (r : Reg) :
    busRead (regOffset r) 4 s = .next (s.withReadData (regValue s r)) := by
  rw [busRead_reg, hb, Bool.false_and, if_neg Bool.false_ne_true]

/-- The mask of an access's lanes, by its width (R67). -/
theorem laneMask_eq {size : Nat} (hs : size = 1 ∨ size = 2 ∨ size = 4) :
    laneMask size = BitVec.ofNat 32 (2 ^ (8 * size) - 1) := by
  rcases hs with rfl | rfl | rfl <;> rfl

section

variable {s : State} {i k size : Nat}

/-- While busy OBUF reads as a free value (R217). -/
theorem busRead_obuf_busy (hb : s.busy = true) (hs : size = 1 ∨ size = 2 ∨ size = 4) (ha : size ∣ i)
    (hh : i + size ≤ 260) :
    busRead (0x20000 + i) size s = .next (s.drew (Config.freeRead s.draws &&& laneMask size)) := by
  simp only [busRead, locate_obuf hs ha hh, hb, if_true]

/-- While busy FDESC reads as a free value (R217). -/
theorem busRead_fdesc_busy (hb : s.busy = true) (hk : k < Config.fdescEntries) :
    busRead (0x40000 + 4 * k) 4 s = .next (s.drew (Config.freeRead s.draws &&& laneMask 4)) := by
  simp only [busRead, locate_fdesc hk, hb, if_true]

/-- While idle a read of OBUF is a read of its bytes (R64). -/
theorem busRead_obuf_idle (hb : s.busy = false) (hs : size = 1 ∨ size = 2 ∨ size = 4) (ha : size ∣ i)
    (hh : i + size ≤ 260) : busRead (0x20000 + i) size s = readBuffer (0x20000 + i) size s := by
  simp only [busRead, locate_obuf hs ha hh, hb, Bool.false_eq_true, if_false, obufAddr]

/-- While idle a read of FDESC is a read of its bytes (R65). -/
theorem busRead_fdesc_idle (hb : s.busy = false) (hk : k < Config.fdescEntries) :
    busRead (0x40000 + 4 * k) 4 s = readBuffer (0x40000 + 4 * k) 4 s := by
  simp only [busRead, locate_fdesc hk, hb, Bool.false_eq_true, if_false, fdescAddr]

/-- While idle a read of a written descriptor returns it (R48, R65). -/
theorem busRead_fdesc_written {d : Word} (hb : s.busy = false) (hk : k < Config.fdescEntries)
    (hd : readDesc s.mem k = some d) : busRead (0x40000 + 4 * k) 4 s = .next (s.withReadData d) := by
  obtain ⟨bs, hbs, rfl⟩ := Option.map_eq_some_iff.1 hd
  rw [busRead_fdesc_idle hb hk]
  exact readBuffer_written hbs

end

/-- Settles O50: while busy the outputs draw a free value and the other registers answer theirs. -/
theorem busyReadsOfOutputsAreFree : Obligations.BusyReadsOfOutputsAreFree := by
  unfold Obligations.BusyReadsOfOutputsAreFree
  intro s hb
  refine ⟨fun p hp => ?outputs, fun p hp => ?inputs, fun i size hs ha hh => ?obuf, fun k hk => ?fdesc⟩
  case outputs =>
    obtain ⟨r, hr, rfl⟩ : ∃ r ∈ outputRegs, (regOffset r, regMask r) = p := List.mem_map.1 hp
    exact busRead_output_reg_busy (isOutputReg_of_mem r hr) hb
  case inputs =>
    obtain ⟨r, hr, rfl⟩ : ∃ r ∈ inputRegs, (regOffset r, regValue s r) = p := List.mem_map.1 hp
    exact busRead_input_reg (not_isOutputReg_of_mem r hr) s
  case obuf =>
    rw [busRead_obuf_busy hb hs ha hh, laneMask_eq hs]
    rfl
  case fdesc =>
    rw [busRead_fdesc_busy hb hk, show laneMask 4 = BitVec.allOnes 32 from rfl, BitVec.and_allOnes]
    rfl

/-- Settles O51: while idle every register reads as its value, and the buffers as their written bytes. -/
theorem idleReadsReturnTheOutputs : Obligations.IdleReadsReturnTheOutputs := by
  unfold Obligations.IdleReadsReturnTheOutputs
  intro s hb
  refine ⟨fun p hp => ?registers, fun n => ?channels, fun i size bs hs ha hh hbs => ?obuf, fun k d hk hd => ?fdesc,
    fun i size j hs ha hh hj hnone => ?obufUnwritten, fun k j hk hj hnone => ?fdescUnwritten⟩
  case registers =>
    obtain ⟨r, -, rfl⟩ : ∃ r ∈ inputRegs ++ [.outLen, .chkResult, .rspHdr, .rspChk,
      .rspOffset, .frameCount, .extCursor, .telemDigital], (regOffset r, regValue s r) = p := List.mem_map.1 hp
    exact busRead_reg_idle hb r
  case channels => exact busRead_reg_idle hb (.an n)
  case obuf => exact (busRead_obuf_idle hb hs ha hh).trans (readBuffer_written hbs)
  case fdesc => exact busRead_fdesc_written hb hk hd
  case obufUnwritten => exact (busRead_obuf_idle hb hs ha hh).trans (readBuffer_unwritten hj hnone)
  case fdescUnwritten => exact (busRead_fdesc_idle hb hk).trans (readBuffer_unwritten hj hnone)

end Sys2Proof.Machine
end

section
/-! Proofs of the statements about every completion: what its effects are (30_encoding.md R96, R97; 60_exceptions.md
R180), and what they depend on (10_state.md R45, R49). -/

namespace Sys2Proof.Machine

/-! ### The effects of a completion -/

/-- The output registers that an operation writes itself, the others 0 (R97). -/
def ownOutputs (op : BitVec 4) (out : Outputs) : Outputs :=
  match op.toNat with
  | 0 => { zeroOutputs with chkResult := out.chkResult }
  | 1 => { zeroOutputs with outLen := out.outLen, chkResult := out.chkResult }
  | 2 => { zeroOutputs with
      outLen := out.outLen, rspHdr := out.rspHdr, rspChk := out.rspChk, rspOffset := out.rspOffset }
  | 3 => { zeroOutputs with frameCount := out.frameCount, extCursor := out.extCursor }
  | 4 => { zeroOutputs with telemDigital := out.telemDigital, an := out.an }
  | _ => zeroOutputs

/-- Clearing the outputs clears each operation's own too. -/
theorem ownOutputs_zeroOutputs (op : BitVec 4) : ownOutputs op zeroOutputs = zeroOutputs := by
  revert op
  decide

/-- A defined operation writes no output but its own. -/
theorem operate_ownOutputs {op : BitVec 4} (ho : op.toNat < 5) (arg : Byte) (input : List Byte) :
    (operate op arg input).out = ownOutputs op (operate op arg input).out := by
  rcases definedOp_cases ho with rfl | rfl | rfl | rfl | rfl
  · rfl
  · rw [operate_encodeCmd, encodeCmdEffects]
    split <;> rfl
  · rw [operate_decodeRsp, decodeRspEffects]
    split
    · rfl
    · split
      · rfl
      · split <;> rfl
  · rfl
  · rw [operate_decodeFrame, decodeFrameEffects]
    split <;> rfl

/-- What holds of the effects of every completion of an operation: R31, R35, R47, R48, R97, R157, R180. -/
structure CompletionEffects (op : BitVec 4) (e : Effects) : Prop where
  /-- a completion has a result -/
  result : e.code ≠ .none
  /-- OBUF holds its bytes -/
  obufFits : e.obuf.length ≤ 260
  /-- OUT_LEN counts them -/
  outLen : e.out.outLen.toNat = e.obuf.length
  /-- FDESC holds its entries -/
  fdescFits : e.fdesc.length ≤ Config.fdescEntries
  /-- FRAME_COUNT counts them -/
  frameCount : e.out.frameCount.toNat = e.fdesc.length
  /-- no output but the operation's own is written -/
  own : e.out = ownOutputs op e.out
  /-- CHK_OK is DECODE_RSP's, and only with OK -/
  chkOk : e.chkOk = true → op = 2 ∧ e.code = .ok
  /-- the scan cursor is EXTRACT's -/
  cursor : op ≠ 3 → e.cursor = none
  /-- an error writes no buffer -/
  errorBuffers : e.code ≠ .ok → e.obuf = [] ∧ e.fdesc = []
  /-- an error leaves the outputs 0, but for the marker's index of INCOMPLETE -/
  errorOut : e.code ≠ .ok → e.out = { zeroOutputs with rspOffset := e.out.rspOffset }
  /-- and no other error has even that -/
  errorZero : e.code ≠ .ok → e.code ≠ .incomplete → e.out = zeroOutputs

/-- An error with nothing written is such a completion, whatever the operation. -/
theorem completionEffects_noEffects (op : BitVec 4) {code : ResultCode} (h : code ≠ .none) :
    CompletionEffects op (noEffects code) where
  result := h
  obufFits := Nat.zero_le _
  outLen := rfl
  fdescFits := Nat.zero_le _
  frameCount := rfl
  own := (ownOutputs_zeroOutputs op).symm
  chkOk := nofun
  cursor := fun _ => rfl
  errorBuffers := fun _ => ⟨rfl, rfl⟩
  errorOut := fun _ => rfl
  errorZero := fun _ _ => rfl

/-- NONE is no operation's own result. -/
theorem none_not_mem_ownResults (op : BitVec 4) : ResultCode.none ∉ ownResults op := by
  revert op
  decide

/-- A defined operation over an input that fits in IBUF is such a completion. -/
theorem completionEffects_operate {op : BitVec 4} (ho : op.toNat < 5) (arg : Byte) {input : List Byte}
    (hl : input.length ≤ Config.ibufBytes) : CompletionEffects op (operate op arg input) := by
  have hdomain := ibufBytes_domain
  obtain ⟨hobuf, houtLen⟩ := operate_obuf ho arg input
  obtain ⟨hfdesc, hframeCount⟩ := operate_fdesc ho arg (input := input) (by omega)
  have herror := operate_error ho arg input
  exact {
    result := fun hnone => none_not_mem_ownResults op (hnone ▸ operate_code_mem_ownResults ho arg input)
    obufFits := hobuf
    outLen := houtLen
    fdescFits := by rw [Config.fdescEntries]; omega
    frameCount := hframeCount
    own := operate_ownOutputs ho arg input
    chkOk := operate_chkOk ho arg input
    cursor := fun h3 => operate_cursor ho h3 arg input
    errorBuffers := fun h => by
      obtain ⟨hob, hfd, -⟩ := herror h
      exact ⟨hob, hfd⟩
    errorOut := fun h => by
      obtain ⟨-, -, -, hout, -⟩ := herror h
      exact hout
    errorZero := fun h hne => by
      obtain ⟨-, -, -, -, hzero⟩ := herror h
      exact hzero hne }

/-- A completion is decided by the latches and the bytes of the input: another busy state with the same ones completes
with the same effects (R45, R49). -/
theorem blockTurn_same_effects {s t u : State} (hs : s.busy = true) (ht : t.busy = true) (hop : s.opL = t.opL)
    (hoff : s.inOffL = t.inOffL) (hlen : s.inLenL = t.inLenL) (harg : s.argL = t.argL)
    (hbytes : ∀ j, j < s.inLenL.toNat →
      readByte s.mem (ibufAddr (s.inOffL.toNat + j)) = readByte t.mem (ibufAddr (s.inOffL.toNat + j)))
    (h : blockTurn s = .next u) :
    ∃ e, CompletionEffects s.opL e ∧ u = s.completed e ∧ blockTurn t = .next (t.completed e) := by
  rcases blockTurn_busy_cases hs h with ⟨ho, rfl⟩ | ⟨ho, hbad, rfl⟩ | ⟨ho, hfits, input, hread, rfl⟩
  · exact ⟨_, completionEffects_noEffects _ (by decide), rfl, blockTurn_badOp ht (hop ▸ ho)⟩
  · refine ⟨_, completionEffects_noEffects _ (by decide), rfl, blockTurn_badRange ht (hop ▸ ho) ?_⟩
    rw [← hoff, ← hlen]
    exact rangeBad_iff.2 hbad
  · obtain ⟨hinput, hrange, hsame⟩ := inputIs_iff.2 ⟨hfits, hread⟩
    refine ⟨_, completionEffects_operate ho _ (by omega), rfl, ?_⟩
    rw [hop, harg]
    refine blockTurn_operate ht (hop ▸ ho) ?_
    rw [← hoff, ← hlen]
    exact ⟨hinput, hrange, fun j hj => (hbytes j (hinput ▸ hj)).symm.trans (hsame j hj)⟩

/-- Every completion writes such effects. -/
theorem blockTurn_effects {s u : State} (hb : s.busy = true) (h : blockTurn s = .next u) :
    ∃ e, CompletionEffects s.opL e ∧ u = s.completed e := by
  obtain ⟨e, he, hu, -⟩ := blockTurn_same_effects hb hb rfl rfl rfl rfl (fun _ _ => rfl) h
  exact ⟨e, he, hu⟩

/-! ### Outputs and frame -/

/-- Settles O36: each operation's outputs are its own ones, which `ownOutputs` writes out. -/
theorem completionLeavesNoStaleOutput : Obligations.CompletionLeavesNoStaleOutput := by
  unfold Obligations.CompletionLeavesNoStaleOutput
  intro s u hbusy hturn
  obtain ⟨e, he, rfl⟩ := blockTurn_effects hbusy hturn
  have hown : ∀ op : BitVec 4, s.opL = op → e.out = ownOutputs op e.out := fun op hop => hop ▸ he.own
  refine ⟨hown 0, hown 1, hown 2, hown 3, hown 4, fun hreserved => ?reserved, he.chkOk⟩
  case reserved =>
    rw [blockTurn_badOp hbusy hreserved] at hturn
    exact (congrArg State.out (Host.Outcome.next.inj hturn)).symm

/-- Settles O37: a completion writes its effects and nothing else, and an error has none but the marker's index. -/
theorem completionFrame : Obligations.CompletionFrame := by
  unfold Obligations.CompletionFrame
  intro s u hbusy hturn
  obtain ⟨e, he, rfl⟩ := blockTurn_effects hbusy hturn
  refine ⟨rfl, fun i hi => completed_ibuf s he.obufFits hi, fun herror => ?error, fun hop => ?cursor⟩
  case error =>
    obtain ⟨hobuf, hfdesc⟩ := he.errorBuffers herror
    refine ⟨?_, ?_, he.errorOut herror, he.errorZero herror⟩
    · rw [State.completed_mem, hobuf, hfdesc, writeObuf_nil, writeFdesc_nil]
    · exact Bool.eq_false_iff.2 fun hchk => herror (he.chkOk hchk).2
  case cursor => rw [State.completed_scanCursor, he.cursor hop, Option.getD_none]

/-! ### What a completion depends on -/

/-- Settles O38: the two states complete with the same effects, which both write into their buffers. -/
theorem resultDependsOnlyOnItsInput : Obligations.ResultDependsOnlyOnItsInput := by
  unfold Obligations.ResultDependsOnlyOnItsInput
  intro s t u hs ht hop hoff hlen harg hbytes hturn
  obtain ⟨e, he, rfl, hturn'⟩ := blockTurn_same_effects hs ht hop hoff hlen harg hbytes hturn
  refine ⟨_, hturn', rfl, rfl, rfl, fun j hj => ?obuf, fun k hk => ?fdesc⟩
  case obuf =>
    rw [State.completed_out, he.outLen] at hj
    rw [completed_obuf t he.obufFits hj, completed_obuf s he.obufFits hj]
  case fdesc =>
    rw [State.completed_out, he.frameCount] at hk
    have hentry := List.getElem?_eq_getElem hk
    rw [completed_fdesc t hentry, completed_fdesc s hentry]

/-- While busy an accepted bus write changes the registers it writes, and DONE, and nothing else (R24 to R34, R215,
R216). -/
theorem busWrite_busy_frame {s t : State} {offset size : Nat} {data : Word} (hb : s.busy = true)
    (h : busWrite offset size data s = .next t) :
    t = { s with
      irqEn := t.irqEn, op := t.op, inOff := t.inOff, inLen := t.inLen, arg := t.arg, done := t.done } := by
  rcases busWrite_cases h with rfl | ⟨r, hreg⟩ | ⟨hidle, -⟩
  · rfl
  · rcases writeReg_cases hreg with rfl | rfl | ⟨op, irqEn, rfl⟩ | ⟨op, irqEn, hstart⟩ | ⟨v, rfl⟩ | ⟨v, rfl⟩ | ⟨v, rfl⟩
    · rfl
    · rfl
    · rfl
    · rw [startStep_busy op irqEn hb] at hstart
      cases hstart
    · rfl
    · rfl
    · rfl
  · rw [hb] at hidle
    cases hidle

/-- Settles O39: the write leaves the latches and the buffers, so the completion's effects are the same, and those set
DONE whatever it was. -/
theorem hostWritesDoNotReachTheOperation : Obligations.HostWritesDoNotReachTheOperation := by
  unfold Obligations.HostWritesDoNotReachTheOperation
  intro s t u offset size data hbusy hwrite hturn
  have hframe := busWrite_busy_frame hbusy hwrite
  have hbusy' : t.busy = true := (congrArg State.busy hframe).trans hbusy
  have hmem : s.mem = t.mem := (congrArg State.mem hframe).symm
  obtain ⟨e, -, rfl, hturn'⟩ := blockTurn_same_effects hbusy hbusy' (congrArg State.opL hframe).symm
    (congrArg State.inOffL hframe).symm (congrArg State.inLenL hframe).symm (congrArg State.argL hframe).symm
    (fun _ _ => by rw [hmem]) hturn
  exact hturn'.trans (congrArg (fun w => Host.Outcome.next (State.completed w e)) hframe)

end Sys2Proof.Machine
end

section
/-! Proofs of the statements about the machine's invariant (Safety.lean): it holds at reset, every step keeps it, and
what it says of an operation in progress and of the outputs once idle (R72, R99, R191, R219). -/

namespace Sys2Proof.Machine

/-! ### The updates that keep the invariant -/

/-- The state after reset meets the invariant, whatever the model's own fields hold. -/
theorem inv_afterReset (s : State) : Inv s.afterReset where
  canonical := rfl
  mapped := nofun
  handshake := nofun
  inputWritten := nofun
  outLenBound := Nat.zero_le _
  obufWritten := nofun
  frameCountBound := Nat.zero_le _
  fdescWritten := nofun
  chkOkMeansOk := nofun
  doneMeansResult := nofun
  errorOutputs := fun _ => rfl

/-- Settles O56: the reset state is its own state after reset. -/
theorem invariantHoldsAtReset : Obligations.InvariantHoldsAtReset := by
  unfold Obligations.InvariantHoldsAtReset
  exact inv_afterReset State.reset

/-- A descriptor can be read exactly when its four bytes are written (R48). -/
theorem readDesc_isSome {m : Memory} {k : Nat} :
    (readDesc m k).isSome = true ↔ ∀ j, j < 4 → (readByte m (fdescAddr k + j)).isSome = true := by
  rw [readDesc, Option.isSome_map, readBytes_isSome]

section

variable {s : State} (h : Inv s)

include h

/-! No clause speaks of what the next seven updates write: the agenda, the model's own fields, the host's registers. -/

theorem Inv.popped (rest : List Event) : Inv (s.popped rest) := { h with }

theorem Inv.withReadData (v : Word) : Inv (s.withReadData v) := { h with }

theorem Inv.drew (v : Word) : Inv (s.drew v) := { h with }

theorem Inv.withControl (op : BitVec 4) (irqEn : Bool) : Inv (s.withControl op irqEn) := { h with }

theorem Inv.withInOff (v : Half) : Inv (s.withInOff v) := { h with }

theorem Inv.withInLen (v : Half) : Inv (s.withInLen v) := { h with }

theorem Inv.withArg (v : Byte) : Inv (s.withArg v) := { h with }

/-- The acknowledge clears DONE, which no clause asks for. -/
theorem Inv.acknowledged : Inv s.acknowledged :=
  { h with
    handshake := fun _ => rfl
    doneMeansResult := nofun }

/-- A start sets BUSY with DONE = 0, over an input that is no hazard (R95, R218). -/
theorem Inv.started {op : BitVec 4} (irqEn : Bool) (hready : inputReady s.mem op s.inOff s.inLen = true) :
    Inv (s.started op irqEn) :=
  { h with
    handshake := fun _ => rfl
    inputWritten := fun _ => hready
    doneMeansResult := nofun }

/-- Bytes stored into IBUF while idle are mapped, and leave what is written written (R63, R215). -/
theorem Inv.stored {i : Nat} {bs : List Byte} (hb : s.busy = false) (hf : i + bs.length ≤ Config.ibufBytes) :
    Inv (s.withMem (writeBytes s.mem (ibufAddr i) bs)) :=
  { h with
    canonical := memoryWf_writeBytes _ _ h.canonical
    mapped := fun a ha => by
      by_cases hout : a < ibufAddr i ∨ ibufAddr i + bs.length ≤ a
      · rw [State.withMem_mem, readByte_writeBytes_outside _ _ _ hout] at ha
        exact h.mapped a ha
      · left
        simp only [ibufAddr] at hout
        omega
    inputWritten := fun hbusy => by
      rw [State.withMem_busy, hb] at hbusy
      cases hbusy
    obufWritten := fun j hj => readByte_writeBytes_isSome (h.obufWritten j hj)
    fdescWritten := fun k hk => readDesc_isSome.2 fun j hj =>
      readByte_writeBytes_isSome (readDesc_isSome.1 (h.fdescWritten k hk) j hj) }

/-- A completion writes only bytes of OBUF and FDESC that exist, those that OUT_LEN and FRAME_COUNT then count, and its
result and outputs agree (R47, R48, R97). -/
theorem Inv.completed {op : BitVec 4} {e : Effects} (he : CompletionEffects op e) : Inv (s.completed e) where
  canonical := memoryWf_writeFdesc _ (memoryWf_writeObuf _ h.canonical)
  mapped := fun a ha => by
    have hobuf := he.obufFits
    have hfdesc := he.fdescFits
    by_cases h1 : a < obufAddr 0 ∨ obufAddr e.obuf.length ≤ a
    · by_cases h2 : a < fdescAddr 0 ∨ fdescAddr e.fdesc.length ≤ a
      · rw [completed_other s h1 h2] at ha
        exact h.mapped a ha
      · simp only [fdescAddr] at h2
        exact .inr (.inr (by omega))
    · simp only [obufAddr] at h1
      exact .inr (.inl (by rw [Config.obufBytes]; omega))
  handshake := nofun
  inputWritten := nofun
  outLenBound := he.outLen.trans_le he.obufFits
  obufWritten := fun j hj => by
    rw [State.completed_out, he.outLen] at hj
    rw [completed_obuf s he.obufFits hj, List.getElem?_eq_getElem hj, Option.isSome_some]
  frameCountBound := he.frameCount.trans_le he.fdescFits
  fdescWritten := fun k hk => by
    rw [State.completed_out, he.frameCount] at hk
    rw [completed_fdesc s (List.getElem?_eq_getElem hk), Option.isSome_some]
  chkOkMeansOk := fun hchk => (he.chkOk hchk).2
  doneMeansResult := fun _ => he.result
  errorOutputs := fun herror => by
    by_cases hincomplete : e.code = .incomplete
    · rw [State.completed_result, if_pos hincomplete]
      exact he.errorOut herror
    · rw [State.completed_result, if_neg hincomplete]
      exact he.errorZero herror hincomplete

/-! ### The step -/

variable {t : State}

theorem Inv.after_busRead {offset size : Nat} (hstep : busRead offset size s = .next t) : Inv t := by
  obtain ⟨v, rfl | ⟨-, rfl⟩⟩ := busRead_cases hstep
  · exact h.withReadData v
  · exact h.drew v

theorem Inv.after_writeReg {r : Reg} {v : Word} (hstep : writeReg r v s = .next t) : Inv t := by
  rcases writeReg_cases hstep with rfl | rfl | ⟨op, irqEn, rfl⟩ | ⟨op, irqEn, hstart⟩ | ⟨v, rfl⟩ | ⟨v, rfl⟩ | ⟨v, rfl⟩
  · exact h
  · exact h.acknowledged
  · exact h.withControl op irqEn
  · obtain ⟨-, hready, rfl⟩ := startStep_eq_next.1 hstart
    exact h.started irqEn hready
  · exact h.withInOff v
  · exact h.withInLen v
  · exact h.withArg v

theorem Inv.after_busWrite {offset size : Nat} {data : Word} (hstep : busWrite offset size data s = .next t) :
    Inv t := by
  rcases busWrite_cases hstep with rfl | ⟨r, hreg⟩ | ⟨hidle, i, -, hfits, rfl⟩
  · exact h
  · exact h.after_writeReg hreg
  · exact h.stored hidle (by rwa [lanes_length])

theorem Inv.after_storeBytes {i : Nat} {bs : List Byte} (hstep : storeBytes i bs s = .next t) : Inv t := by
  obtain ⟨rfl, hstored⟩ := storeBytes_cases hstep
  by_cases hnil : bs = []
  · rw [hnil]
    exact h
  · obtain ⟨hidle, hfits⟩ := hstored hnil
    exact h.stored hidle hfits

theorem Inv.after_blockTurn (hstep : blockTurn s = .next t) : Inv t := by
  rcases blockTurn_cases hstep with ⟨-, rfl⟩ | ⟨hbusy, -⟩
  · exact h
  · obtain ⟨e, he, rfl⟩ := blockTurn_effects hbusy hstep
    exact h.completed he

theorem Inv.after_hostWait {rest : List Event} (hstep : hostWait rest s = .next t) : Inv t := by
  obtain ⟨hends, hturn, hstands⟩ := hostWait_cases rest s
  cases hdone : s.done
  · cases hbusy : s.busy
    · rw [hstands hdone hbusy] at hstep
      cases hstep
      exact h
    · rw [hturn hdone hbusy] at hstep
      exact h.after_blockTurn hstep
  · rw [hends hdone] at hstep
    cases hstep
    exact (h.popped rest).withReadData (statusWord s)

/-- Whatever event the host's agenda brings keeps the invariant. -/
theorem Inv.after_perform {e : Event} {rest : List Event} (hstep : perform e rest s = .next t) : Inv t := by
  cases e with
  | access a =>
    cases a with
    | read offset size => exact (h.popped rest).after_busRead hstep
    | write offset size data => exact (h.popped rest).after_busWrite hstep
  | bytes i bs => exact (h.popped rest).after_storeBytes hstep
  | wait => exact h.after_hostWait hstep
  | blockTurn => exact (h.popped rest).after_blockTurn hstep
  | reset =>
    cases hstep
    exact inv_afterReset _

end

/-- Settles O57: a step performs the agenda's first event, or with none left is the block's turn. -/
theorem everyStepKeepsTheInvariant : Obligations.EveryStepKeepsTheInvariant := by
  unfold Obligations.EveryStepKeepsTheInvariant
  intro s t h hstep
  cases hagenda : s.agenda with
  | nil => exact h.after_blockTurn ((step_idle hagenda).symm.trans hstep)
  | cons e rest => exact h.after_perform ((step_performs hagenda).symm.trans hstep)

/-! ### Progress -/

/-- Under the invariant an operation in progress completes at the block's turn: idle, DONE, with a result (R191). -/
theorem Inv.blockTurn_completes {s : State} (h : Inv s) (hb : s.busy = true) :
    ∃ e, blockTurn s = .next (s.completed e) ∧ e.code ≠ .none := by
  obtain ⟨e, hturn⟩ := completion_next (h.inputWritten hb)
  have hblock : blockTurn s = .next (s.completed e) := by rw [blockTurn, if_pos hb, hturn]
  exact ⟨e, hblock, (h.after_blockTurn hblock).doneMeansResult rfl⟩

/-- Settles O58: with an empty agenda the step is the block's turn. -/
theorem operationInProgressCompletes : Obligations.OperationInProgressCompletes := by
  unfold Obligations.OperationInProgressCompletes
  intro s h hbusy hagenda
  obtain ⟨e, hturn, hresult⟩ := h.blockTurn_completes hbusy
  exact ⟨s.completed e, (step_idle hagenda).trans hturn, rfl, rfl, hresult⟩

/-- Bit 1 of STATUS is DONE (R27). -/
theorem statusWord_getLsbD_one (s : State) : (statusWord s).getLsbD 1 = s.done := by
  rw [statusWord_getLsbD, if_neg (by decide), if_pos rfl]

/-- Settles O59: while BUSY the wait's step is the completion, which leaves the wait in the agenda with DONE = 1. -/
theorem waitEndsAfterTheCompletion : Obligations.WaitEndsAfterTheCompletion := by
  unfold Obligations.WaitEndsAfterTheCompletion
  intro s rest h hbusy hagenda
  obtain ⟨e, hturn, -⟩ := h.blockTurn_completes hbusy
  obtain ⟨-, hfirst, -⟩ := hostWait_cases rest s
  obtain ⟨hsecond, -, -⟩ := hostWait_cases rest (s.completed e)
  have hagenda' : (s.completed e).agenda = .wait :: rest := hagenda
  refine ⟨s.completed e, _, ?_, rfl, rfl, (step_performs hagenda').trans (hsecond rfl), rfl, rfl, ?_⟩
  · exact ((step_performs hagenda).trans (hfirst (h.handshake hbusy) hbusy)).trans hturn
  · exact statusWord_getLsbD_one _

/-! ### The outputs once idle -/

/-- Settles O60: what the invariant says is written, a read while idle returns. -/
theorem outputsAreReadableOnceIdle : Obligations.OutputsAreReadableOnceIdle := by
  unfold Obligations.OutputsAreReadableOnceIdle
  intro s h hb
  refine ⟨fun i hi => ?obuf, fun k hk => ?fdesc⟩
  case obuf =>
    have hfits : i + 1 ≤ 260 := Nat.lt_of_lt_of_le hi h.outLenBound
    obtain ⟨b, hread⟩ := Option.isSome_iff_exists.1 (h.obufWritten i hi)
    have hread' : readBytes s.mem (0x20000 + i) 1 = some [b] := by
      rw [obufAddr] at hread
      simp [readBytes, hread]
    refine ⟨b, hread, ?_⟩
    rw [busRead_obuf_idle hb (.inl rfl) (Nat.one_dvd i) hfits, readBuffer_written hread', ofLanes_one]
    rfl
  case fdesc =>
    obtain ⟨d, hread⟩ := Option.isSome_iff_exists.1 (h.fdescWritten k hk)
    exact ⟨d, hread, busRead_fdesc_written hb (Nat.lt_of_lt_of_le hk h.frameCountBound) hread⟩

end Sys2Proof.Machine
end

section
/-! Proofs of the statements about whole operations: the start of each row (30_encoding.md R94, R95, R218), CHECKSUM
(R112), ENCODE_CMD (R120), EXTRACT of whole frames (R150), and the wire formats stored as input and decoded (R99). -/

namespace Sys2Proof.Machine

/-! ### Starts -/

/-- Settles O11: each row is a start step of its OP, over an input that is no hazard. -/
theorem definedOperationsStart : Obligations.DefinedOperationsStart := by
  unfold Obligations.DefinedOperationsStart
  intro s irqEn i op hrow hidle hinput
  have hstart : ∀ op, startStep op irqEn s = .next (s.started op irqEn) :=
    fun op => startStep_next irqEn hidle (inputReady_of op hinput)
  simp only [List.mem_cons, List.not_mem_nil, or_false, Prod.mk.injEq] at hrow
  rcases hrow with ⟨rfl, rfl⟩ | ⟨rfl, rfl⟩ | ⟨rfl, rfl⟩ | ⟨rfl, rfl⟩ | ⟨rfl, rfl⟩ <;> exact hstart _

/-- OP 011x is a reserved code (R94). -/
theorem reservedOp6_7_le (low : BitVec 1) : 5 ≤ (3#3 ++ low).toNat := by
  revert low
  decide

/-- OP 1xxx is a reserved code (R94). -/
theorem reservedOp8_15_le (low : BitVec 3) : 5 ≤ (1#1 ++ low).toNat := by
  revert low
  decide

/-- A reserved operation starts from idle, whatever its range and the buffers, and the block's next turn is BAD_OP. -/
theorem reserved_ends {s : State} (irqEn : Bool) {op : BitVec 4} (ho : 5 ≤ op.toNat) (hb : s.busy = false) :
    startStep op irqEn s = .next (s.started op irqEn) ∧
      blockTurn (s.started op irqEn) = .next ((s.started op irqEn).completed (noEffects .badOp)) :=
  ⟨startStep_next irqEn hb (inputReady_iff.2 (.inl ho)), blockTurn_badOp rfl ho⟩

/-- Settles O12: the three rows are start steps of reserved codes. -/
theorem reservedOperationsEndInBadOp : Obligations.ReservedOperationsEndInBadOp := by
  unfold Obligations.ReservedOperationsEndInBadOp
  intro s irqEn i op hrow hidle
  obtain ⟨hexec, ho⟩ : exec i s = startStep op irqEn s ∧ 5 ≤ op.toNat := by
    rcases hrow with ⟨rfl, rfl⟩ | ⟨low, rfl, rfl⟩ | ⟨low, rfl, rfl⟩
    · exact ⟨rfl, by decide⟩
    · exact ⟨rfl, reservedOp6_7_le low⟩
    · exact ⟨rfl, reservedOp8_15_le low⟩
  obtain ⟨hstart, hturn⟩ := reserved_ends irqEn ho hidle
  exact ⟨s.started op irqEn, hexec.trans hstart, rfl, hturn⟩

/-- An in-range input with an unwritten byte is the hazard of R218 for a defined operation. -/
theorem inputReady_unwritten {m : Memory} {op : BitVec 4} {off len : Half} {j : Nat} (ho : op.toNat < 5)
    (hf : off.toNat + len.toNat ≤ Config.ibufBytes) (hj : j < len.toNat)
    (h : readByte m (ibufAddr (off.toNat + j)) = none) : inputReady m op off len = false := by
  rw [Bool.eq_false_iff, Ne, inputReady_iff]
  rintro (hreserved | hbad | ⟨input, hinput⟩)
  · omega
  · rw [(rangeFits_iff off len).2 hf] at hbad
    cases hbad
  · have hsome := readBytes_isSome.1 (Option.isSome_of_eq_some hinput) j hj
    rw [← ibufAddr_add, h] at hsome
    cases hsome

/-- Settles O14: each row is a start step of a defined code, which the hazard refuses. -/
theorem startOverUnwrittenInputIsRefused : Obligations.StartOverUnwrittenInputIsRefused := by
  unfold Obligations.StartOverUnwrittenInputIsRefused
  intro s irqEn i j hrow hidle hfits hj hnone
  have hrefused : ∀ op : BitVec 4, op.toNat < 5 → startStep op irqEn s = .refused .unwrittenInput :=
    fun op ho => startStep_unwritten irqEn hidle (inputReady_unwritten ho hfits hj hnone)
  simp only [List.mem_cons, List.not_mem_nil, or_false] at hrow
  rcases hrow with rfl | rfl | rfl | rfl | rfl <;> exact hrefused _ (by decide)

/-! ### CHECKSUM and ENCODE_CMD -/

/-- Settles O15: CHECKSUM's one effect is CHK_RESULT, the fold from 0. -/
theorem checksumComputesTheXorFold : Obligations.ChecksumComputesTheXorFold := by
  unfold Obligations.ChecksumComputesTheXorFold
  intro s irqEn input hidle hinput
  obtain ⟨hstart, hturn⟩ := run_operation (irqEn := irqEn) 0 (by decide) hidle hinput
  exact ⟨s.started 0 irqEn, hstart, rfl, hturn⟩

/-- What ENCODE_CMD writes for a payload that fits: the command frame, its length and its checksum (R120). -/
theorem encodeCmdEffects_fits {cmd : Byte} {payload : List Byte} (h : payload.length ≤ 255) :
    encodeCmdEffects cmd payload = { noEffects .ok with
      out := { zeroOutputs with
        outLen := BitVec.ofNat 16 (5 + payload.length)
        chkResult := commandChecksum cmd payload }
      obuf := commandFrame cmd payload } := by
  rw [encodeCmdEffects, if_neg (Nat.not_lt.2 h)]

/-- Settles O17: the frame's effects, of which OBUF takes the bytes and nothing else. -/
theorem encodeCmdBuildsTheFrame : Obligations.EncodeCmdBuildsTheFrame := by
  unfold Obligations.EncodeCmdBuildsTheFrame
  intro s irqEn payload hidle hinput hfits len chk frame
  have hframe : commandFrame s.arg payload = frame := rfl
  obtain ⟨hstart, hturn⟩ := run_operation (irqEn := irqEn) 1 (by decide) hidle hinput
  rw [operate_encodeCmd, encodeCmdEffects_fits hfits] at hturn
  refine ⟨s.started 1 irqEn, writeObuf s.mem frame, hstart, rfl, hturn, fun j hj => ?frame, fun a ha => ?other⟩
  case frame => exact readByte_writeBytes_inside s.mem (obufAddr 0) frame (by rwa [← hframe, commandFrame_length])
  case other =>
    refine readByte_writeBytes_outside s.mem (obufAddr 0) frame ?_
    rw [← hframe, commandFrame_length]
    simpa [obufAddr] using ha

/-- Settles O20: OBUF holds the command frame, OUT_LEN its length, and the decoder reads a command frame back. -/
theorem encodedFrameIsOneCommandFrame : Obligations.EncodedFrameIsOneCommandFrame := by
  unfold Obligations.EncodedFrameIsOneCommandFrame
  intro s irqEn payload hidle hinput hfits
  obtain ⟨hstart, hturn⟩ := run_operation (irqEn := irqEn) 1 (by decide) hidle hinput
  obtain ⟨hobuf, houtLen⟩ := operate_obuf (op := 1) (by decide) s.arg payload
  have hframe : (operate 1 s.arg payload).obuf = commandFrame s.arg payload := by
    rw [operate_encodeCmd, encodeCmdEffects_fits hfits]
  refine ⟨_, _, commandFrame s.arg payload, hstart, hturn, ?read, decode_commandFrame 0 s.arg (decide_eq_true hfits)⟩
  case read =>
    rw [State.completed_out, houtLen, ← hframe]
    exact readBytes_completed_obuf _ hobuf (Nat.zero_add _)

/-! ### Frames stored as input -/

/-- A frame stored at IBUF[IN_OFF], as long as IN_LEN says, then a defined operation: it starts over that frame, and its
completion writes the operation's effects (R99). -/
theorem stored_frame_operation {s : State} (irqEn : Bool) {bs : List Byte} (op : BitVec 4) (ho : op.toNat < 5)
    (hb : s.busy = false) (hlen : bs.length = s.inLen.toNat) (hf : s.inOff.toNat + s.inLen.toNat ≤ Config.ibufBytes) :
    ∃ t u, storeBytes s.inOff.toNat bs s = .next t ∧ startStep op irqEn t = .next u ∧
      blockTurn u = .next (u.completed (operate op s.arg bs)) := by
  obtain ⟨hstart, hturn⟩ := run_operation (s := s.withMem (writeBytes s.mem (ibufAddr s.inOff.toNat) bs))
    (irqEn := irqEn) op ho hb (inputIs_writeBytes s.mem hlen hf)
  exact ⟨_, _, storeBytes_next hb (by omega), hstart, hturn⟩

/-- The fields of RSP_HDR: the status byte lowest, then the command ID, then the length (R37). -/
theorem rspHdr_fields (status cmd len : Byte) :
    let hdr : BitVec 24 := status.setWidth 24 ||| (cmd.setWidth 24 <<< 8) ||| (len.setWidth 24 <<< 16)
    hdr.extractLsb' 0 8 = status ∧ hdr.extractLsb' 8 8 = cmd ∧ hdr.extractLsb' 16 8 = len := by
  refine ⟨?_, ?_, ?_⟩ <;>
  · apply BitVec.eq_of_getLsbD_eq
    intro i hi
    interval_cases i <;> simp

/-- Settles O24: the stored frame is DECODE_RSP's whole input, with nothing before or after it. -/
theorem storedResponseFrameIsDecoded : Obligations.StoredResponseFrameIsDecoded := by
  unfold Obligations.StoredResponseFrameIsDecoded
  intro s irqEn status cmd chk payload hidle hfits hlen hrange
  have heffects : operate 2 s.arg (responseFrame status cmd payload chk) =
      responseEffects status cmd payload chk 0 := by
    have h := decodeRspEffects_responseFrame hfits status cmd chk [] (before := []) (by simp [pairAt])
    rwa [List.append_nil] at h
  have hbyte : (lengthByte payload).toNat = payload.length := lengthByte_toNat (decide_eq_true hfits)
  obtain ⟨t, u, hstore, hstart, hturn⟩ := stored_frame_operation irqEn (bs := responseFrame status cmd payload chk) 2
    (by decide) hidle (by rw [responseFrame_length, hlen]) hrange
  rw [heffects] at hturn
  obtain ⟨hstatus, hcmd, hlength⟩ := rspHdr_fields status cmd (lengthByte payload)
  refine ⟨t, u, _, hstore, hstart, hturn, rfl, rfl, ?outLen, hstatus, hcmd, ?length, ?payload, ?chkOk⟩
  case outLen =>
    change ((lengthByte payload).setWidth 16).toNat = payload.length
    rw [BitVec.toNat_setWidth, hbyte, Nat.mod_eq_of_lt (by omega)]
  case length =>
    exact (congrArg BitVec.toNat hlength).trans hbyte
  case payload =>
    exact readBytes_completed_obuf u (e := responseEffects status cmd payload chk 0) (Nat.le_trans hfits (by decide))
      (Nat.zero_add _)
  case chkOk =>
    change (responseChecksum status cmd payload == chk) = true ↔ _
    rw [beq_iff_eq, eq_comm]

/-- A streaming frame passes DECODE_FRAME's four tests. -/
theorem frameShaped_streamFrame (digital : Byte) (an : Channels) : frameShaped (streamFrame digital an) :=
  ⟨rfl, rfl, rfl, rfl⟩

/-- Settles O32: the stored frame passes the four tests, and its samples are its channels. -/
theorem storedStreamFrameIsDecoded : Obligations.StoredStreamFrameIsDecoded := by
  unfold Obligations.StoredStreamFrameIsDecoded
  intro s irqEn digital an hidle hlen hrange
  have hlen' : s.inLen.toNat = 20 := by rw [hlen]; rfl
  obtain ⟨t, u, hstore, hstart, hturn⟩ := stored_frame_operation irqEn (bs := streamFrame digital an) 4
    (by decide) hidle (by rw [streamFrame_length, hlen']) (by omega)
  rw [operate_decodeFrame, decodeFrameEffects_shaped (frameShaped_streamFrame digital an),
    samplesOf_streamFrame] at hturn
  exact ⟨t, u, _, hstore, hstart, hturn, rfl, rfl, rfl⟩

end Sys2Proof.Machine
end

section
/-! Proof of the statement about EXTRACT over whole frames (42_stream.md R150 to R155; W4 and W6 of
95_test_vectors.md). -/

namespace Sys2Proof.Machine

/-! ### The scan of whole frames -/

/-- The bytes of streaming frames one after another. -/
def streamBytes (frames : List (Byte × Channels)) : List Byte := frames.flatMap fun f => streamFrame f.1 f.2

/-- The range of the k-th of such frames. -/
def wholeRange (k : Nat) : Nat × Nat := (20 * k, 20 * k + 19)

/-- A streaming frame has 20 bytes (R86). -/
theorem streamBytes_length (frames : List (Byte × Channels)) : (streamBytes frames).length = 20 * frames.length := by
  induction frames with
  | nil => rfl
  | cons f frames ih =>
    rw [streamBytes, List.flatMap_cons, List.length_append, streamFrame_length, ← streamBytes, ih, List.length_cons]
    omega

/-- The bytes of the frame after `done` are the frame's own. -/
theorem streamBytes_getElem? (done rest : List (Byte × Channels)) (f : Byte × Channels) {j : Nat} (hj : j < 20) :
    (streamBytes (done ++ f :: rest))[20 * done.length + j]? = (streamFrame f.1 f.2)[j]? := by
  rw [streamBytes, List.flatMap_append, List.flatMap_cons, ← streamBytes, ← streamBytes, ← streamBytes_length,
    List.getElem?_append_right (Nat.le_add_right _ _), Nat.add_sub_cancel_left,
    List.getElem?_append_left (by rwa [streamFrame_length])]

/-- A frame's bytes from index 2 to 18 are its digital byte and its samples' bytes (R86). -/
theorem streamFrame_inner_mem (digital : Byte) (an : Channels) {j : Nat} {b : Byte} (h2 : 2 ≤ j) (hj : j < 19)
    (h : (streamFrame digital an)[j]? = some b) : b ∈ digital :: sampleBytes an := by
  have hsplit : streamFrame digital an = [0x7A, 0x7B] ++ ((digital :: sampleBytes an) ++ [0x7C]) := rfl
  rw [hsplit, List.getElem?_append_right h2, List.getElem?_append_left (by
    change j - 2 < 17
    omega)] at h
  exact List.mem_of_getElem? h

/-- Where a whole frame begins, the scan finds that frame: its start sentinel at once, and its end sentinel last, where
none stands inside (R151, R152). -/
theorem wholeRange_found (done rest : List (Byte × Channels)) (f : Byte × Channels)
    (h : (0x7C : Byte) ∉ f.1 :: sampleBytes f.2) :
    firstPair (streamBytes (done ++ f :: rest)) (20 * done.length) 0x7A 0x7B (20 * done.length) ∧
      firstByte (streamBytes (done ++ f :: rest)) (20 * done.length + 2) 0x7C (20 * done.length + 19) := by
  have hbyte := fun j (hj : j < 20) => streamBytes_getElem? done rest f hj
  refine ⟨⟨Nat.le_refl _, ⟨hbyte 0 (by decide), hbyte 1 (by decide)⟩, fun k h1 h2 => absurd h1 (Nat.not_le.2 h2)⟩,
    by omega, hbyte 19 (by decide), fun k h1 h2 hk => ?_⟩
  obtain ⟨j, rfl⟩ := Nat.exists_eq_add_of_le (show 20 * done.length ≤ k by omega)
  rw [hbyte j (by omega)] at hk
  exact h (streamFrame_inner_mem f.1 f.2 (by omega) (by omega) hk)

/-- From the end of the frames already scanned, the scan finds each of the rest, and ends past the last (R153, R154). -/
theorem scan_streamBytes (done rest : List (Byte × Channels)) (h : ∀ f ∈ rest, (0x7C : Byte) ∉ f.1 :: sampleBytes f.2) :
    Scan (streamBytes (done ++ rest)) (20 * done.length) ((List.range' done.length rest.length).map wholeRange)
      (20 * (done ++ rest).length) := by
  induction rest generalizing done with
  | nil =>
    rw [List.append_nil]
    refine .noStart _ fun j hj hpair => ?_
    have hpair := hpair.1
    rw [List.getElem?_eq_none (by rwa [streamBytes_length])] at hpair
    cases hpair
  | cons f rest ih =>
    obtain ⟨hstart, hstop⟩ := wholeRange_found done rest f (h f List.mem_cons_self)
    have hrest := ih (done ++ [f]) fun g hg => h g (List.mem_cons_of_mem f hg)
    rw [List.length_append, List.length_singleton, List.append_assoc, List.singleton_append, Nat.mul_succ] at hrest
    exact .emit _ _ _ _ _ hstart hstop hrest

/-- EXTRACT's candidates over whole frames are the frames. -/
theorem candidates_streamBytes {frames : List (Byte × Channels)}
    (h : ∀ f ∈ frames, (0x7C : Byte) ∉ f.1 :: sampleBytes f.2) :
    candidates (streamBytes frames) = ((List.range' 0 frames.length).map wholeRange, 20 * frames.length) := by
  obtain ⟨hfound, hfinal⟩ := scan_unique (candidates_scan (streamBytes frames)) (scan_streamBytes [] frames h)
  exact Prod.ext hfound hfinal

/-- Settles O28: the candidates are the frames, and FDESC, FRAME_COUNT and EXT_CURSOR report them. -/
theorem extractReturnsEachWholeFrame : Obligations.ExtractReturnsEachWholeFrame := by
  unfold Obligations.ExtractReturnsEachWholeFrame
  intro frames irqEn s hclean hidle hinput
  replace hinput : inputIs s.mem s.inOff s.inLen (streamBytes frames) := hinput
  have hcandidates := candidates_streamBytes hclean
  have hl := inputIs_length_lt hinput
  have hlen : (streamBytes frames).length = 20 * frames.length := streamBytes_length frames
  have hcount : (extractEffects (streamBytes frames)).out.frameCount.toNat = frames.length := by
    rw [extractEffects_frameCount hl, hcandidates, List.length_map, List.length_range']
  obtain ⟨hstart, hturn⟩ := run_operation (irqEn := irqEn) 3 (by decide) hidle hinput
  refine ⟨_, _, hstart, hturn, rfl, hcount, ?cursor, fun k hk => ?entry⟩
  case cursor =>
    change (BitVec.ofNat 16 (candidates (streamBytes frames)).2).toNat = _
    rw [hcandidates, BitVec.toNat_ofNat, Nat.mod_eq_of_lt (hlen ▸ hl)]
  case entry =>
    obtain ⟨r, hr, hread, hstart, hend⟩ := extract_entry (s.started 3 irqEn) hl (k := k) (by rwa [hcount])
    rw [hcandidates, List.getElem?_map, List.getElem?_range' hk, Option.map_some, Nat.zero_add, Nat.one_mul] at hr
    obtain rfl := Option.some.inj hr
    exact ⟨_, hread, hstart, hend⟩

end Sys2Proof.Machine
end

section
/-! Proofs of the statements about the host's stores and program lines (30_encoding.md R98 to R100; 20_memory.md R66,
R215): the wire formats as bytes in IBUF (log entry 8), and what each line encodes as. -/

namespace Sys2Proof

/-- Channels are fixed by their values. -/
theorem channels_ext {c d : Channels} (h : ∀ n, channelOf c n = channelOf d n) : c = d := by
  cases c
  cases d
  rw [Channels.mk.injEq]
  exact ⟨h 0, h 1, h 2, h 3, h 4, h 5, h 6, h 7⟩

/-- A sample whose two bytes are a value's low and high ones is that value (R87). -/
theorem le16_extractLsb' (v : Half) : le16 (v.extractLsb' 0 8) (v.extractLsb' 8 8) = v := by
  have hlow : v.extractLsb' 0 8 = lowByte v := rfl
  have hhigh : v.extractLsb' 8 8 = highByte v := by
    apply BitVec.eq_of_toNat_eq
    rw [highByte_toNat, BitVec.extractLsb'_toNat, Nat.shiftRight_eq_div_pow]
    have := v.isLt
    omega
  rw [hlow, hhigh, le16_lowByte_highByte]

/-- A streaming frame is fixed by its length and its bytes at the places of R86. -/
theorem eq_streamFrame {bs : List Byte} {digital : Byte} {c : Channels} (hlen : bs.length = 20)
    (h0 : bs[0]? = some 0x7A) (h1 : bs[1]? = some 0x7B) (h2 : bs[2]? = some digital) (h19 : bs[19]? = some 0x7C)
    (hc : ∀ n : Fin 8, bs[3 + 2 * n.val]? = some ((channelOf c n).extractLsb' 0 8) ∧
      bs[4 + 2 * n.val]? = some ((channelOf c n).extractLsb' 8 8)) : bs = streamFrame digital c := by
  have hsamples : samplesOf bs = c := channels_ext fun n => by
    obtain ⟨hlow, hhigh⟩ := hc n
    rw [channelOf_samplesOf, sampleAt, byteAt_of_getElem? hlow, byteAt_of_getElem? hhigh, le16_extractLsb']
  rw [← hsamples, ← byteAt_of_getElem? h2]
  exact (streamFrame_of_shaped (Machine.frameShaped_iff.2 ⟨hlen, h0, h1, h19⟩)).symm

end Sys2Proof

namespace Sys2Proof.Machine

/-! ### Stored frames -/

/-- A program's `bytes` line of bytes that IBUF holds, run write by write while idle, stores them (R99). -/
theorem steps_byteWrites {i : Nat} {bs : List Byte} {rest : List Event} {s : State} (hb : s.busy = false)
    (hf : i + bs.length ≤ Config.ibufBytes) (ha : s.agenda = (byteWrites i bs).map .access ++ rest) :
    steps bs.length s = .next ((s.popped rest).withMem (writeBytes s.mem (ibufAddr i) bs)) := by
  induction bs generalizing i s with
  | nil =>
    have hrest : s.agenda = rest := ha
    rw [← hrest]
    rfl
  | cons b bs ih =>
    rw [List.length_cons] at hf
    have hrest := ih (i := i + 1)
      (s := (s.popped ((byteWrites (i + 1) bs).map .access ++ rest)).withMem (writeByte s.mem (ibufAddr i) b))
      hb (by omega) rfl
    rw [ibufAddr_succ] at hrest
    rw [List.length_cons, steps_succ, step_byteWrite hb (by omega) ha, andThen_next]
    exact hrest

/-- A frame that fits in IBUF, stored while idle by its row or by a `bytes` line, is its bytes and nothing else. -/
theorem stored_bytes {s : State} {i : Nat} {bs : List Byte} (hb : s.busy = false)
    (hf : i + bs.length ≤ Config.ibufBytes) :
    ∃ m, storeBytes i bs s = .next { s with mem := m } ∧
      (∀ j, j < bs.length → readByte m (ibufAddr (i + j)) = bs[j]?) ∧
      (∀ a, a < ibufAddr i ∨ ibufAddr (i + bs.length) ≤ a → readByte m a = readByte s.mem a) ∧
      ∀ rest : List Event, steps bs.length { s with agenda := programEvents [.bytes i bs] ++ rest } =
        .next { s with mem := m, agenda := rest } := by
  refine ⟨writeBytes s.mem (ibufAddr i) bs, storeBytes_next hb hf, fun j hj => ?_, fun a ha => ?_, fun rest => ?_⟩
  · rw [ibufAddr_add]
    exact readByte_writeBytes_inside s.mem (ibufAddr i) bs hj
  · rw [ibufAddr_add] at ha
    exact readByte_writeBytes_outside s.mem (ibufAddr i) bs ha
  · have hline : programEvents [.bytes i bs] = (byteWrites i bs).map .access := List.append_nil _
    exact steps_byteWrites (s := { s with agenda := programEvents [.bytes i bs] ++ rest }) hb hf (by rw [hline])

/-- Settles O52: each format's bytes are its frame's, which the row stores. -/
theorem storedFramesAreTheirBytes : Obligations.StoredFramesAreTheirBytes := by
  unfold Obligations.StoredFramesAreTheirBytes
  intro s i f bs hframe hidle hfits
  have hexec : exec f s = storeBytes i bs s := by
    rcases hframe with ⟨cmd, p, -, rfl, rfl⟩ | ⟨status, cmd, chk, p, -, rfl, rfl⟩ |
      ⟨digital, c, rfl, hlen, h0, h1, h2, h19, hc⟩
    · rfl
    · rfl
    · rw [eq_streamFrame hlen h0 h1 h2 h19 hc, exec_streamFrame]
  rw [hexec]
  exact stored_bytes hidle hfits

/-- A run of bytes that IBUF does not hold all of, stored while idle, is a bus error (R66). -/
theorem storeBytes_refused_past {i : Nat} {bs : List Byte} {s : State} (hb : s.busy = false) (hne : bs ≠ [])
    (hf : Config.ibufBytes < i + bs.length) : storeBytes i bs s = .refused .busError := by
  induction bs generalizing i s with
  | nil => exact absurd rfl hne
  | cons b bs ih =>
    rw [List.length_cons] at hf
    by_cases hi : i + 1 ≤ Config.ibufBytes
    · have hstore := (storeByte_eq_next (b := b)).2 ⟨hi, hb, rfl⟩
      have hne' : bs ≠ [] := by
        rintro rfl
        rw [List.length_nil] at hf
        omega
      rw [storeBytes, hstore, andThen_next]
      exact ih hb hne' (by omega)
    · have hholds : ibufHolds (i + 1) = false := by
        rw [Bool.eq_false_iff, Ne, ibufHolds_iff]
        exact hi
      rw [storeBytes, storeByte, if_neg (Bool.eq_false_iff.1 hholds), andThen_refused]

/-- Settles O53: a wire row stores the bytes of its encoding, of which there is at least one. -/
theorem frameThatCannotBeStoredIsRefused : Obligations.FrameThatCannotBeStoredIsRefused := by
  unfold Obligations.FrameThatCannotBeStoredIsRefused
  intro s i f hframe
  obtain ⟨bs, hencode, hne⟩ : ∃ bs, encode f = .bytes i bs ∧ bs ≠ [] := by
    rcases hframe with ⟨cmd, p, rfl⟩ | ⟨status, cmd, p, chk, rfl⟩ | ⟨digital, c, rfl⟩
    · exact ⟨_, rfl, nofun⟩
    · exact ⟨_, rfl, nofun⟩
    · exact ⟨_, rfl, nofun⟩
  rw [exec_of_encode_bytes hencode]
  exact ⟨fun hbusy hi => storeBytes_refused_busy hbusy hne hi,
    fun hidle hpast => storeBytes_refused_past hidle hne (hpast i bs hencode)⟩

/-! ### Program lines -/

/-- Settles O5: the closed lines are their accesses, and a `bytes` line its one-byte writes. -/
theorem programLinesEncodeAsTheirAccesses : Obligations.ProgramLinesEncodeAsTheirAccesses := by
  unfold Obligations.ProgramLinesEncodeAsTheirAccesses
  refine ⟨by decide, by decide, by decide, by decide, by decide, by decide, fun i bs => ?bytes, fun _ _ _ => ?encode,
    fun n => ?wait⟩
  case bytes =>
    have hline : programEvents [.bytes i bs] = (byteWrites i bs).map .access := List.append_nil _
    rw [hline]
    refine ⟨by rw [List.length_map, byteWrites_length], fun j b hj => ?_⟩
    rw [List.getElem?_map, byteWrites_getElem?, hj, Option.map_some, Option.map_some, ibufAddr, Nat.add_assoc]
  case encode => rfl
  case wait => rfl

end Sys2Proof.Machine
end
